-- ==== Sys2Proof/Word.lean ====
section
/-! DEFINITION. The word types of the machine (00_scope.md R7, R10): 16-bit words for registers, memory cells and addresses,
bytes for characters, and the index of a general register. -/

namespace Sys2Proof

/-- A 16-bit word: a register, a memory cell or an address (R7 `W`). Arithmetic on it wraps modulo 65536 (R10). -/
abbrev Word := BitVec 16

/-- A byte of the host's character streams (R14). -/
abbrev Byte := BitVec 8

/-- The index of a general register R0..R7 (10_state.md R20, R23): no other index can be named. -/
abbrev Reg := Fin 8

/-- R7, the link register (10_state.md R22). -/
abbrev Reg.link : Reg := 7

/-- The last word address, 0xFFFF (R7 `MEM_WORDS`). -/
abbrev Word.last : Word := 0xFFFF#16

end Sys2Proof
end

