-- ==== Sys2Proof/Syntax.lean ====
section
/-! DEFINITION. The instructions: one constructor per row of spec/opcode_table.json, with the fields of 30_encoding.md R82
at their own widths. -/

namespace Sys2Proof

/-- An instruction with its fields (30_encoding.md R86). Immediates and offsets are the raw fields of the word, still to be
sign-extended (R83). The six TRAP routines and the unknown vectors are rows of their own in the opcode table. -/
inductive Instr where
  /-- BR, mask bits n, z, p and PCoffset9 (R120). -/
  | br (n z p : Bool) (off : BitVec 9)
  /-- ADD, register form (R111). -/
  | addReg (dr sr1 sr2 : Reg)
  /-- ADD, immediate form (R112). -/
  | addImm (dr sr1 : Reg) (imm : BitVec 5)
  /-- LD (R130). -/
  | ld (dr : Reg) (off : BitVec 9)
  /-- ST (R134). -/
  | st (sr : Reg) (off : BitVec 9)
  /-- JSRR (R124). -/
  | jsrr (base : Reg)
  /-- JSR (R123). -/
  | jsr (off : BitVec 11)
  /-- AND, register form (R113). -/
  | andReg (dr sr1 sr2 : Reg)
  /-- AND, immediate form (R114). -/
  | andImm (dr sr1 : Reg) (imm : BitVec 5)
  /-- LDR (R132). -/
  | ldr (dr base : Reg) (off : BitVec 6)
  /-- STR (R136). -/
  | str (sr base : Reg) (off : BitVec 6)
  /-- RTI, unimplemented (R160). -/
  | rti
  /-- NOT (R115). -/
  | notReg (dr sr : Reg)
  /-- LDI (R131). -/
  | ldi (dr : Reg) (off : BitVec 9)
  /-- STI (R135). -/
  | sti (sr : Reg) (off : BitVec 9)
  /-- JMP, and RET when the base is R7 (R121). -/
  | jmp (base : Reg)
  /-- RES, reserved (R161). -/
  | res
  /-- LEA (R133). -/
  | lea (dr : Reg) (off : BitVec 9)
  /-- TRAP x20, GETC (R143). -/
  | trapGetc
  /-- TRAP x21, OUT (R144). -/
  | trapOut
  /-- TRAP x22, PUTS (R145). -/
  | trapPuts
  /-- TRAP x23, IN (R146). -/
  | trapIn
  /-- TRAP x24, PUTSP (R147). -/
  | trapPutsp
  /-- TRAP x25, HALT (R148). -/
  | trapHalt
  /-- TRAP with a vector that is none of the six (R149). -/
  | trapUnknown (vec : Byte)
deriving DecidableEq, Repr

end Sys2Proof
end

