-- ==== Sys2Proof/WellFormed.lean ====
section
/-! DEFINITION. Which instruction terms stand for a word. The field types already bound every operand, so one check is
left: the row `TRAP (unknown vector)` "applies only when no other TRAP row matches" (spec/INDEX.md, 43_trap.md R149). -/

namespace Sys2Proof

/-- The vector names one of the six routines, 0x20..0x25 (43_trap.md R142). -/
def knownVector (v : Byte) : Bool :=
  decide (0x20 ≤ v.toNat ∧ v.toNat ≤ 0x25)

/-- The instruction is the decoding of some word: only an unknown-vector TRAP can fail this, by naming a known vector. -/
def Instr.wf : Instr → Bool
  | .br _ _ _ _ => true
  | .addReg _ _ _ => true
  | .addImm _ _ _ => true
  | .ld _ _ => true
  | .st _ _ => true
  | .jsrr _ => true
  | .jsr _ => true
  | .andReg _ _ _ => true
  | .andImm _ _ _ => true
  | .ldr _ _ _ => true
  | .str _ _ _ => true
  | .rti => true
  | .notReg _ _ => true
  | .ldi _ _ => true
  | .sti _ _ => true
  | .jmp _ => true
  | .res => true
  | .lea _ _ => true
  | .trapGetc => true
  | .trapOut => true
  | .trapPuts => true
  | .trapIn => true
  | .trapPutsp => true
  | .trapHalt => true
  | .trapUnknown v => !knownVector v

end Sys2Proof
end

