-- ==== Sys2Proof/Decode.lean ====
section
/-! DEFINITION. The decoder of 30_encoding.md R86, total on every 16-bit word, and after it the encoder, written from the
same format table (R82), and the opcode table's rows. RTI and RES decode to instructions of their own, whose meaning raises
the decoder's verdict `InvalidOpcode(8)` or `InvalidOpcode(13)` (R86, R172). -/

namespace Sys2Proof

/-- A 3-bit register field names R0..R7 (R84, 10_state.md R23). -/
def Reg.ofBits (b : BitVec 3) : Reg := b.toFin

/-- The 3-bit field that names a register. -/
def Reg.bits (r : Reg) : BitVec 3 := BitVec.ofFin r

/-- The register field at bits 11..9: DR, and SR of ST, STI, STR (R82). -/
def fieldA (w : Word) : Reg := Reg.ofBits (w.extractLsb' 9 3)

/-- The register field at bits 8..6: SR1, BaseR, and SR of NOT (R82). -/
def fieldB (w : Word) : Reg := Reg.ofBits (w.extractLsb' 6 3)

/-- The register field at bits 2..0: SR2 (R82). -/
def fieldC (w : Word) : Reg := Reg.ofBits (w.extractLsb' 0 3)

/-- imm5, bits 4..0 (R83). -/
def fieldImm5 (w : Word) : BitVec 5 := w.extractLsb' 0 5

/-- offset6, bits 5..0 (R83). -/
def fieldOff6 (w : Word) : BitVec 6 := w.extractLsb' 0 6

/-- PCoffset9, bits 8..0 (R83). -/
def fieldOff9 (w : Word) : BitVec 9 := w.extractLsb' 0 9

/-- PCoffset11, bits 10..0 (R83). -/
def fieldOff11 (w : Word) : BitVec 11 := w.extractLsb' 0 11

/-- trapvect8, bits 7..0 (R83). -/
def fieldVec (w : Word) : Byte := w.extractLsb' 0 8

/-- The six trap vectors and the rest (43_trap.md R141, R142). -/
def decodeTrap (v : Byte) : Instr :=
  if v = 0x20 then .trapGetc
  else if v = 0x21 then .trapOut
  else if v = 0x22 then .trapPuts
  else if v = 0x23 then .trapIn
  else if v = 0x24 then .trapPutsp
  else if v = 0x25 then .trapHalt
  else .trapUnknown v

/-- `Decode` of R86: the opcode bits 15..12 from the left, as R85 writes them in binary. -/
def decode (w : Word) : Instr :=
  match w[15], w[14], w[13], w[12] with
  | false, false, false, false => .br w[11] w[10] w[9] (fieldOff9 w)
  | false, false, false, true =>
    bif w[5] then .addImm (fieldA w) (fieldB w) (fieldImm5 w) else .addReg (fieldA w) (fieldB w) (fieldC w)
  | false, false, true, false => .ld (fieldA w) (fieldOff9 w)
  | false, false, true, true => .st (fieldA w) (fieldOff9 w)
  | false, true, false, false => bif w[11] then .jsr (fieldOff11 w) else .jsrr (fieldB w)
  | false, true, false, true =>
    bif w[5] then .andImm (fieldA w) (fieldB w) (fieldImm5 w) else .andReg (fieldA w) (fieldB w) (fieldC w)
  | false, true, true, false => .ldr (fieldA w) (fieldB w) (fieldOff6 w)
  | false, true, true, true => .str (fieldA w) (fieldB w) (fieldOff6 w)
  | true, false, false, false => .rti
  | true, false, false, true => .notReg (fieldA w) (fieldB w)
  | true, false, true, false => .ldi (fieldA w) (fieldOff9 w)
  | true, false, true, true => .sti (fieldA w) (fieldOff9 w)
  | true, true, false, false => .jmp (fieldB w)
  | true, true, false, true => .res
  | true, true, true, false => .lea (fieldA w) (fieldOff9 w)
  | true, true, true, true => decodeTrap (fieldVec w)

/-- Why a byte string holds no instruction. -/
inductive DecodeReject where
  /-- Fewer than the two bytes of a word are left (20_memory.md R61 drops such a trailing byte). -/
  | truncated
deriving DecidableEq, Repr

/-- The instruction at the head of a byte string in the image's order, each word big-endian (20_memory.md R61), and the
bytes after it; total, and it rejects only what is shorter than a word (R80). -/
def decodeBytes : List Byte → Except DecodeReject (Instr × List Byte)
  | [] => .error .truncated
  | [_] => .error .truncated
  | hi :: lo :: rest => .ok (decode (hi ++ lo), rest)

/-- The word of an instruction (R82, R85). Bits the decoder ignores are written 0, but for NOT, whose bits 5..0 are written
1 as in the spec's own words (0x903F "canonical", 95_test_vectors.md V-DEC; assumption 22). -/
def encode : Instr → Word
  | .br n z p off => 0b0000#4 ++ (BitVec.ofBool n ++ (BitVec.ofBool z ++ (BitVec.ofBool p ++ off)))
  | .addReg dr sr1 sr2 => 0b0001#4 ++ (dr.bits ++ (sr1.bits ++ (0b000#3 ++ sr2.bits)))
  | .addImm dr sr1 imm => 0b0001#4 ++ (dr.bits ++ (sr1.bits ++ (0b1#1 ++ imm)))
  | .ld dr off => 0b0010#4 ++ (dr.bits ++ off)
  | .st sr off => 0b0011#4 ++ (sr.bits ++ off)
  | .jsrr base => 0b0100#4 ++ (0b000#3 ++ (base.bits ++ 0b000000#6))
  | .jsr off => 0b0100#4 ++ (0b1#1 ++ off)
  | .andReg dr sr1 sr2 => 0b0101#4 ++ (dr.bits ++ (sr1.bits ++ (0b000#3 ++ sr2.bits)))
  | .andImm dr sr1 imm => 0b0101#4 ++ (dr.bits ++ (sr1.bits ++ (0b1#1 ++ imm)))
  | .ldr dr base off => 0b0110#4 ++ (dr.bits ++ (base.bits ++ off))
  | .str sr base off => 0b0111#4 ++ (sr.bits ++ (base.bits ++ off))
  | .rti => 0b1000#4 ++ 0x000#12
  | .notReg dr sr => 0b1001#4 ++ (dr.bits ++ (sr.bits ++ 0b111111#6))
  | .ldi dr off => 0b1010#4 ++ (dr.bits ++ off)
  | .sti sr off => 0b1011#4 ++ (sr.bits ++ off)
  | .jmp base => 0b1100#4 ++ (0b000#3 ++ (base.bits ++ 0b000000#6))
  | .res => 0b1101#4 ++ 0x000#12
  | .lea dr off => 0b1110#4 ++ (dr.bits ++ off)
  | .trapGetc => 0b1111#4 ++ (0x0#4 ++ 0x20#8)
  | .trapOut => 0b1111#4 ++ (0x0#4 ++ 0x21#8)
  | .trapPuts => 0b1111#4 ++ (0x0#4 ++ 0x22#8)
  | .trapIn => 0b1111#4 ++ (0x0#4 ++ 0x23#8)
  | .trapPutsp => 0b1111#4 ++ (0x0#4 ++ 0x24#8)
  | .trapHalt => 0b1111#4 ++ (0x0#4 ++ 0x25#8)
  | .trapUnknown v => 0b1111#4 ++ (0x0#4 ++ v)

/-- The bits of an instruction's word that the decoder ignores (R87). -/
def Instr.ignored : Instr → Word
  | .br _ _ _ _ => 0x0000
  | .addReg _ _ _ => 0x0018
  | .addImm _ _ _ => 0x0000
  | .ld _ _ => 0x0000
  | .st _ _ => 0x0000
  | .jsrr _ => 0x063F
  | .jsr _ => 0x0000
  | .andReg _ _ _ => 0x0018
  | .andImm _ _ _ => 0x0000
  | .ldr _ _ _ => 0x0000
  | .str _ _ _ => 0x0000
  | .rti => 0x0FFF
  | .notReg _ _ => 0x003F
  | .ldi _ _ => 0x0000
  | .sti _ _ => 0x0000
  | .jmp _ => 0x0E3F
  | .res => 0x0FFF
  | .lea _ _ => 0x0000
  | .trapGetc => 0x0F00
  | .trapOut => 0x0F00
  | .trapPuts => 0x0F00
  | .trapIn => 0x0F00
  | .trapPutsp => 0x0F00
  | .trapHalt => 0x0F00
  | .trapUnknown _ => 0x0F00

/-- A row of spec/opcode_table.json: a word matches it when `word & mask = bits`. -/
structure OpRow where
  mnemonic : String
  mask : Word
  bits : Word
deriving DecidableEq, Repr

/-- The word matches the row. -/
def OpRow.matchesWord (r : OpRow) (w : Word) : Bool := w &&& r.mask == r.bits

/-- The row of an instruction, its mask and match as spec/opcode_table.json gives them. -/
def Instr.row : Instr → OpRow
  | .br _ _ _ _ => ⟨"BR", 0xF000, 0x0000⟩
  | .addReg _ _ _ => ⟨"ADD", 0xF020, 0x1000⟩
  | .addImm _ _ _ => ⟨"ADD", 0xF020, 0x1020⟩
  | .ld _ _ => ⟨"LD", 0xF000, 0x2000⟩
  | .st _ _ => ⟨"ST", 0xF000, 0x3000⟩
  | .jsrr _ => ⟨"JSRR", 0xF800, 0x4000⟩
  | .jsr _ => ⟨"JSR", 0xF800, 0x4800⟩
  | .andReg _ _ _ => ⟨"AND", 0xF020, 0x5000⟩
  | .andImm _ _ _ => ⟨"AND", 0xF020, 0x5020⟩
  | .ldr _ _ _ => ⟨"LDR", 0xF000, 0x6000⟩
  | .str _ _ _ => ⟨"STR", 0xF000, 0x7000⟩
  | .rti => ⟨"RTI", 0xF000, 0x8000⟩
  | .notReg _ _ => ⟨"NOT", 0xF000, 0x9000⟩
  | .ldi _ _ => ⟨"LDI", 0xF000, 0xA000⟩
  | .sti _ _ => ⟨"STI", 0xF000, 0xB000⟩
  | .jmp _ => ⟨"JMP", 0xF000, 0xC000⟩
  | .res => ⟨"RES", 0xF000, 0xD000⟩
  | .lea _ _ => ⟨"LEA", 0xF000, 0xE000⟩
  | .trapGetc => ⟨"TRAP_GETC", 0xF0FF, 0xF020⟩
  | .trapOut => ⟨"TRAP_OUT", 0xF0FF, 0xF021⟩
  | .trapPuts => ⟨"TRAP_PUTS", 0xF0FF, 0xF022⟩
  | .trapIn => ⟨"TRAP_IN", 0xF0FF, 0xF023⟩
  | .trapPutsp => ⟨"TRAP_PUTSP", 0xF0FF, 0xF024⟩
  | .trapHalt => ⟨"TRAP_HALT", 0xF0FF, 0xF025⟩
  | .trapUnknown _ => ⟨"TRAP__unknown_vector", 0xF000, 0xF000⟩

/-- The rows that take priority: all but the fallback row `TRAP (unknown vector)`. -/
def firstRows : List OpRow :=
  [Instr.row (.br false false false 0), Instr.row (.addReg 0 0 0), Instr.row (.addImm 0 0 0), Instr.row (.ld 0 0),
    Instr.row (.st 0 0), Instr.row (.jsrr 0), Instr.row (.jsr 0), Instr.row (.andReg 0 0 0)] ++
  [Instr.row (.andImm 0 0 0), Instr.row (.ldr 0 0 0), Instr.row (.str 0 0 0), Instr.row .rti, Instr.row (.notReg 0 0),
    Instr.row (.ldi 0 0), Instr.row (.sti 0 0), Instr.row (.jmp 0)] ++
  [Instr.row .res, Instr.row (.lea 0 0), Instr.row .trapGetc, Instr.row .trapOut, Instr.row .trapPuts, Instr.row .trapIn,
    Instr.row .trapPutsp, Instr.row .trapHalt]

/-- The instruction the decoder reads from a table word of `nbits` bits whose bits are `w`; none where the word would be
longer than the machine's one 16-bit length (R80) or `w` has bits above `nbits`. -/
def decodeTableWord (nbits w : Nat) : Option Instr :=
  if nbits ≤ 16 ∧ w < 2 ^ nbits then some (decode (BitVec.ofNat 16 w)) else none

end Sys2Proof
end

