-- ==== Sys2Proof/Config.lean ====
section
/-! DEFINITION. What is fixed for one machine (the parameters of 00_scope.md R8), the kinds of answer the host can give
(00_scope.md R14), and the free values: host answers about which nothing is known. -/

namespace Sys2Proof

/-- What PUTS and PUTSP do when a string runs past 0xFFFF (R8 `STRING_OVERRUN`, decision D15). -/
inductive StringOverrun where
  /-- Raise `Unspecified(StringOverrun)`: the spec's default. -/
  | fault
  /-- Go on at address 0x0000. -/
  | wrap
deriving DecidableEq, Repr

/-- The parameters of 00_scope.md R8, each under its own name. They stand in `State` so that a statement about every
state is a statement about every value of them (assumption 4). -/
structure Config where
  /-- `KBSR_ADDR`, the keyboard status address. -/
  kbsrAddr : Word
  /-- `KBDR_ADDR`, the keyboard data address. -/
  kbdrAddr : Word
  /-- `KBSR_READY`, the status value written when a key is available. -/
  kbsrReady : Word
  /-- `PC_START`, the pc when the run begins. -/
  pcStart : Word
  /-- `GPR_RESET`, R0..R7 when the run begins. -/
  gprReset : Vector Word 8
  /-- `IN_PROMPT`, the bytes IN writes before reading. -/
  inPrompt : List Byte
  /-- `HALT_TEXT`, the bytes HALT writes. -/
  haltText : List Byte
  /-- `STRING_OVERRUN`. -/
  stringOverrun : StringOverrun
  /-- `TRAP_READ_POLLS`: PUTS and PUTSP read through the side-effecting read (decision D14). -/
  trapReadPolls : Bool
deriving DecidableEq, Repr

/-- The constraints of R8's last column: the two device addresses are distinct, bit 15 of `KBSR_READY` is set, and
`HALT_TEXT` is not empty. -/
def Config.wf (c : Config) : Bool :=
  decide (c.kbsrAddr ≠ c.kbdrAddr) && c.kbsrReady.msb && decide (c.haltText ≠ [])

/-- The default of `IN_PROMPT`: "Enter a character: " (R8, decision D18). -/
def Config.promptDefault : List Byte :=
  [0x45, 0x6E, 0x74, 0x65, 0x72, 0x20, 0x61, 0x20, 0x63, 0x68, 0x61, 0x72, 0x61, 0x63, 0x74, 0x65, 0x72, 0x3A, 0x20]

/-- The default of `HALT_TEXT`: "HALT" and a newline (R8, decision D19). -/
def Config.haltDefault : List Byte := [0x48, 0x41, 0x4C, 0x54, 0x0A]

/-- The defaults of R8, every one of them. -/
def Config.default : Config where
  kbsrAddr := 0xFE00
  kbdrAddr := 0xFE02
  kbsrReady := 0x8000
  pcStart := 0x3000
  gprReset := #v[0, 0, 0, 0, 0, 0, 0, 0]
  inPrompt := Config.promptDefault
  haltText := Config.haltDefault
  stringOverrun := .fault
  trapReadPolls := true

/-- The next thing on the host's ONE input stream (10_state.md R34(c)). -/
inductive InputItem where
  /-- A byte, consumed by whichever of `PollKey` and `GetChar` takes it. -/
  | byte (b : Byte)
  /-- The stream is exhausted: `GetChar` answers `EOF`. -/
  | endOfInput
  /-- The blocking read fails (R14 "Any of them may fail with an I/O error"). -/
  | failure
  /-- No byte, `EOF` or failure ever comes (70_reset_and_hazards.md R193). -/
  | silence
deriving DecidableEq, Repr, Inhabited

/-- The host's answer to one `PollKey` (R14), before a byte is taken from the stream. -/
inductive PollAnswer where
  /-- No character is available now. -/
  | noKey
  /-- A character is available: the next byte of the input stream, if it has one. -/
  | keyReady
  /-- The poll fails. -/
  | failure
deriving DecidableEq, Repr, Inhabited

/-- The host's answer to one `PutChar` or one `Flush` (R14). -/
inductive OutputAnswer where
  | ok
  | failure
deriving DecidableEq, Repr, Inhabited

/-- FREE VALUE (assumption 10): an item of the input stream nothing is known about. -/
opaque Config.freeInput : Nat → InputItem

/-- FREE VALUE (assumption 10, decision D26): the answer to a poll nothing is known about. -/
opaque Config.freePoll : Nat → PollAnswer

/-- FREE VALUE (assumption 10, U14): whether a `PutChar` nothing is known about succeeds. -/
opaque Config.freeWrite : Nat → OutputAnswer

/-- FREE VALUE (assumption 10, U14): whether a `Flush` nothing is known about succeeds. -/
opaque Config.freeFlush : Nat → OutputAnswer

end Sys2Proof
end

