-- ==== Sys2Proof/Machine/State.lean ====
section
/-! DEFINITION. The state of the block (10_state.md, the tuple at its head, and the streams of R34), the errors and the
stops, and the state at creation (R35). -/

namespace Sys2Proof.Machine

/-- The condition-flag register: exactly one of three flags (10_state.md R27). -/
inductive Cond where
  | n
  | z
  | p
deriving DecidableEq, Repr

/-- The engine's two run states (10_state.md R34, 70_reset_and_hazards.md R191). -/
inductive RunState where
  | running
  | halted
deriving DecidableEq, Repr

/-- The reasons of `Unspecified` (60_exceptions.md R171): there is one. -/
inductive UnspecifiedReason where
  | stringOverrun
deriving DecidableEq, Repr

/-- The kinds of error and what they carry (60_exceptions.md R170, R171). -/
inductive Err where
  | ioError
  | invalidOpcode (code : Byte)
  | invalidProgramFormat
  | unspecified (reason : UnspecifiedReason)
deriving DecidableEq, Repr

/-- One cell of memory: an address and the 16-bit word it holds. The space is word-addressed and has no bytes
(20_memory.md R50), so a cell is a word (assumption 3). -/
abbrev Cell := Nat × Word

/-- The 65536 words of memory (20_memory.md R50), listed sparsely by rising address; Machine/Memory.lean reads and writes it
and says what an unlisted address holds. -/
abbrev Memory := List Cell

/-- What the host will answer to one kind of request: the answers known in advance, in order, then what follows them, the
same answer for ever or (`none`) a free value for each request, numbered by `drawn` (assumption 8). -/
structure Feed (α : Type) where
  known : List α
  after : Option α
  drawn : Nat
deriving DecidableEq, Repr

/-- The host's character streams as the core meets them (00_scope.md R14, 10_state.md R34(c) and (d)). -/
structure Console where
  /-- The one input stream `PollKey` and `GetChar` take bytes from. -/
  input : Feed InputItem
  /-- Whether the coming polls find a character. -/
  polls : Feed PollAnswer
  /-- Whether the coming `PutChar`s succeed. -/
  writes : Feed OutputAnswer
  /-- Whether the coming `Flush`es succeed. -/
  flushes : Feed OutputAnswer
  /-- The output buffer: bytes passed to `PutChar` and not yet flushed, first one first. -/
  buffer : List Byte
  /-- The bytes the flushes have delivered, first one first. -/
  delivered : List Byte
deriving DecidableEq, Repr

/-- The complete state (10_state.md): registers, pc, cond, memory (KBSR and KBDR are cells of it), run, err; the host's
streams; and the machine's parameters (assumption 4). -/
structure State where
  /-- R0..R7 (R20). -/
  gpr : Vector Word 8
  /-- The program counter (R24). -/
  pc : Word
  /-- The condition-flag register (R27). -/
  cond : Cond
  /-- Memory (20_memory.md R50). -/
  mem : Memory
  /-- Running or Halted (R34(a)). -/
  run : RunState
  /-- The terminal error, once raised (R34(b)). -/
  err : Option Err
  /-- The host's streams (R34(c), R34(d)). -/
  con : Console
  /-- The parameters of 00_scope.md R8; no instruction changes them. -/
  cfg : Config
deriving DecidableEq, Repr

/-- Why the machine takes no step. No instruction of the spec ends here on every path. -/
inductive Fault where
  /-- Raised by `step`: the run is Halted, so no instruction is fetched (10_state.md R34(a), 70_reset_and_hazards.md R190).
  Safe: nothing happens after it. -/
  | runHalted
  /-- Raised by `step`: an error has ended the run, so no step is taken (60_exceptions.md R175). Safe: nothing happens
  after it. -/
  | runErrored (e : Err)
  /-- Raised by GETC and IN: the host never answers `GetChar`, so the step never completes (70_reset_and_hazards.md R193,
  93_implementation_defined.md U7 "stuck"). Safe: the model stops where the hardware waits (assumption 11). -/
  | waitingForInput
  /-- Raised by PUTS and PUTSP, only under `STRING_OVERRUN = wrap` and only when their loop never ends, neither by a zero word
  nor by an error, for any number of turns: the step never completes and the run has no end (43_trap.md R140, R145, R147,
  70_reset_and_hazards.md R194 "a loop ... has no end"). Safe: no state follows on the hardware either (assumption 12). -/
  | unendingString
deriving DecidableEq, Repr

/-- Why an instruction has no meaning. -/
inductive Refusal where
  /-- Raised by `exec` for an instruction not modelled yet; no arm does so. Safe. -/
  | notModelled (mnemonic : String)
deriving DecidableEq, Repr

/-- The host's streams when nothing is known of them and nothing goes wrong (assumption 9): the input is at its end, no poll
finds a key, every write and flush succeeds, nothing has been written. -/
def Console.quiet : Console where
  input := ⟨[], some .endOfInput, 0⟩
  polls := ⟨[], some .noKey, 0⟩
  writes := ⟨[], some .ok, 0⟩
  flushes := ⟨[], some .ok, 0⟩
  buffer := []
  delivered := []

/-- The host's streams at creation (10_state.md R35): the input unread, the output buffer empty and nothing delivered. -/
def Console.atCreation (c : Console) : Console := { c with buffer := [], delivered := [] }

/-- The state at creation (10_state.md R35): memory zero, registers at `GPR_RESET`, pc at `PC_START`, cond Z, Running, no
error, the output buffer empty whatever host supplies the streams. -/
def State.create (cfg : Config) (con : Console) : State where
  gpr := cfg.gprReset
  pc := cfg.pcStart
  cond := .z
  mem := []
  run := .running
  err := none
  con := con.atCreation
  cfg := cfg

/-- The machine right after reset, with the parameters' defaults (00_scope.md R8, 10_state.md R35). -/
def State.reset : State := State.create Config.default Console.quiet

end Sys2Proof.Machine
end

