-- ==== Sys2Proof/Machine/Ops.lean ====
section
/-! DEFINITION. The named operations on the state: registers (00_scope.md R12), raising an error (R15, 60_exceptions.md
R175), the host's primitives (R14), the memory controller (R13, 20_memory.md R54, R55) and the fetch
(70_reset_and_hazards.md R190). -/

namespace Sys2Proof.Machine

/-! ### Registers -/

/-- `x[i]` (R12). -/
def State.reg (s : State) (i : Reg) : Word := s.gpr.get i

/-- `x[i] <- v` (R12). -/
def State.setReg (s : State) (i : Reg) (v : Word) : State := { s with gpr := s.gpr.set i.val v i.isLt }

/-- `pc <- target` (R12). -/
def State.setPc (s : State) (target : Word) : State := { s with pc := target }

/-- `cond <- c` (R12). -/
def State.setCond (s : State) (c : Cond) : State := { s with cond := c }

/-- Memory replaced. -/
def State.setMem (s : State) (m : Memory) : State := { s with mem := m }

/-- The host's streams replaced. -/
def State.setCon (s : State) (c : Console) : State := { s with con := c }

/-- `run <- Halted` (43_trap.md R148, 70_reset_and_hazards.md R192). -/
def State.halt (s : State) : State := { s with run := .halted }

/-- `x[7] <- pc`: "save PC into register 7 (link register)" (10_state.md R22); no flag is derived (R29). -/
def State.saveLink (s : State) : State := s.setReg Reg.link s.pc

/-- The 16-bit code of the condition-flag slot (10_state.md R28). -/
def Cond.code : Cond → Word
  | .n => 0x0004
  | .z => 0x0002
  | .p => 0x0001

/-- The register file as ten slots: R0..R7, then PC, then COND (10_state.md R20, R24, R27). -/
def State.slot (s : State) (i : Fin 10) : Word :=
  if h : i.val < 8 then s.reg ⟨i.val, h⟩ else if i.val = 8 then s.pc else s.cond.code

/-! ### Effects and errors -/

/-- What a piece of an instruction's pseudocode comes to: it goes on with a value, an error has been raised and recorded,
or it never completes. -/
inductive Effect (α : Type) where
  /-- Go on with a value in a state. -/
  | ok (v : α) (s : State)
  /-- An error was raised: the state it left, with the error recorded, ends the instruction (60_exceptions.md R176). -/
  | raised (s : State)
  /-- The instruction never completes. -/
  | stuck (f : Fault)

/-- Do one thing and then the next; an error raised by the first is final (60_exceptions.md R176, R177). -/
def Effect.andThen {α β : Type} (e : Effect α) (k : α → State → Effect β) : Effect β :=
  match e with
  | .ok v s => k v s
  | .raised s => .raised s
  | .stuck f => .stuck f

/-- The outcome of an instruction: raising an error is a next state too, the final state of an errored run (assumption 1). -/
def Effect.outcome (e : Effect Unit) : Host.Outcome State Fault Refusal :=
  match e with
  | .ok _ s => .next s
  | .raised s => .next s
  | .stuck f => .fault f

/-- TAKING AN EXCEPTION: the error is recorded in `err`, and nothing else changes. There is no handler address, no saved
state, no change of mode, and no return from it (60_exceptions.md R175, R178, R179). -/
def State.recordErr (s : State) (e : Err) : State := { s with err := some e }

/-- `raise e` (00_scope.md R15). -/
def raise {α : Type} (e : Err) (s : State) : Effect α := .raised (s.recordErr e)

/-! ### The host's primitives -/

/-- The next answer of a feed and the feed after it; `free` gives the values nothing is known about. -/
def Feed.take {α : Type} (free : Nat → α) (f : Feed α) : α × Feed α :=
  match f.known with
  | x :: xs => (x, { f with known := xs })
  | [] =>
    match f.after with
    | some x => (x, f)
    | none => (free f.drawn, { f with drawn := f.drawn + 1 })

/-- What `PollKey()` returns (00_scope.md R14). -/
inductive KeyPoll where
  | none
  | some (b : Byte)
  | failed
deriving DecidableEq, Repr

/-- The next item of the input stream, and the streams with it taken. -/
def Console.takeInput (c : Console) : InputItem × Console :=
  ((c.input.take Config.freeInput).1, { c with input := (c.input.take Config.freeInput).2 })

/-- The next poll's availability, and the streams with it taken. -/
def Console.takePoll (c : Console) : PollAnswer × Console :=
  ((c.polls.take Config.freePoll).1, { c with polls := (c.polls.take Config.freePoll).2 })

/-- `PollKey()`: never blocks; when a character is available it is the next byte of the one input stream, which it consumes
(00_scope.md R14, decision D26). A host that announces a key while its stream has no byte to give has none (assumption 13). -/
def Console.pollKey (c : Console) : KeyPoll × Console :=
  match c.takePoll.1 with
  | .noKey => (.none, c.takePoll.2)
  | .failure => (.failed, c.takePoll.2)
  | .keyReady =>
    match c.takePoll.2.takeInput.1 with
    | .byte b => (.some b, c.takePoll.2.takeInput.2)
    | .endOfInput => (.none, c.takePoll.2)
    | .failure => (.none, c.takePoll.2)
    | .silence => (.none, c.takePoll.2)

/-- `GetChar()`: blocks until the stream gives a byte, its end or a failure (00_scope.md R14); the end of the input is an
I/O failure (decision D17), and a host that never answers leaves the step waiting (70_reset_and_hazards.md R193). -/
def getChar (s : State) : Effect Byte :=
  match s.con.takeInput.1 with
  | .byte b => .ok b (s.setCon s.con.takeInput.2)
  | .endOfInput => raise .ioError (s.setCon s.con.takeInput.2)
  | .failure => raise .ioError (s.setCon s.con.takeInput.2)
  | .silence => .stuck .waitingForInput

/-- The streams with the next write's answer taken. -/
def Console.takeWrite (c : Console) : OutputAnswer × Console :=
  ((c.writes.take Config.freeWrite).1, { c with writes := (c.writes.take Config.freeWrite).2 })

/-- The streams with the next flush's answer taken. -/
def Console.takeFlush (c : Console) : OutputAnswer × Console :=
  ((c.flushes.take Config.freeFlush).1, { c with flushes := (c.flushes.take Config.freeFlush).2 })

/-- A byte appended to the output buffer. -/
def Console.append (c : Console) (b : Byte) : Console := { c with buffer := c.buffer ++ [b] }

/-- The output buffer delivered. -/
def Console.deliver (c : Console) : Console := { c with delivered := c.delivered ++ c.buffer, buffer := [] }

/-- `PutChar(b)`: the byte is appended to the output buffer, or the write fails with an I/O error and it is not
(00_scope.md R14, 60_exceptions.md R173). -/
def putChar (b : Byte) (s : State) : Effect Unit :=
  match s.con.takeWrite.1 with
  | .ok => .ok () (s.setCon (s.con.takeWrite.2.append b))
  | .failure => raise .ioError (s.setCon s.con.takeWrite.2)

/-- `Flush()`: the buffer is delivered, or the flush fails with an I/O error and the buffer stays (00_scope.md R14,
60_exceptions.md R173, assumption 14). -/
def flush (s : State) : Effect Unit :=
  match s.con.takeFlush.1 with
  | .ok => .ok () (s.setCon s.con.takeFlush.2.deliver)
  | .failure => raise .ioError (s.setCon s.con.takeFlush.2)

/-- `for b in bs: PutChar(b)` (43_trap.md R146, R148). -/
def putBytes : List Byte → State → Effect Unit
  | [], s => .ok () s
  | b :: bs, s => (putChar b s).andThen fun _ s1 => putBytes bs s1

/-- "the byte sequence written to the output stream" (70_reset_and_hazards.md R194): delivered, then still buffered. -/
def State.written (s : State) : List Byte := s.con.delivered ++ s.con.buffer

/-! ### The memory controller -/

/-- `M[a]`: the stored cell, with no side effect (00_scope.md R13). -/
def State.cell (s : State) (a : Word) : Word := s.mem.read a.toNat

/-- `MemWrite(a, 1, v)`: unconditional, with no side effect at any address (20_memory.md R55). -/
def State.memWrite (s : State) (a v : Word) : State := s.setMem (s.mem.write a.toNat v)

/-- `zext_8(b)`: the byte as a word, its high bits zero (00_scope.md R11). -/
def zext8 (b : Byte) : Word := b.setWidth 16

/-- What a poll leaves in the device cells (20_memory.md R54): the status, and the data only when a character came. -/
def State.refreshKeyboard (s : State) : KeyPoll → State
  | .some b => (s.memWrite s.cfg.kbsrAddr s.cfg.kbsrReady).memWrite s.cfg.kbdrAddr (zext8 b)
  | .none => s.memWrite s.cfg.kbsrAddr 0
  | .failed => s

/-- The poll of the keyboard that a read of `KBSR_ADDR` makes (20_memory.md R54); a failed poll raises IoError and leaves
both device cells (60_exceptions.md R176). -/
def pollKeyboard (s : State) : Effect Unit :=
  match s.con.pollKey.1 with
  | .failed => raise .ioError (s.setCon s.con.pollKey.2)
  | .none => .ok () ((s.setCon s.con.pollKey.2).refreshKeyboard .none)
  | .some b => .ok () ((s.setCon s.con.pollKey.2).refreshKeyboard (.some b))

/-- `MemRead(a, 1)`, the only way the core reads memory: a read of `KBSR_ADDR` polls first (20_memory.md R54, R56). -/
def memRead (a : Word) (s : State) : Effect Word :=
  if a = s.cfg.kbsrAddr then (pollKeyboard s).andThen fun _ s1 => .ok (s1.cell a) s1
  else .ok (s.cell a) s

/-- The fetch: read memory at `pc`, then increment `pc` by 1, wrapping (70_reset_and_hazards.md R190, 10_state.md R24). -/
def fetch (s : State) : Effect Word :=
  (memRead s.pc s).andThen fun w s1 => .ok w (s1.setPc (s1.pc + 1))

end Sys2Proof.Machine
end

