-- ==== Sys2Proof/Machine/Operands.lean ====
section
/-! DEFINITION. Operand forms: sign extension (00_scope.md R11), the effective addresses (42_loadstore.md R137), the
branch targets (30_encoding.md R84, 41_control.md R125), the branch condition (41_control.md R120) and the two bytes of a
word (20_memory.md R52). -/

namespace Sys2Proof.Machine

/-- `sext_N(v)`: "a field's top bit set means OR the value with an all-ones mask shifted left by the field width" (R11). -/
def sext {n : Nat} (v : BitVec n) : Word :=
  if v.msb then v.setWidth 16 ||| (0xFFFF#16 <<< n) else v.setWidth 16

/-- PC-relative address `pc + sext_9(off)`, modulo 65536 (42_loadstore.md R137); `pc` is the incremented one (10_state.md R24). -/
def pcRel9 (s : State) (off : BitVec 9) : Word := s.pc + sext off

/-- The long-form target `pc + sext_11(off)`, modulo 65536 (30_encoding.md R84). -/
def pcRel11 (s : State) (off : BitVec 11) : Word := s.pc + sext off

/-- Base + offset address `x[BaseR] + sext_6(off)`, modulo 65536 (42_loadstore.md R137). -/
def baseOff (s : State) (base : Reg) (off : BitVec 6) : Word := s.reg base + sext off

/-- Whether a branch with mask n, z, p is taken on a flag (41_control.md R120, decision D4). -/
def branchTaken (n z p : Bool) : Cond → Bool
  | .n => n
  | .z => z
  | .p => p

/-- `w[7:0]` (20_memory.md R52). -/
def lowByte (w : Word) : Byte := w.extractLsb' 0 8

/-- `w[15:8]` (20_memory.md R52). -/
def highByte (w : Word) : Byte := w.extractLsb' 8 8

end Sys2Proof.Machine
end

