-- ==== Sys2Proof/Machine/Flags.lean ====
section
/-! DEFINITION. The flag derivation, the only flag computation there is (40_operate.md R110), and the register write it
follows (10_state.md R29). -/

namespace Sys2Proof.Machine

/-- "flag = ZERO if the written value is 0; else NEGATIVE if its high bit is set; else POSITIVE" (R110). -/
def condOf (v : Word) : Cond :=
  if v = 0 then .z else if v.msb then .n else .p

/-- `setcc(v)` (R110). -/
def State.setcc (s : State) (v : Word) : State := s.setCond (condOf v)

/-- `x[DR] <- v; setcc(v)`, the end of every flag-setting instruction (10_state.md R29). -/
def State.writeResult (s : State) (dr : Reg) (v : Word) : State := (s.setReg dr v).setcc v

end Sys2Proof.Machine
end

