-- ==== Sys2Proof/Machine/Control.lean ====
section
/-! DEFINITION. Control transfer (41_control.md). Every meaning runs after the fetch, so `pc` is already incremented. -/

namespace Sys2Proof.Machine

/-- BR: taken when the mask bit of the flag that `cond` holds is set (R120). -/
def execBr (n z p : Bool) (off : BitVec 9) (s : State) : Host.Outcome State Fault Refusal :=
  .next (if branchTaken n z p s.cond then s.setPc (pcRel9 s off) else s)

/-- JMP, and RET when the base is R7 (R121). -/
def execJmp (base : Reg) (s : State) : Host.Outcome State Fault Refusal :=
  .next (s.setPc (s.reg base))

/-- JSR: the return address into R7, then the jump (R123). -/
def execJsr (off : BitVec 11) (s : State) : Host.Outcome State Fault Refusal :=
  .next (s.saveLink.setPc (pcRel11 s off))

/-- JSRR: R7 is written first and BaseR read after it, so `JSRR R7` goes on at the next instruction (R124, decision D12). -/
def execJsrr (base : Reg) (s : State) : Host.Outcome State Fault Refusal :=
  .next (s.saveLink.setPc (s.saveLink.reg base))

end Sys2Proof.Machine
end

