-- ==== Sys2Proof/Machine/LoadStore.lean ====
section
/-! DEFINITION. Loads, stores and address computation (42_loadstore.md). Every read goes through `memRead` and may poll the
keyboard; every write goes through `memWrite`. -/

namespace Sys2Proof.Machine

/-- `v <- MemRead(a, 1); x[DR] <- v; setcc(v)` (R130, R132). -/
def loadInto (dr : Reg) (a : Word) (s : State) : Effect Unit :=
  (memRead a s).andThen fun v s1 => .ok () (s1.writeResult dr v)

/-- LD (R130). -/
def execLd (dr : Reg) (off : BitVec 9) (s : State) : Host.Outcome State Fault Refusal :=
  (loadInto dr (pcRel9 s off) s).outcome

/-- LDI: the pointer read, then the data read, each of which polls at `KBSR_ADDR` (R131). -/
def execLdi (dr : Reg) (off : BitVec 9) (s : State) : Host.Outcome State Fault Refusal :=
  ((memRead (pcRel9 s off) s).andThen fun p s1 => loadInto dr p s1).outcome

/-- LDR: the address uses the old value of BaseR (R132). -/
def execLdr (dr base : Reg) (off : BitVec 6) (s : State) : Host.Outcome State Fault Refusal :=
  (loadInto dr (baseOff s base off) s).outcome

/-- LEA: an address computation only; it never reads memory and never polls (R133). -/
def execLea (dr : Reg) (off : BitVec 9) (s : State) : Host.Outcome State Fault Refusal :=
  .next (s.writeResult dr (pcRel9 s off))

/-- ST (R134). -/
def execSt (sr : Reg) (off : BitVec 9) (s : State) : Host.Outcome State Fault Refusal :=
  .next (s.memWrite (pcRel9 s off) (s.reg sr))

/-- STI: the pointer read may poll, the store never does (R135). -/
def execSti (sr : Reg) (off : BitVec 9) (s : State) : Host.Outcome State Fault Refusal :=
  ((memRead (pcRel9 s off) s).andThen fun p s1 => .ok () (s1.memWrite p (s1.reg sr))).outcome

/-- STR (R136). -/
def execStr (sr base : Reg) (off : BitVec 6) (s : State) : Host.Outcome State Fault Refusal :=
  .next (s.memWrite (baseOff s base off) (s.reg sr))

end Sys2Proof.Machine
end

