-- ==== Sys2Proof/Machine/Reserved.lean ====
section
/-! DEFINITION. The unimplemented opcodes (44_reserved.md): always an error, never a meaning of their own (R162). -/

namespace Sys2Proof.Machine

/-- RTI raises InvalidOpcode(8) and changes nothing else (R160, 60_exceptions.md R176). -/
def execRti (s : State) : Host.Outcome State Fault Refusal :=
  (raise (.invalidOpcode 8) s).outcome

/-- RES raises InvalidOpcode(13) and changes nothing else (R161, 60_exceptions.md R176). -/
def execRes (s : State) : Host.Outcome State Fault Refusal :=
  (raise (.invalidOpcode 13) s).outcome

end Sys2Proof.Machine
end

