-- ==== Sys2Proof/Machine/Trap.lean ====
section
/-! DEFINITION. TRAP and its six routines (43_trap.md). A routine is built into the core and completes within the step of its
TRAP (R140); R7 is written before it runs, for every vector (R141). -/

namespace Sys2Proof.Machine

/-- One character for R0: `x[0] <- zext_8(r); setcc(x[0])` (R143, R146). -/
def storeChar (b : Byte) (s : State) : State := s.writeResult 0 (zext8 b)

/-- One word of a string, read through the polling read unless `TRAP_READ_POLLS` is false (R145, decision D14). -/
def stringWord (a : Word) (s : State) : Effect Word :=
  if s.cfg.trapReadPolls then memRead a s else .ok (s.cell a) s

/-- The address after a string's word at `a` (R145, decision D15). -/
def nextStringAddr (a : Word) (s : State) : Effect Word :=
  if a = Word.last then
    match s.cfg.stringOverrun with
    | .fault => raise (.unspecified .stringOverrun) s
    | .wrap => .ok 0 s
  else .ok (a + 1) s

/-- One turn of the loop of PUTS and PUTSP (R145, R147), `writeWord` writing the characters of one word: none when the word
read ended the string, else the address of the next word. -/
def stringTurn (writeWord : Word → State → Effect Unit) (a : Word) (s : State) : Effect (Option Word) :=
  (stringWord a s).andThen fun w s1 =>
    if w = 0 then .ok none s1
    else (writeWord w s1).andThen fun _ s2 => (nextStringAddr a s2).andThen fun b s3 => .ok (some b) s3

/-- At most `n` turns: none when the string ended in them, else the address at which it goes on. -/
def stringTurns (writeWord : Word → State → Effect Unit) : Nat → Word → State → Effect (Option Word)
  | 0, a, s => .ok (some a) s
  | n + 1, a, s =>
    (stringTurn writeWord a s).andThen fun next s1 =>
      match next with
      | none => .ok none s1
      | some b => stringTurns writeWord n b s1

/-- The loop without a bound: what it ends in, and none when it never ends (assumption 12). -/
def stringLoop (writeWord : Word → State → Effect Unit) (a : Word) (s : State) : Option (Effect Unit) :=
  match stringTurn writeWord a s with
  | .ok none s1 => some (.ok () s1)
  | .ok (some b) s1 => stringLoop writeWord b s1
  | .raised s1 => some (.raised s1)
  | .stuck f => some (.stuck f)
partial_fixpoint

/-- The whole loop of PUTS and PUTSP. The first 65536 turns, which are all there are under `STRING_OVERRUN = fault`, are taken
by `stringTurns`, which can be evaluated; a string that wraps goes on for as long as it takes. Only a loop that never ends has
no state to go to: "a loop ... has no end" (70_reset_and_hazards.md R194). -/
def putString (writeWord : Word → State → Effect Unit) (a : Word) (s : State) : Effect Unit :=
  (stringTurns writeWord 65536 a s).andThen fun next s1 =>
    match next with
    | none => .ok () s1
    | some b =>
      match stringLoop writeWord b s1 with
      | some e => e
      | none => .stuck .unendingString

/-- PUTS writes the low byte of each word (R145, decision D16). -/
def putsWord (w : Word) (s : State) : Effect Unit := putChar (lowByte w) s

/-- PUTSP writes the low byte of each word, "even when it is 0x00", then the high byte if nonzero (R147). -/
def putspWord (w : Word) (s : State) : Effect Unit :=
  (putChar (lowByte w) s).andThen fun _ s1 => if highByte w = 0 then .ok () s1 else putChar (highByte w) s1

/-- TRAP GETC (R143): no echo and no flush. -/
def execTrapGetc (s : State) : Host.Outcome State Fault Refusal :=
  ((getChar s.saveLink).andThen fun b s1 => .ok () (storeChar b s1)).outcome

/-- TRAP OUT (R144). -/
def execTrapOut (s : State) : Host.Outcome State Fault Refusal :=
  ((putChar (lowByte (s.saveLink.reg 0)) s.saveLink).andThen fun _ s1 => flush s1).outcome

/-- TRAP PUTS (R145). -/
def execTrapPuts (s : State) : Host.Outcome State Fault Refusal :=
  ((putString putsWord (s.saveLink.reg 0) s.saveLink).andThen fun _ s1 => flush s1).outcome

/-- TRAP IN (R146): prompt, flush, read, echo, flush, R0 and the flags. -/
def execTrapIn (s : State) : Host.Outcome State Fault Refusal :=
  ((putBytes s.cfg.inPrompt s.saveLink).andThen fun _ s1 =>
    (flush s1).andThen fun _ s2 =>
      (getChar s2).andThen fun b s3 =>
        (putChar b s3).andThen fun _ s4 =>
          (flush s4).andThen fun _ s5 => .ok () (storeChar b s5)).outcome

/-- TRAP PUTSP (R147). -/
def execTrapPutsp (s : State) : Host.Outcome State Fault Refusal :=
  ((putString putspWord (s.saveLink.reg 0) s.saveLink).andThen fun _ s1 => flush s1).outcome

/-- TRAP HALT (R148): the notice, a flush, and Halted. -/
def execTrapHalt (s : State) : Host.Outcome State Fault Refusal :=
  ((putBytes s.cfg.haltText s.saveLink).andThen fun _ s1 => (flush s1).andThen fun _ s2 => .ok () s2.halt).outcome

/-- TRAP with any other vector (R149): R7 has been written, then InvalidOpcode carries the vector. -/
def execTrapUnknown (vec : Byte) (s : State) : Host.Outcome State Fault Refusal :=
  (raise (.invalidOpcode vec) s.saveLink).outcome

end Sys2Proof.Machine
end

