-- ==== Sys2Proof/Machine/Step.lean ====
section
/-! DEFINITION. One step (70_reset_and_hazards.md R190), and the placing of one instruction where the next step fetches it. -/

namespace Sys2Proof.Machine

/-- `Step()` of R190: only while Running and with no error; fetch (which increments `pc`), decode, execute. The decoder's
verdict on RTI and RES is raised by their meanings, after the fetch as R190 has it. -/
def step (s : State) : Host.Outcome State Fault Refusal :=
  match s.err with
  | some e => .fault (.runErrored e)
  | none =>
    match s.run with
    | .halted => .fault .runHalted
    | .running =>
      match fetch s with
      | .ok w s1 => exec (decode w) s1
      | .raised s1 => .next s1
      | .stuck f => .fault f

/-- The state with an instruction's word stored where the next step fetches it, and able to take that step (Running, no
error). It stands for what the loader does before the run (20_memory.md R60, assumption 24). -/
def State.withFetchWord (s : State) (_nbits w : Nat) : State :=
  { s with mem := s.mem.write s.pc.toNat (BitVec.ofNat 16 w), run := .running, err := none }

end Sys2Proof.Machine
end

