-- ==== Sys2Proof/Machine/Loader.lean ====
section
/-! DEFINITION. The program-image loader and the boot order (20_memory.md R60 to R62, 70_reset_and_hazards.md R195): they run
before the first fetch and are no instructions. -/

namespace Sys2Proof.Machine

/-- The big-endian words of a byte string; a last odd byte is dropped (20_memory.md R61). -/
def wordsOfBytes : List Byte → List Word
  | hi :: lo :: rest => (hi ++ lo) :: wordsOfBytes rest
  | [_] => []
  | [] => []

/-- An image's origin and words; none when the stream is shorter than its 2-byte header (20_memory.md R61). -/
def parseImage : List Byte → Option (Word × List Word)
  | hi :: lo :: rest => some (hi ++ lo, wordsOfBytes rest)
  | [_] => none
  | [] => none

/-- `load_image(origin, words)`: the words at consecutive addresses, or InvalidProgramFormat with none of them written when
they do not fit (20_memory.md R60, decision D24). It never polls. -/
def loadWords (origin : Word) (words : List Word) (s : State) : State :=
  if origin.toNat + words.length ≤ 65536 then s.setMem (s.mem.writeAll origin.toNat words)
  else s.recordErr .invalidProgramFormat

/-- One image's byte stream loaded (20_memory.md R61). -/
def loadImage (image : List Byte) (s : State) : State :=
  match parseImage image with
  | some (origin, words) => loadWords origin words s
  | none => s.recordErr .invalidProgramFormat

/-- The images in the order given; the first bad one ends the run before its first fetch (20_memory.md R62,
70_reset_and_hazards.md R195). -/
def loadImages : List (List Byte) → State → State
  | [], s => s
  | image :: images, s =>
    match s.err with
    | some _ => s
    | none => loadImages images (loadImage image s)

/-- Boot (70_reset_and_hazards.md R195): create the state, load each image, let the host enter raw terminal mode, whose
failure is an IoError before the first fetch (60_exceptions.md R173). The next step fetches at `PC_START`. -/
def boot (cfg : Config) (con : Console) (images : List (List Byte)) (rawMode : OutputAnswer) : State :=
  match (loadImages images (State.create cfg con)).err, rawMode with
  | none, .failure => (loadImages images (State.create cfg con)).recordErr .ioError
  | none, .ok => loadImages images (State.create cfg con)
  | some _, .ok => loadImages images (State.create cfg con)
  | some _, .failure => loadImages images (State.create cfg con)

end Sys2Proof.Machine
end

