-- ==== Sys2Proof/Safety.lean ====
section
/-! DEFINITION. What counts as a good state and as a safe run: the status of a run (70_reset_and_hazards.md R191), the
invariant every step keeps, reachability, the comparisons of two states that statements are written in, and what the spec's
tables say of each instruction (which registers, which cells, which errors). -/

namespace Sys2Proof.Machine

/-- The three ways a run can stand (70_reset_and_hazards.md R191). -/
inductive RunStatus where
  | running
  | halted
  | errored (e : Err)
deriving DecidableEq, Repr

/-- "a run is in exactly one of: Running, Halted, Errored(kind, code)" (70_reset_and_hazards.md R191). -/
def State.status (s : State) : RunStatus :=
  match s.err with
  | some e => .errored e
  | none =>
    match s.run with
    | .halted => .halted
    | .running => .running

/-- The invariant of the machine: memory is in its canonical form, the parameters meet the constraints of 00_scope.md R8,
and a run that ended by an error was not Halted (60_exceptions.md R175). -/
structure State.Inv (s : State) : Prop where
  memory : s.mem.wf = true
  parameters : s.cfg.wf = true
  oneEnd : s.err = none ∨ s.run = .running

/-- `t` can be reached from `s` by steps. -/
inductive Reaches (s : State) : State → Prop where
  | refl : Reaches s s
  | step {t u : State} (h : Reaches s t) (hu : Machine.step t = .next u) : Reaches s u

/-- A safe run from `s`: no state it reaches carries an error. -/
def State.SafeRun (s : State) : Prop := ∀ t, Reaches s t → t.err = none

/-- Every general register but those named keeps its value. -/
def SameRegsBut (changed : List Reg) (s t : State) : Prop := ∀ r : Reg, r ∉ changed → t.reg r = s.reg r

/-- Every word of memory but those named reads as before. -/
def SameCellsBut (changed : List Word) (s t : State) : Prop := ∀ a : Word, a ∉ changed → t.cell a = s.cell a

/-- Neither the run state nor the terminal error nor the parameters changed. -/
def SameEngine (s t : State) : Prop := t.run = s.run ∧ t.err = s.err ∧ t.cfg = s.cfg

/-- The frame of an instruction: every register, every cell and the engine are as before, but for the registers and cells
named. The pc, the flag and the streams are said apart. -/
def KeepsAllBut (regs : List Reg) (cells : List Word) (s t : State) : Prop :=
  SameRegsBut regs s t ∧ SameCellsBut cells s t ∧ SameEngine s t

/-- The two cells a poll of the keyboard may write (20_memory.md R54). -/
def State.deviceCells (s : State) : List Word := [s.cfg.kbsrAddr, s.cfg.kbdrAddr]

/-- The cells a read of an address may write: the device cells when it polls, none otherwise (20_memory.md R54). -/
def State.pollCells (s : State) (a : Word) : List Word := if a = s.cfg.kbsrAddr then s.deviceCells else []

end Sys2Proof.Machine

namespace Sys2Proof

open Machine

/-- The register whose new value an instruction derives the flag from (10_state.md R29). -/
def Instr.flagDest : Instr → Option Reg
  | .br _ _ _ _ => none
  | .addReg dr _ _ => some dr
  | .addImm dr _ _ => some dr
  | .ld dr _ => some dr
  | .st _ _ => none
  | .jsrr _ => none
  | .jsr _ => none
  | .andReg dr _ _ => some dr
  | .andImm dr _ _ => some dr
  | .ldr dr _ _ => some dr
  | .str _ _ _ => none
  | .rti => none
  | .notReg dr _ => some dr
  | .ldi dr _ => some dr
  | .sti _ _ => none
  | .jmp _ => none
  | .res => none
  | .lea dr _ => some dr
  | .trapGetc => some 0
  | .trapOut => none
  | .trapPuts => none
  | .trapIn => some 0
  | .trapPutsp => none
  | .trapHalt => none
  | .trapUnknown _ => none

/-- The instructions that save `pc` in R7: JSR, JSRR and TRAP with every vector (10_state.md R22). -/
def Instr.links : Instr → Bool
  | .br _ _ _ _ => false
  | .addReg _ _ _ => false
  | .addImm _ _ _ => false
  | .ld _ _ => false
  | .st _ _ => false
  | .jsrr _ => true
  | .jsr _ => true
  | .andReg _ _ _ => false
  | .andImm _ _ _ => false
  | .ldr _ _ _ => false
  | .str _ _ _ => false
  | .rti => false
  | .notReg _ _ => false
  | .ldi _ _ => false
  | .sti _ _ => false
  | .jmp _ => false
  | .res => false
  | .lea _ _ => false
  | .trapGetc => true
  | .trapOut => true
  | .trapPuts => true
  | .trapIn => true
  | .trapPutsp => true
  | .trapHalt => true
  | .trapUnknown _ => true

/-- The registers an instruction may write (the table of 10_state.md R21). -/
def Instr.writesRegs (i : Instr) : List Reg :=
  (if i.links then [Reg.link] else []) ++ i.flagDest.toList

/-- The instructions that may change `pc` after the fetch (10_state.md R25). -/
def Instr.jumps : Instr → Bool
  | .br _ _ _ _ => true
  | .jsrr _ => true
  | .jsr _ => true
  | .jmp _ => true
  | .addReg _ _ _ => false
  | .addImm _ _ _ => false
  | .ld _ _ => false
  | .st _ _ => false
  | .andReg _ _ _ => false
  | .andImm _ _ _ => false
  | .ldr _ _ _ => false
  | .str _ _ _ => false
  | .rti => false
  | .notReg _ _ => false
  | .ldi _ _ => false
  | .sti _ _ => false
  | .res => false
  | .lea _ _ => false
  | .trapGetc => false
  | .trapOut => false
  | .trapPuts => false
  | .trapIn => false
  | .trapPutsp => false
  | .trapHalt => false
  | .trapUnknown _ => false

/-- How an instruction touches the world beyond the registers (the table of 20_memory.md R51, and 60_exceptions.md R183). -/
inductive Reach where
  /-- Neither reads data memory nor stores nor does I/O. -/
  | registersOnly
  /-- Stores, and reads nothing. -/
  | stores
  /-- Reads data memory, and may poll. -/
  | reads
  /-- Reads a pointer, then stores. -/
  | readsThenStores
  /-- Takes a character from the host and writes nothing to it; no memory access. -/
  | takesInput
  /-- Writes characters to the host and takes none; no memory access. -/
  | writesOutput
  /-- Writes characters to the host and takes one; no memory access. -/
  | takesAndWrites
  /-- Reads data memory, and may poll, and writes characters to the host. -/
  | readsAndWrites
deriving DecidableEq, Repr

/-- The reach of each instruction (20_memory.md R51; 60_exceptions.md R183: "output is possible only through OUT, PUTS, PUTSP,
IN and HALT"). -/
def Instr.reach : Instr → Reach
  | .br _ _ _ _ => .registersOnly
  | .addReg _ _ _ => .registersOnly
  | .addImm _ _ _ => .registersOnly
  | .ld _ _ => .reads
  | .st _ _ => .stores
  | .jsrr _ => .registersOnly
  | .jsr _ => .registersOnly
  | .andReg _ _ _ => .registersOnly
  | .andImm _ _ _ => .registersOnly
  | .ldr _ _ _ => .reads
  | .str _ _ _ => .stores
  | .rti => .registersOnly
  | .notReg _ _ => .registersOnly
  | .ldi _ _ => .reads
  | .sti _ _ => .readsThenStores
  | .jmp _ => .registersOnly
  | .res => .registersOnly
  | .lea _ _ => .registersOnly
  | .trapGetc => .takesInput
  | .trapOut => .writesOutput
  | .trapPuts => .readsAndWrites
  | .trapIn => .takesAndWrites
  | .trapPutsp => .readsAndWrites
  | .trapHalt => .writesOutput
  | .trapUnknown _ => .registersOnly

/-- The reaches with no access to data memory and no poll (the table of 20_memory.md R51). -/
def Reach.noMemory : Reach → Bool
  | .registersOnly => true
  | .stores => false
  | .reads => false
  | .readsThenStores => false
  | .takesInput => true
  | .writesOutput => true
  | .takesAndWrites => true
  | .readsAndWrites => false

/-- The reaches with output (60_exceptions.md R183). -/
def Reach.output : Reach → Bool
  | .registersOnly => false
  | .stores => false
  | .reads => false
  | .readsThenStores => false
  | .takesInput => false
  | .writesOutput => true
  | .takesAndWrites => true
  | .readsAndWrites => true

/-- Which errors an instruction may raise once it is fetched and decoded (60_exceptions.md R171 to R174). -/
def Instr.mayRaise : Instr → Err → Prop
  | .br _ _ _ _, _ => False
  | .addReg _ _ _, _ => False
  | .addImm _ _ _, _ => False
  | .ld _ _, e => e = .ioError
  | .st _ _, _ => False
  | .jsrr _, _ => False
  | .jsr _, _ => False
  | .andReg _ _ _, _ => False
  | .andImm _ _ _, _ => False
  | .ldr _ _ _, e => e = .ioError
  | .str _ _ _, _ => False
  | .rti, e => e = .invalidOpcode 8
  | .notReg _ _, _ => False
  | .ldi _ _, e => e = .ioError
  | .sti _ _, e => e = .ioError
  | .jmp _, _ => False
  | .res, e => e = .invalidOpcode 13
  | .lea _ _, _ => False
  | .trapGetc, e => e = .ioError
  | .trapOut, e => e = .ioError
  | .trapPuts, e => e = .ioError ∨ e = .unspecified .stringOverrun
  | .trapIn, e => e = .ioError
  | .trapPutsp, e => e = .ioError ∨ e = .unspecified .stringOverrun
  | .trapHalt, e => e = .ioError
  | .trapUnknown v, e => e = .invalidOpcode v

end Sys2Proof

namespace Sys2Proof.Machine

/-- Every write and every flush the host is yet to be asked for succeeds. -/
def Console.OutputWorks (c : Console) : Prop :=
  (∀ x ∈ c.writes.known, x = .ok) ∧ c.writes.after = some .ok ∧
    (∀ x ∈ c.flushes.known, x = .ok) ∧ c.flushes.after = some .ok

/-- The words stand in consecutive cells from an address on. -/
def State.HoldsWords (s : State) : Word → List Word → Prop
  | _, [] => True
  | a, w :: ws => s.cell a = w ∧ s.HoldsWords (a + 1) ws

/-- The `n` cells from `a` on exist without passing 0xFFFF, and reading them as a string polls nothing (43_trap.md R145). -/
def State.PlainRange (s : State) (a : Word) (n : Nat) : Prop :=
  a.toNat + n ≤ 65536 ∧
    (s.cfg.trapReadPolls = true → ∀ b : Word, a.toNat ≤ b.toNat → b.toNat < a.toNat + n → b ≠ s.cfg.kbsrAddr)

/-- The characters PUTS writes for a string's words: "one-character-per-word cells" (43_trap.md R145). -/
def putsChars (ws : List Word) : List Byte := ws.map lowByte

/-- The characters PUTSP writes for a string's words: "low byte first, then high byte if nonzero" (43_trap.md R147). -/
def putspChars (ws : List Word) : List Byte :=
  ws.flatMap fun w => if highByte w = 0 then [lowByte w] else [lowByte w, highByte w]

end Sys2Proof.Machine
end

