-- ==== Sys2Proof/Certificates/Slice0/Obligations.lean ====
section
/-! DEFINITION. The statements for the provers. Each docstring names the rule of spec/ it comes from; where a statement rests
on one of the spec's own decisions (92_eei_decisions.md) or on an entry of the assumption log, it says so. -/

open Sys2Proof Sys2Proof.Machine

/-! ### Encoding -/

/-- 30_encoding.md R82, R86: the decoder gives back every well-formed instruction from its word, every operand at every value.
The opcode numbers, field positions, mask bits and vectors are the spec's decisions D1, D2, D4 and D5 (log 15); what the encoder
writes in ignored bits is the model's choice (log 22). -/
def Obligations.DecodeGivesBackEncodedInstruction : Prop :=
  ∀ i : Instr, i.wf = true → decode (encode i) = i

/-- 30_encoding.md R86, the decoder's pseudocode said again in arithmetic on the word as a number: which field stands where.
The opcode numbers and field positions are decisions D1 and D2, the vectors D5, the mask bits D4 (log 15); that the ADD and AND
register, NOT, JMP, JSRR and TRAP clauses hold for every value of the ignored bits is D3 (log 16). -/
def Obligations.DecoderReadsFieldsWhereFormatsPutThem : Prop :=
  ∀ (w : Word) (n : Nat), n = w.toNat →
    (n / 4096 = 0 → decode w = .br (n / 2048 % 2 == 1) (n / 1024 % 2 == 1) (n / 512 % 2 == 1) (BitVec.ofNat 9 n)) ∧
    (n / 4096 = 1 → n / 32 % 2 = 0 →
      decode w = .addReg (Fin.ofNat 8 (n / 512)) (Fin.ofNat 8 (n / 64)) (Fin.ofNat 8 n)) ∧
    (n / 4096 = 1 → n / 32 % 2 = 1 →
      decode w = .addImm (Fin.ofNat 8 (n / 512)) (Fin.ofNat 8 (n / 64)) (BitVec.ofNat 5 n)) ∧
    (n / 4096 = 2 → decode w = .ld (Fin.ofNat 8 (n / 512)) (BitVec.ofNat 9 n)) ∧
    (n / 4096 = 3 → decode w = .st (Fin.ofNat 8 (n / 512)) (BitVec.ofNat 9 n)) ∧
    (n / 4096 = 4 → n / 2048 % 2 = 0 → decode w = .jsrr (Fin.ofNat 8 (n / 64))) ∧
    (n / 4096 = 4 → n / 2048 % 2 = 1 → decode w = .jsr (BitVec.ofNat 11 n)) ∧
    (n / 4096 = 5 → n / 32 % 2 = 0 →
      decode w = .andReg (Fin.ofNat 8 (n / 512)) (Fin.ofNat 8 (n / 64)) (Fin.ofNat 8 n)) ∧
    (n / 4096 = 5 → n / 32 % 2 = 1 →
      decode w = .andImm (Fin.ofNat 8 (n / 512)) (Fin.ofNat 8 (n / 64)) (BitVec.ofNat 5 n)) ∧
    (n / 4096 = 6 → decode w = .ldr (Fin.ofNat 8 (n / 512)) (Fin.ofNat 8 (n / 64)) (BitVec.ofNat 6 n)) ∧
    (n / 4096 = 7 → decode w = .str (Fin.ofNat 8 (n / 512)) (Fin.ofNat 8 (n / 64)) (BitVec.ofNat 6 n)) ∧
    (n / 4096 = 8 → decode w = .rti) ∧
    (n / 4096 = 9 → decode w = .notReg (Fin.ofNat 8 (n / 512)) (Fin.ofNat 8 (n / 64))) ∧
    (n / 4096 = 10 → decode w = .ldi (Fin.ofNat 8 (n / 512)) (BitVec.ofNat 9 n)) ∧
    (n / 4096 = 11 → decode w = .sti (Fin.ofNat 8 (n / 512)) (BitVec.ofNat 9 n)) ∧
    (n / 4096 = 12 → decode w = .jmp (Fin.ofNat 8 (n / 64))) ∧
    (n / 4096 = 13 → decode w = .res) ∧
    (n / 4096 = 14 → decode w = .lea (Fin.ofNat 8 (n / 512)) (BitVec.ofNat 9 n)) ∧
    (n / 4096 = 15 → n % 256 = 0x20 → decode w = .trapGetc) ∧
    (n / 4096 = 15 → n % 256 = 0x21 → decode w = .trapOut) ∧
    (n / 4096 = 15 → n % 256 = 0x22 → decode w = .trapPuts) ∧
    (n / 4096 = 15 → n % 256 = 0x23 → decode w = .trapIn) ∧
    (n / 4096 = 15 → n % 256 = 0x24 → decode w = .trapPutsp) ∧
    (n / 4096 = 15 → n % 256 = 0x25 → decode w = .trapHalt) ∧
    (n / 4096 = 15 → n % 256 < 0x20 ∨ 0x25 < n % 256 → decode w = .trapUnknown (BitVec.ofNat 8 n))

/-- opcode_table.json and 30_encoding.md R85: every word decodes to a well-formed instruction, matches that instruction's row,
and matches no other row but the fallback row `TRAP (unknown vector)`. The rows rest on the opcode numbers, field positions and
trap vectors of decisions D1, D2 and D5 (log 15), and on D3 for the words whose ignored bits are set (log 16). -/
def Obligations.DecoderAgreesWithOpcodeTable : Prop :=
  ∀ w : Word, (decode w).wf = true ∧ (decode w).row.matchesWord w = true ∧
    ∀ r ∈ firstRows, r.matchesWord w = true → r = (decode w).row

/-- 30_encoding.md R87 (decision D3, log 16): the ignored bits never change what a word decodes to, and every other bit
does. Which bits the formats use is decisions D1, D2, D4 and D5 (log 15). -/
def Obligations.ExactlyTheIgnoredBitsAreIgnored : Prop :=
  (∀ w x : Word, decode (w ^^^ (x &&& (decode w).ignored)) = decode w) ∧
    (∀ v w : Word, decode v = decode w → (v ^^^ w) &&& ~~~(decode w).ignored = 0)

/-- 95_test_vectors.md, sections 2 to 7: words written out from the spec's encodings, one or more of every format. A sanity
statement; the opcode numbers, field positions, mask bits and trap vectors are decisions D1, D2, D4 and D5 (log 15), and that the
words with ignored bits set (0xC1FF, 0xFF25) decode so is D3 (log 16). -/
def Obligations.WordsOfTheSpecDecodeAsTheSpecSays : Prop :=
  decode 0x05FD = .br false true false 0x1FD ∧ decode 0x14C4 = .addReg 2 3 4 ∧ decode 0x1061 = .addImm 0 1 1 ∧
    decode 0x2202 = .ld 1 2 ∧ decode 0x3604 = .st 3 4 ∧ decode 0x40C0 = .jsrr 3 ∧ decode 0x4805 = .jsr 5 ∧
    decode 0x5283 = .andReg 1 2 3 ∧ decode 0x5070 = .andImm 0 1 0x10 ∧ decode 0x68BB = .ldr 4 2 0x3B ∧
    decode 0x7383 = .str 1 6 3 ∧ decode 0x8FFF = .rti ∧ decode 0x92BF = .notReg 1 2 ∧ decode 0xA001 = .ldi 0 1 ∧
    decode 0xB401 = .sti 2 1 ∧ decode 0xC1FF = .jmp 7 ∧ decode 0xD000 = .res ∧ decode 0xE1FE = .lea 0 0x1FE ∧
    decode 0xF020 = .trapGetc ∧ decode 0xF021 = .trapOut ∧ decode 0xF022 = .trapPuts ∧ decode 0xF023 = .trapIn ∧
    decode 0xF024 = .trapPutsp ∧ decode 0xFF25 = .trapHalt ∧ decode 0xF0FF = .trapUnknown 0xFF

/-! ### Operand forms and flags -/

/-- 00_scope.md R11: `sext_N` returns the 16-bit word with the same two's-complement value, which masks back to the field, and
`zext_8` the value itself. -/
def Obligations.ExtensionKeepsTheFieldsValue : Prop :=
  (∀ (n : Nat) (v : BitVec n), n ≤ 16 → (sext v).toInt = v.toInt ∧ (sext v).setWidth n = v) ∧
    (∀ b : Byte, (zext8 b).toNat = b.toNat)

/-- 42_loadstore.md R137: the effective addresses are the exact sums modulo 65536, whatever the operands; and the long-form
target of 30_encoding.md R84 likewise. -/
def Obligations.EffectiveAddressesWrapModulo65536 : Prop :=
  (∀ (s : State) (off : BitVec 9), (pcRel9 s off).toNat = ((s.pc.toNat : Int) + off.toInt) % 65536) ∧
    (∀ (s : State) (base : Reg) (off : BitVec 6),
      (baseOff s base off).toNat = (((s.reg base).toNat : Int) + off.toInt) % 65536) ∧
    (∀ (s : State) (off : BitVec 11), (pcRel11 s off).toNat = ((s.pc.toNat : Int) + off.toInt) % 65536)

/-- 40_operate.md R110: ZERO if the value is 0, else NEGATIVE if its high bit is set, else POSITIVE; `setcc` writes that flag
and nothing else. -/
def Obligations.FlagIsTheSignOfTheValue : Prop :=
  (∀ v : Word, (condOf v = .z ↔ v.toInt = 0) ∧ (condOf v = .n ↔ v.toInt < 0) ∧ (condOf v = .p ↔ 0 < v.toInt)) ∧
    (∀ v : Word, (condOf v = .z ↔ v = 0) ∧ (condOf v = .n ↔ v ≠ 0 ∧ v.getLsbD 15 = true) ∧
      (condOf v = .p ↔ v ≠ 0 ∧ v.getLsbD 15 = false)) ∧
    (∀ (s : State) (v : Word), (s.setcc v).cond = condOf v ∧ (s.setcc v).pc = s.pc ∧ (s.setcc v).con = s.con ∧
      KeepsAllBut [] [] s (s.setcc v))

/-! ### Memory and the keyboard -/

/-- 20_memory.md R55: a write stores its value, whatever the address, and does nothing else: it neither polls nor touches KBDR;
and a value stored to KBSR is never read back, because every read of it polls, which R55 itself marks as derived. That such a
read answers 0 or `KBSR_READY` is decision D7 (log 19). -/
def Obligations.WriteStoresOneCellAndNothingElse : Prop :=
  (∀ (s : State) (a v : Word), (s.memWrite a v).cell a = v ∧ (s.memWrite a v).pc = s.pc ∧
    (s.memWrite a v).cond = s.cond ∧ (s.memWrite a v).con = s.con ∧ KeepsAllBut [] [a] s (s.memWrite a v)) ∧
  (∀ (s t : State) (v w : Word), s.cfg.wf = true → memRead s.cfg.kbsrAddr (s.memWrite s.cfg.kbsrAddr v) = .ok w t →
    w = 0 ∨ w = s.cfg.kbsrReady)

/-- 20_memory.md R54: what a memory read does. Off the status address it is pure. At the status address it polls: with a
character the status is `KBSR_READY` and the data cell the character, without one the status is 0 and the data cell keeps its
value (90_conflicts.md C4), and a failed poll raises IoError and writes neither cell. The cell values are decisions D7, D8 and
what the failed poll leaves is D25 (logs 18, 19). -/
def Obligations.ReadPollsAtTheStatusAddressOnly : Prop :=
  (∀ (s : State) (a : Word), a ≠ s.cfg.kbsrAddr → memRead a s = .ok (s.cell a) s) ∧
  (∀ (s : State) (b : Byte) (c : Console), s.cfg.kbsrAddr ≠ s.cfg.kbdrAddr → s.con.pollKey = (.some b, c) →
    ∃ t, memRead s.cfg.kbsrAddr s = .ok s.cfg.kbsrReady t ∧ t.cell s.cfg.kbsrAddr = s.cfg.kbsrReady ∧
      t.cell s.cfg.kbdrAddr = zext8 b ∧ t.pc = s.pc ∧ t.cond = s.cond ∧ t.con = c ∧ KeepsAllBut [] s.deviceCells s t) ∧
  (∀ (s : State) (c : Console), s.con.pollKey = (.none, c) →
    ∃ t, memRead s.cfg.kbsrAddr s = .ok 0 t ∧ t.cell s.cfg.kbsrAddr = 0 ∧ t.pc = s.pc ∧ t.cond = s.cond ∧ t.con = c ∧
      KeepsAllBut [] [s.cfg.kbsrAddr] s t) ∧
  (∀ (s : State) (c : Console), s.con.pollKey = (.failed, c) →
    ∃ t, memRead s.cfg.kbsrAddr s = .raised t ∧ t.err = some .ioError ∧ t.pc = s.pc ∧ t.cond = s.cond ∧ t.con = c ∧
      t.run = s.run ∧ t.cfg = s.cfg ∧ SameRegsBut [] s t ∧ SameCellsBut [] s t)

/-- 00_scope.md R14 and 10_state.md R34(c): `PollKey` and `GetChar` take bytes from ONE stream: a byte a poll consumes is not
seen by GetChar, and a poll that answers None, or a GetChar, leaves the rest of the stream. Whether a poll finds a character is
a free answer of the host, decision D26 (log 8); the streams' form is the model's own (logs 8, 13). -/
def Obligations.PollAndGetCharShareOneStream : Prop :=
  ∀ (c : Console) (b : Byte) (more : List InputItem) (after : Option InputItem) (n : Nat) (ps : List PollAnswer)
    (pafter : Option PollAnswer) (m : Nat), c.input = ⟨.byte b :: more, after, n⟩ →
    (c.polls = ⟨.keyReady :: ps, pafter, m⟩ →
      c.pollKey = (.some b, { c with input := ⟨more, after, n⟩, polls := ⟨ps, pafter, m⟩ })) ∧
    (c.polls = ⟨.noKey :: ps, pafter, m⟩ → c.pollKey = (.none, { c with polls := ⟨ps, pafter, m⟩ })) ∧
    (c.polls = ⟨.failure :: ps, pafter, m⟩ → c.pollKey = (.failed, { c with polls := ⟨ps, pafter, m⟩ })) ∧
    (∀ s : State, s.con = c → getChar s = .ok b (s.setCon { c with input := ⟨more, after, n⟩ }))

/-- 95_test_vectors.md S5 (the source's own property) and 20_memory.md R57: two status reads with no new input both return 0; a
read right after a character becomes available returns bit 15 set, with the data register holding the character; a further
read returns 0 again, and the data register still holds the character (90_conflicts.md C4). That the data cell is exactly the byte,
its high bits zero, is decision D8, and what the status cell becomes D7 (log 19); the form of the host's answers is log 8. -/
def Obligations.StatusReadsFollowTheKeyboard : Prop :=
  ∀ (s : State) (b : Byte) (more : List InputItem) (after : Option InputItem) (n : Nat) (ps : List PollAnswer)
    (pafter : Option PollAnswer) (m : Nat), s.cfg.wf = true → s.con.input = ⟨.byte b :: more, after, n⟩ →
    s.con.polls = ⟨.noKey :: .noKey :: .keyReady :: .noKey :: ps, pafter, m⟩ →
    ∃ s1 s2 s3 s4 v, memRead s.cfg.kbsrAddr s = .ok 0 s1 ∧ memRead s.cfg.kbsrAddr s1 = .ok 0 s2 ∧
      memRead s.cfg.kbsrAddr s2 = .ok v s3 ∧ v.getLsbD 15 = true ∧ memRead s.cfg.kbdrAddr s3 = .ok (zext8 b) s3 ∧
      memRead s.cfg.kbsrAddr s3 = .ok 0 s4 ∧ memRead s.cfg.kbdrAddr s4 = .ok (zext8 b) s4

/-- The canonical form of memory (log 3): two memories in it that read alike everywhere are the same data. -/
def Obligations.CanonicalMemoriesThatReadAlikeAreEqual : Prop :=
  ∀ m m' : Memory, m.wf = true → m'.wf = true → (∀ a, a < 65536 → m.read a = m'.read a) → m = m'

/-! ### Reset, loading and boot -/

/-- 10_state.md R35: the state at creation. Memory zero, Running, no error and an empty output buffer are the source's; the
registers, pc and cond are decisions D9, D10, D11 (logs 5, 6, 7). The host supplies the streams as they are; those of
`State.reset` are the model's choice (log 9), and so is the list of delivered bytes, empty too (log 14). -/
def Obligations.CreationLeavesTheStatedValues : Prop :=
  (∀ (cfg : Config) (con : Console), (∀ a, (State.create cfg con).cell a = 0) ∧
    (∀ r : Reg, (State.create cfg con).reg r = cfg.gprReset.get r) ∧ (State.create cfg con).pc = cfg.pcStart ∧
    (State.create cfg con).cond = .z ∧ (State.create cfg con).status = .running ∧ (State.create cfg con).cfg = cfg ∧
    (State.create cfg con).con.buffer = [] ∧ (State.create cfg con).con.delivered = [] ∧
    (State.create cfg con).con.input = con.input ∧ (State.create cfg con).con.polls = con.polls ∧
    (State.create cfg con).con.writes = con.writes ∧ (State.create cfg con).con.flushes = con.flushes) ∧
  (∀ a, State.reset.cell a = 0) ∧ (∀ r, State.reset.reg r = 0) ∧ State.reset.pc = 0x3000 ∧ State.reset.cond = .z ∧
    State.reset.run = .running ∧ State.reset.err = none ∧ State.reset.written = []

/-- The invariant holds right after reset, and after creation with any well-formed parameters (00_scope.md R8, log 4) and any host.
The canonical form of memory in it is the model's (log 3). -/
def Obligations.ResetMeetsTheInvariant : Prop :=
  State.reset.Inv ∧ ∀ (cfg : Config) (con : Console), cfg.wf = true → (State.create cfg con).Inv

/-- 20_memory.md R61: the image format. A stream shorter than 2 bytes is InvalidProgramFormat; else the first two bytes are the
origin, big-endian, each two bytes after them a word, big-endian, and an odd last byte is dropped. -/
def Obligations.ImageIsOriginThenBigEndianWords : Prop :=
  (∀ (hi lo : Byte) (ws : List Word) (odd : List Byte) (s : State), odd.length ≤ 1 →
    parseImage (hi :: lo :: (ws.flatMap fun w => [highByte w, lowByte w]) ++ odd) = some (hi ++ lo, ws) ∧
    loadImage (hi :: lo :: (ws.flatMap fun w => [highByte w, lowByte w]) ++ odd) s = loadWords (hi ++ lo) ws s) ∧
  (∀ (image : List Byte) (s : State), image.length < 2 → (loadImage image s).err = some .invalidProgramFormat ∧
    SameCellsBut [] s (loadImage image s))

/-- 20_memory.md R60 (decision D24, log 24): words that fit land at consecutive addresses from the origin and no other cell
changes; words that do not fit are InvalidProgramFormat and no cell changes. Nothing else of the state changes. -/
def Obligations.LoadPlacesTheWordsOrNone : Prop :=
  ∀ (origin : Word) (ws : List Word) (s : State),
    (origin.toNat + ws.length ≤ 65536 → (loadWords origin ws s).err = s.err ∧
      (∀ a : Word, (loadWords origin ws s).cell a =
        if origin.toNat ≤ a.toNat then (ws[a.toNat - origin.toNat]?).getD (s.cell a) else s.cell a)) ∧
    (65536 < origin.toNat + ws.length → (loadWords origin ws s).err = some .invalidProgramFormat ∧
      SameCellsBut [] s (loadWords origin ws s)) ∧
    SameRegsBut [] s (loadWords origin ws s) ∧ (loadWords origin ws s).pc = s.pc ∧
    (loadWords origin ws s).cond = s.cond ∧ (loadWords origin ws s).con = s.con ∧ (loadWords origin ws s).run = s.run ∧
    (loadWords origin ws s).cfg = s.cfg

/-- 20_memory.md R62: any number of images load in the order given and the last writer wins on overlap: after images that left
no error, one more that fits leaves its own words in its cells and every other cell as the earlier ones left it. An
InvalidProgramFormat ends the run before its first fetch, with no later image loaded. The error of an image that does not fit is
decision D24 (log 24); that a step then stops by name is the model's (logs 2, 27). -/
def Obligations.LaterImagesOverwriteAndABadOneEndsTheRun : Prop :=
  (∀ (images : List (List Byte)) (last : List Byte) (o : Word) (ws : List Word) (s : State),
    (loadImages images s).err = none → parseImage last = some (o, ws) → o.toNat + ws.length ≤ 65536 →
    (loadImages (images ++ [last]) s).err = none ∧
    (∀ a : Word, (loadImages (images ++ [last]) s).cell a =
      if o.toNat ≤ a.toNat then (ws[a.toNat - o.toNat]?).getD ((loadImages images s).cell a)
      else (loadImages images s).cell a)) ∧
  (∀ (first second : List Byte) (o1 o2 : Word) (ws1 ws2 : List Word) (s : State), s.err = none →
    parseImage first = some (o1, ws1) → parseImage second = some (o2, ws2) → o1.toNat + ws1.length ≤ 65536 →
    o2.toNat + ws2.length ≤ 65536 → (loadImages [first, second] s).err = none ∧
    (∀ (a : Word) (k : Nat), k < ws2.length → a.toNat = o2.toNat + k →
      (loadImages [first, second] s).cell a = ws2.getD k 0) ∧
    (∀ (a : Word) (k : Nat), k < ws1.length → a.toNat = o1.toNat + k →
      (a.toNat < o2.toNat ∨ o2.toNat + ws2.length ≤ a.toNat) → (loadImages [first, second] s).cell a = ws1.getD k 0)) ∧
  (∀ (images later : List (List Byte)) (cfg : Config) (con : Console) (raw : OutputAnswer) (e : Err),
    (loadImages images (State.create cfg con)).err = some e →
    loadImages (images ++ later) (State.create cfg con) = loadImages images (State.create cfg con) ∧
    e = .invalidProgramFormat ∧ step (boot cfg con images raw) = .fault (.runErrored .invalidProgramFormat))

/-- 70_reset_and_hazards.md R195, 60_exceptions.md R173 and the invariant: whatever images the host loads, whatever it answers,
boot leaves a state that meets the invariant and stands at `PC_START` with the registers at `GPR_RESET`, the flag Z, the memory
the images left and the streams of creation. Its error is the images'; where they left none, it is IoError exactly when raw mode
failed. That the error is recorded before the first step is log 27; pc, registers and flag are D9, D11, D10 (logs 5, 6, 7). -/
def Obligations.BootMeetsTheInvariant : Prop :=
  ∀ (cfg : Config) (con : Console) (images : List (List Byte)) (raw : OutputAnswer), cfg.wf = true →
    (boot cfg con images raw).Inv ∧ (boot cfg con images raw).run = .running ∧
    (boot cfg con images raw).pc = cfg.pcStart ∧ (∀ r, (boot cfg con images raw).reg r = cfg.gprReset.get r) ∧
    (boot cfg con images raw).cond = .z ∧ (boot cfg con images raw).con = (State.create cfg con).con ∧
    (boot cfg con images raw).cfg = cfg ∧
    (∀ a, (boot cfg con images raw).cell a = (loadImages images (State.create cfg con)).cell a) ∧
    (∀ e, (loadImages images (State.create cfg con)).err = some e → (boot cfg con images raw).err = some e) ∧
    ((loadImages images (State.create cfg con)).err = none →
      (raw = .ok → (boot cfg con images raw).err = none) ∧
      (raw = .failure → (boot cfg con images raw).err = some .ioError))

/-! ### The step -/

/-- 70_reset_and_hazards.md R190: a step of a running machine fetches the word at `pc`, increments `pc`, and runs the decoded
instruction; a fetch at the status address polls first, and when that poll fails the step raises IoError with `pc` as it was
(60_exceptions.md R176, decision D25, log 18). One instruction a step is decision D21. -/
def Obligations.StepRunsTheDecodedInstruction : Prop :=
  (∀ s : State, s.err = none → s.run = .running → s.pc ≠ s.cfg.kbsrAddr →
    step s = exec (decode (s.cell s.pc)) (s.setPc (s.pc + 1))) ∧
  (∀ (s t : State) (w : Word), s.err = none → s.run = .running → memRead s.pc s = .ok w t →
    step s = exec (decode w) (t.setPc (s.pc + 1))) ∧
  (∀ s t : State, s.err = none → s.run = .running → memRead s.pc s = .raised t →
    step s = .next t ∧ t.err = some .ioError ∧ t.pc = s.pc)

/-- 60_exceptions.md R175, 70_reset_and_hazards.md R191: no step is taken from a run that has ended. That the model stops there
by name is log 2. -/
def Obligations.NoStepAfterTheEndOfARun : Prop :=
  (∀ (s : State) (e : Err), s.status = .errored e → step s = .fault (.runErrored e)) ∧
    (∀ s : State, s.status = .halted → step s = .fault .runHalted) ∧
    (∀ s t : State, step s = .next t → s.status = .running)

/-- 20_memory.md R65 (derived there), 70_reset_and_hazards.md R197: a store by ST, STR or STI (whose pointer read may have
polled) is seen by the very next fetch of the address stored to, wherever that is and also when it is the word that follows the
store. The status address is apart: a fetch there polls and overwrites the cell (`FetchAtTheStatusAddressPolls`). One instruction
a step is decision D21 (log 26). -/
def Obligations.StoreIsSeenByTheNextFetch : Prop :=
  ∀ (i : Instr) (sr : Reg) (a : Word) (s : State), s.err = none → s.run = .running → a ≠ s.cfg.kbsrAddr →
    (∃ off, i = .st sr off ∧ pcRel9 s off = a) ∨ (∃ base off, i = .str sr base off ∧ baseOff s base off = a) ∨
      (∃ off u, i = .sti sr off ∧ memRead (pcRel9 s off) s = .ok a u) →
    ∃ t, exec i s = .next t ∧ step (t.setPc a) = exec (decode (s.reg sr)) (t.setPc (a + 1)) ∧
      (a = s.pc → step t = exec (decode (s.reg sr)) (t.setPc (s.pc + 1)))

/-- 95_test_vectors.md V110, V111 and 20_memory.md R56: a fetch at the status address polls. With no key the word fetched is 0, a
no-op (a BR, decision D1, log 15); with a key and `KBSR_READY` = 0x8000 (decision D7) it is an RTI word, so the step raises
InvalidOpcode(8). The cells are D7 and D8 (log 19), what the error leaves is 60_exceptions.md R176, D25 (log 18). -/
def Obligations.FetchAtTheStatusAddressPolls : Prop :=
  ∀ (s : State) (c : Console), s.status = .running → s.cfg.wf = true → s.pc = s.cfg.kbsrAddr →
    (s.con.pollKey = (.none, c) → ∃ t, step s = .next t ∧ t.pc = s.pc + 1 ∧ t.cell s.cfg.kbsrAddr = 0 ∧ t.con = c ∧
      t.cond = s.cond ∧ KeepsAllBut [] [s.cfg.kbsrAddr] s t) ∧
    (∀ b, s.con.pollKey = (.some b, c) → s.cfg.kbsrReady = 0x8000 → ∃ t, step s = .next t ∧
      t.err = some (.invalidOpcode 8) ∧ t.pc = s.pc + 1 ∧ t.cell s.cfg.kbsrAddr = 0x8000 ∧
      t.cell s.cfg.kbdrAddr = zext8 b ∧ t.cond = s.cond ∧ SameRegsBut [] s t)

/-! ### Operate instructions -/

/-- 40_operate.md R111, R112, R116: ADD, both forms. The result is the sum modulo 65536, the flag is derived from it, and nothing
else changes; no overflow is detected and nothing faults. The decoding clause rests on decisions D1 and D2 (log 15), and on D3
for the ignored bits 4..3 (log 16). -/
def Obligations.AddWritesTheWrappedSum : Prop :=
  (∀ (dr sr1 sr2 : Reg) (s : State), ∃ t, exec (.addReg dr sr1 sr2) s = .next t ∧
    (t.reg dr).toNat = ((s.reg sr1).toNat + (s.reg sr2).toNat) % 65536 ∧ t.cond = condOf (t.reg dr) ∧ t.pc = s.pc ∧
    t.con = s.con ∧ KeepsAllBut [dr] [] s t) ∧
  (∀ (dr sr1 : Reg) (imm : BitVec 5) (s : State), ∃ t, exec (.addImm dr sr1 imm) s = .next t ∧
    ((t.reg dr).toNat : Int) = ((s.reg sr1).toNat + imm.toInt) % 65536 ∧ t.cond = condOf (t.reg dr) ∧ t.pc = s.pc ∧
    t.con = s.con ∧ KeepsAllBut [dr] [] s t) ∧
  (∀ w : Word, w.extractLsb' 12 4 = 0b0001#4 →
    (w.getLsbD 5 = false → decode w =
      .addReg (w.extractLsb' 9 3).toFin (w.extractLsb' 6 3).toFin (w.extractLsb' 0 3).toFin) ∧
    (w.getLsbD 5 = true → decode w = .addImm (w.extractLsb' 9 3).toFin (w.extractLsb' 6 3).toFin (w.extractLsb' 0 5)))

/-- 40_operate.md R113, R114: AND, both forms. Each bit of the result is the AND of the operands' bits (bit 4 of imm5 stands for
all the bits above it), the flag is derived from the result, and nothing else changes. The decoding clause rests on decisions D1
and D2 (log 15), and on D3 for the ignored bits 4..3 (log 16). -/
def Obligations.AndWritesTheBitwiseAnd : Prop :=
  (∀ (dr sr1 sr2 : Reg) (s : State), ∃ t, exec (.andReg dr sr1 sr2) s = .next t ∧
    (∀ k, (t.reg dr).getLsbD k = ((s.reg sr1).getLsbD k && (s.reg sr2).getLsbD k)) ∧ t.cond = condOf (t.reg dr) ∧
    t.pc = s.pc ∧ t.con = s.con ∧ KeepsAllBut [dr] [] s t) ∧
  (∀ (dr sr1 : Reg) (imm : BitVec 5) (s : State), ∃ t, exec (.andImm dr sr1 imm) s = .next t ∧
    (∀ k, (t.reg dr).getLsbD k = ((s.reg sr1).getLsbD k && imm.getLsbD (min k 4))) ∧ t.cond = condOf (t.reg dr) ∧
    t.pc = s.pc ∧ t.con = s.con ∧ KeepsAllBut [dr] [] s t) ∧
  (∀ w : Word, w.extractLsb' 12 4 = 0b0101#4 →
    (w.getLsbD 5 = false → decode w =
      .andReg (w.extractLsb' 9 3).toFin (w.extractLsb' 6 3).toFin (w.extractLsb' 0 3).toFin) ∧
    (w.getLsbD 5 = true → decode w = .andImm (w.extractLsb' 9 3).toFin (w.extractLsb' 6 3).toFin (w.extractLsb' 0 5)))

/-- 40_operate.md R115: NOT. All 16 bits are complemented, the flag is derived from the result, nothing else changes, and bits
5..0 of the word are ignored. The decoding clause rests on decisions D1 and D2 (log 15), and on D3 for the ignored bits (log
16). -/
def Obligations.NotComplementsAllBits : Prop :=
  (∀ (dr sr : Reg) (s : State), ∃ t, exec (.notReg dr sr) s = .next t ∧
    (t.reg dr).toNat = 65535 - (s.reg sr).toNat ∧ t.cond = condOf (t.reg dr) ∧ t.pc = s.pc ∧ t.con = s.con ∧
    KeepsAllBut [dr] [] s t) ∧
  (∀ w : Word, w.extractLsb' 12 4 = 0b1001#4 → decode w = .notReg (w.extractLsb' 9 3).toFin (w.extractLsb' 6 3).toFin)

/-! ### Control transfer -/

/-- 41_control.md R120: BR. Taken exactly when "(condition mask in bits 11–9) & current flag ≠ 0", and then `pc` moves by the
signed offset, wrapping; a branch not taken changes nothing at all; mask 000 is never taken and mask 111 always. Which mask bit
selects which flag is decision D4 (log 15). -/
def Obligations.BranchGoesByTheFlag : Prop :=
  ∀ (n z p : Bool) (off : BitVec 9) (s : State), ∃ t, exec (.br n z p off) s = .next t ∧
    ((BitVec.ofBool n ++ BitVec.ofBool z ++ BitVec.ofBool p).setWidth 16 &&& s.cond.code ≠ 0 →
      (t.pc.toNat : Int) = (s.pc.toNat + off.toInt) % 65536) ∧
    ((BitVec.ofBool n ++ BitVec.ofBool z ++ BitVec.ofBool p).setWidth 16 &&& s.cond.code = 0 → t = s) ∧
    (n = false → z = false → p = false → t = s) ∧
    (n = true → z = true → p = true → (t.pc.toNat : Int) = (s.pc.toNat + off.toInt) % 65536) ∧
    t.cond = s.cond ∧ t.con = s.con ∧ KeepsAllBut [] [] s t

/-- 41_control.md R121: JMP sets `pc` to the base register, whatever it holds, and changes nothing else; JMP R7 is the return,
with no meaning of its own. The decoding clause rests on decisions D1 and D2 (log 15), and on D3 for the ignored bits 11..9 and
5..0 (log 16). -/
def Obligations.JumpGoesToTheBaseRegister : Prop :=
  (∀ (base : Reg) (s : State), ∃ t, exec (.jmp base) s = .next t ∧ t.pc = s.reg base ∧ t.cond = s.cond ∧ t.con = s.con ∧
    KeepsAllBut [] [] s t) ∧
  (∀ w : Word, w.extractLsb' 12 4 = 0b1100#4 → decode w = .jmp (w.extractLsb' 6 3).toFin)

/-- 41_control.md R123: JSR saves the incremented `pc` in R7, moves `pc` by the signed 11-bit offset, wrapping, and changes
nothing else, the flag included. The decoding clause (opcode, mode bit 11, offset) rests on decisions D1 and D2 (log 15). -/
def Obligations.CallSavesPcAndJumps : Prop :=
  (∀ (off : BitVec 11) (s : State), ∃ t, exec (.jsr off) s = .next t ∧ t.reg 7 = s.pc ∧
    (t.pc.toNat : Int) = (s.pc.toNat + off.toInt) % 65536 ∧ t.cond = s.cond ∧ t.con = s.con ∧ KeepsAllBut [7] [] s t) ∧
  (∀ w : Word, w.extractLsb' 12 4 = 0b0100#4 → w.getLsbD 11 = true → decode w = .jsr (w.extractLsb' 0 11))

/-- 41_control.md R124: JSRR saves the incremented `pc` in R7 first and reads the base register after it, so that with base R7 it
goes on at the next instruction (decision D12, log 17). -/
def Obligations.CallThroughRegisterReadsItAfterTheLink : Prop :=
  ∀ (base : Reg) (s : State), ∃ t, exec (.jsrr base) s = .next t ∧ t.reg 7 = s.pc ∧
    (base ≠ 7 → t.pc = s.reg base) ∧ (base = 7 → t.pc = s.pc) ∧ t.cond = s.cond ∧ t.con = s.con ∧
    KeepsAllBut [7] [] s t

/-- 10_state.md R22: JSR, JSRR and every TRAP that completes leave the incremented `pc` in R7, whatever the routine does, and
whether or not it ends in an error (60_exceptions.md R176, decisions D13 and D25, log 18). -/
def Obligations.LinkingInstructionsLeavePcInR7 : Prop :=
  ∀ (i : Instr) (s t : State), i.links = true → exec i s = .next t → t.reg 7 = s.pc

/-! ### Loads and stores -/

/-- 42_loadstore.md R130: LD. When the read of `pc + sext_9(off)` succeeds, the word read goes to DR and the flag is derived from
it; when its poll fails, that IoError is the instruction's. Nothing else changes but the cells a poll writes. What the
failed poll leaves is 60_exceptions.md R176, decision D25 (log 18). -/
def Obligations.LoadPcRelative : Prop :=
  ∀ (dr : Reg) (off : BitVec 9) (s : State),
    (pcRel9 s off ≠ s.cfg.kbsrAddr → ∃ t, exec (.ld dr off) s = .next t ∧ t.reg dr = s.cell (pcRel9 s off) ∧
      t.cond = condOf (s.cell (pcRel9 s off)) ∧ t.pc = s.pc ∧ t.con = s.con ∧ KeepsAllBut [dr] [] s t) ∧
    (∀ (v : Word) (u : State), memRead (pcRel9 s off) s = .ok v u → ∃ t, exec (.ld dr off) s = .next t ∧ t.reg dr = v ∧
      t.cond = condOf v ∧ t.pc = s.pc ∧ t.con = u.con ∧ SameCellsBut [] u t ∧
      KeepsAllBut [dr] (s.pollCells (pcRel9 s off)) s t) ∧
    (∀ u : State, memRead (pcRel9 s off) s = .raised u → exec (.ld dr off) s = .next u ∧ u.err = some .ioError ∧
      u.cond = s.cond ∧ u.pc = s.pc ∧ SameRegsBut [] s u ∧ SameCellsBut [] s u)

/-- 42_loadstore.md R132: LDR. As LD, at `x[BaseR] + sext_6(off)`, with the old value of BaseR even when DR is BaseR.
That a failed poll leaves every register, the flag and every cell is 60_exceptions.md R176, decision D25 (log 18). -/
def Obligations.LoadBasePlusOffset : Prop :=
  ∀ (dr base : Reg) (off : BitVec 6) (s : State),
    (baseOff s base off ≠ s.cfg.kbsrAddr → ∃ t, exec (.ldr dr base off) s = .next t ∧
      t.reg dr = s.cell (baseOff s base off) ∧ t.cond = condOf (s.cell (baseOff s base off)) ∧ t.pc = s.pc ∧
      t.con = s.con ∧ KeepsAllBut [dr] [] s t) ∧
    (∀ (v : Word) (u : State), memRead (baseOff s base off) s = .ok v u → ∃ t, exec (.ldr dr base off) s = .next t ∧
      t.reg dr = v ∧ t.cond = condOf v ∧ t.pc = s.pc ∧ t.con = u.con ∧ SameCellsBut [] u t ∧
      KeepsAllBut [dr] (s.pollCells (baseOff s base off)) s t) ∧
    (∀ u : State, memRead (baseOff s base off) s = .raised u → exec (.ldr dr base off) s = .next u ∧
      u.err = some .ioError ∧ u.cond = s.cond ∧ u.pc = s.pc ∧ SameRegsBut [] s u ∧ SameCellsBut [] s u)

/-- 42_loadstore.md R131: LDI. The pointer read, then the data read in the state the first one left, each of which may poll; an
IoError of either is the instruction's and leaves DR and the flag (60_exceptions.md R176, decision D25, log 18). -/
def Obligations.LoadIndirect : Prop :=
  ∀ (dr : Reg) (off : BitVec 9) (s : State),
    (∀ p : Word, pcRel9 s off ≠ s.cfg.kbsrAddr → p = s.cell (pcRel9 s off) → p ≠ s.cfg.kbsrAddr →
      ∃ t, exec (.ldi dr off) s = .next t ∧ t.reg dr = s.cell p ∧ t.cond = condOf (s.cell p) ∧ t.pc = s.pc ∧
        t.con = s.con ∧ KeepsAllBut [dr] [] s t) ∧
    (∀ (p v : Word) (u u' : State), memRead (pcRel9 s off) s = .ok p u → memRead p u = .ok v u' →
      ∃ t, exec (.ldi dr off) s = .next t ∧ t.reg dr = v ∧ t.cond = condOf v ∧ t.pc = s.pc ∧ t.con = u'.con ∧
        SameCellsBut [] u' t ∧ KeepsAllBut [dr] (s.pollCells (pcRel9 s off) ++ s.pollCells p) s t) ∧
    (∀ u : State, (memRead (pcRel9 s off) s = .raised u ∨
        ∃ p u0, memRead (pcRel9 s off) s = .ok p u0 ∧ memRead p u0 = .raised u) →
      exec (.ldi dr off) s = .next u ∧ u.err = some .ioError ∧ u.cond = s.cond ∧ u.pc = s.pc ∧ SameRegsBut [] s u ∧
        SameCellsBut (s.pollCells (pcRel9 s off)) s u)

/-- 42_loadstore.md R133: LEA writes the address itself and derives the flag from it; it reads no memory and never polls, even at
the status address. The decoding clause rests on decisions D1 and D2 (log 15). -/
def Obligations.LoadEffectiveAddress : Prop :=
  (∀ (dr : Reg) (off : BitVec 9) (s : State), ∃ t, exec (.lea dr off) s = .next t ∧
    ((t.reg dr).toNat : Int) = (s.pc.toNat + off.toInt) % 65536 ∧ t.cond = condOf (t.reg dr) ∧ t.pc = s.pc ∧
    t.con = s.con ∧ KeepsAllBut [dr] [] s t) ∧
  (∀ w : Word, w.extractLsb' 12 4 = 0b1110#4 → decode w = .lea (w.extractLsb' 9 3).toFin (w.extractLsb' 0 9))

/-- 42_loadstore.md R134, R136: ST and STR store the source register at their effective address and change nothing else: no
register, no flag, no other cell; a store to a device cell only overwrites it. The decoding clause rests on decisions D1 and D2
(log 15). -/
def Obligations.StoresWriteOneCell : Prop :=
  (∀ (sr : Reg) (off : BitVec 9) (s : State), ∃ t, exec (.st sr off) s = .next t ∧ t.cell (pcRel9 s off) = s.reg sr ∧
    t.pc = s.pc ∧ t.cond = s.cond ∧ t.con = s.con ∧ KeepsAllBut [] [pcRel9 s off] s t) ∧
  (∀ (sr base : Reg) (off : BitVec 6) (s : State), ∃ t, exec (.str sr base off) s = .next t ∧
    t.cell (baseOff s base off) = s.reg sr ∧ t.pc = s.pc ∧ t.cond = s.cond ∧ t.con = s.con ∧
    KeepsAllBut [] [baseOff s base off] s t) ∧
  (∀ w : Word,
    (w.extractLsb' 12 4 = 0b0011#4 → decode w = .st (w.extractLsb' 9 3).toFin (w.extractLsb' 0 9)) ∧
    (w.extractLsb' 12 4 = 0b0111#4 → decode w =
      .str (w.extractLsb' 9 3).toFin (w.extractLsb' 6 3).toFin (w.extractLsb' 0 6)))

/-- 42_loadstore.md R135: STI reads the pointer, which may poll, then stores the source register where it points, with no poll
for the store; a failed pointer read is the instruction's IoError, and nothing is stored (60_exceptions.md R176, decision D25, log
18). -/
def Obligations.StoreIndirect : Prop :=
  ∀ (sr : Reg) (off : BitVec 9) (s : State),
    (∀ p : Word, pcRel9 s off ≠ s.cfg.kbsrAddr → p = s.cell (pcRel9 s off) →
      ∃ t, exec (.sti sr off) s = .next t ∧ t.cell p = s.reg sr ∧ t.pc = s.pc ∧ t.cond = s.cond ∧ t.con = s.con ∧
        KeepsAllBut [] [p] s t) ∧
    (∀ (p : Word) (u : State), memRead (pcRel9 s off) s = .ok p u → ∃ t, exec (.sti sr off) s = .next t ∧
      t.cell p = s.reg sr ∧ t.pc = s.pc ∧ t.cond = s.cond ∧ t.con = u.con ∧ SameCellsBut [p] u t ∧
      KeepsAllBut [] (p :: s.pollCells (pcRel9 s off)) s t) ∧
    (∀ u : State, memRead (pcRel9 s off) s = .raised u → exec (.sti sr off) s = .next u ∧ u.err = some .ioError ∧
      u.cond = s.cond ∧ u.pc = s.pc ∧ SameRegsBut [] s u ∧ SameCellsBut [] s u)

/-! ### TRAP -/

/-- 43_trap.md R143: GETC. The next byte of the input stream goes to R0, zero-extended, the flag is Z for 0x00 and else P, nothing
is written to the output, R7 holds the return address. The end of the input or a failure raises IoError and leaves R0 and the
flag (60_exceptions.md R176, decisions D17, D25, logs 21, 18); a host that never answers leaves the step waiting (R193, log 11). -/
def Obligations.GetcStoresTheNextByte : Prop :=
  ∀ s : State,
    (∀ (b : Byte) (c : Console), s.con.takeInput = (.byte b, c) → ∃ t, exec .trapGetc s = .next t ∧
      (t.reg 0).toNat = b.toNat ∧ t.cond = (if b = 0 then .z else .p) ∧ t.reg 7 = s.pc ∧ t.pc = s.pc ∧ t.con = c ∧
      t.written = s.written ∧ KeepsAllBut [0, 7] [] s t) ∧
    (∀ c : Console, s.con.takeInput = (.endOfInput, c) ∨ s.con.takeInput = (.failure, c) →
      ∃ t, exec .trapGetc s = .next t ∧ t.err = some .ioError ∧ t.reg 7 = s.pc ∧ t.cond = s.cond ∧ t.pc = s.pc ∧
        t.run = s.run ∧ SameRegsBut [7] s t ∧ SameCellsBut [] s t) ∧
    (s.con.takeInput.1 = .silence → exec .trapGetc s = .fault .waitingForInput)

/-- 43_trap.md R144: OUT. The low byte of R0 is written and everything buffered is delivered; a failed write or flush raises
IoError, and what was written before it stays written (R176, decision D25, log 18). That a failed write appends nothing is the
model's choice (log 14). -/
def Obligations.OutWritesTheLowByteOfR0 : Prop :=
  ∀ s : State,
    (s.con.takeWrite.1 = .ok → s.con.takeFlush.1 = .ok → ∃ t, exec .trapOut s = .next t ∧
      t.con.delivered = s.written ++ [BitVec.ofNat 8 (s.reg 0).toNat] ∧ t.con.buffer = [] ∧
      t.con.input = s.con.input ∧ t.con.polls = s.con.polls ∧ t.reg 7 = s.pc ∧ t.cond = s.cond ∧ t.pc = s.pc ∧
      KeepsAllBut [7] [] s t) ∧
    (s.con.takeWrite.1 = .failure ∨ s.con.takeFlush.1 = .failure → ∃ t, exec .trapOut s = .next t ∧
      t.err = some .ioError ∧ (s.con.takeWrite.1 = .failure → t.written = s.written) ∧
      (s.con.takeWrite.1 = .ok → t.written = s.written ++ [BitVec.ofNat 8 (s.reg 0).toNat]) ∧ t.reg 7 = s.pc ∧
      t.cond = s.cond ∧ t.pc = s.pc ∧ t.run = s.run ∧ SameRegsBut [7] s t ∧ SameCellsBut [] s t)

/-- 43_trap.md R145: PUTS of a NUL-terminated string, over strings of every length: the low byte of each word is written, in
order, and delivered; R0 and the flag keep their values. The low byte is decision D16 (log 21). -/
def Obligations.PutsWritesTheStringAtR0 : Prop :=
  ∀ (s : State) (ws : List Word), s.con.OutputWorks → (∀ w ∈ ws, w ≠ 0) → s.HoldsWords (s.reg 0) (ws ++ [0]) →
    s.PlainRange (s.reg 0) (ws.length + 1) → ∃ t, exec .trapPuts s = .next t ∧
      t.con.delivered = s.written ++ putsChars ws ∧ t.con.buffer = [] ∧ t.con.input = s.con.input ∧
      t.con.polls = s.con.polls ∧ t.reg 7 = s.pc ∧ t.cond = s.cond ∧ t.pc = s.pc ∧ KeepsAllBut [7] [] s t

/-- 43_trap.md R147: PUTSP of a NUL-terminated string, over strings of every length: the low byte of each word, then its high
byte if nonzero. -/
def Obligations.PutspWritesThePackedStringAtR0 : Prop :=
  ∀ (s : State) (ws : List Word), s.con.OutputWorks → (∀ w ∈ ws, w ≠ 0) → s.HoldsWords (s.reg 0) (ws ++ [0]) →
    s.PlainRange (s.reg 0) (ws.length + 1) → ∃ t, exec .trapPutsp s = .next t ∧
      t.con.delivered = s.written ++ putspChars ws ∧ t.con.buffer = [] ∧ t.con.input = s.con.input ∧
      t.con.polls = s.con.polls ∧ t.reg 7 = s.pc ∧ t.cond = s.cond ∧ t.pc = s.pc ∧ KeepsAllBut [7] [] s t

/-- 43_trap.md R145, R147 and 60_exceptions.md R171 (decision D15, log 20): a string with no zero word up to 0xFFFF. By default it
raises Unspecified(StringOverrun) after all its characters were written, with no flush; under `wrap` it goes on at 0x0000, with
the frame of a string that ends below the top. The low byte that PUTS writes is D16 (log 21), and that the overrun keeps the
characters and R7, written before it, and leaves the rest is R176, D25 (log 18). -/
def Obligations.StringPastTheTopOverrunsOrWraps : Prop :=
  ∀ (s : State) (ws : List Word), s.con.OutputWorks → (∀ w ∈ ws, w ≠ 0) → s.HoldsWords (s.reg 0) ws →
    (s.reg 0).toNat + ws.length = 65536 → s.PlainRange (s.reg 0) ws.length →
    (s.cfg.stringOverrun = .fault →
      (∃ t, exec .trapPuts s = .next t ∧ t.err = some (.unspecified .stringOverrun) ∧
        t.written = s.written ++ putsChars ws ∧ t.con.delivered = s.con.delivered ∧ t.con.input = s.con.input ∧
        t.con.polls = s.con.polls ∧ t.reg 7 = s.pc ∧ t.cond = s.cond ∧ t.pc = s.pc ∧ t.run = s.run ∧ t.cfg = s.cfg ∧
        SameRegsBut [7] s t ∧ SameCellsBut [] s t) ∧
      (∃ t, exec .trapPutsp s = .next t ∧ t.err = some (.unspecified .stringOverrun) ∧
        t.written = s.written ++ putspChars ws ∧ t.con.delivered = s.con.delivered ∧ t.con.input = s.con.input ∧
        t.con.polls = s.con.polls ∧ t.reg 7 = s.pc ∧ t.cond = s.cond ∧ t.pc = s.pc ∧ t.run = s.run ∧ t.cfg = s.cfg ∧
        SameRegsBut [7] s t ∧ SameCellsBut [] s t)) ∧
    (∀ vs : List Word, s.cfg.stringOverrun = .wrap → (∀ v ∈ vs, v ≠ 0) → s.HoldsWords 0 (vs ++ [0]) →
      s.PlainRange 0 (vs.length + 1) →
      (∃ t, exec .trapPuts s = .next t ∧ t.con.delivered = s.written ++ putsChars (ws ++ vs) ∧ t.con.buffer = [] ∧
        t.con.input = s.con.input ∧ t.con.polls = s.con.polls ∧ t.reg 7 = s.pc ∧ t.cond = s.cond ∧ t.pc = s.pc ∧
        KeepsAllBut [7] [] s t) ∧
      (∃ t, exec .trapPutsp s = .next t ∧ t.con.delivered = s.written ++ putspChars (ws ++ vs) ∧ t.con.buffer = [] ∧
        t.con.input = s.con.input ∧ t.con.polls = s.con.polls ∧ t.reg 7 = s.pc ∧ t.cond = s.cond ∧ t.pc = s.pc ∧
        KeepsAllBut [7] [] s t))

/-- 43_trap.md R145, R147, R150: under `STRING_OVERRUN = fault` PUTS and PUTSP complete in every state and with every host: no
loop of theirs goes on for ever, and neither waits for input. They write no register but R7, and no flag. The overrun that ends a
long string is D15, its polls are D14 (log 20), and what an error leaves is 60_exceptions.md R176, D25 (log 18). -/
def Obligations.StringRoutinesAlwaysComplete : Prop :=
  ∀ s : State, s.cfg.stringOverrun = .fault →
    (∃ t, exec .trapPuts s = .next t ∧ t.reg 7 = s.pc ∧ t.pc = s.pc ∧ t.cond = s.cond ∧ t.run = s.run ∧ t.cfg = s.cfg ∧
      SameRegsBut [7] s t ∧ SameCellsBut s.deviceCells s t) ∧
    (∃ t, exec .trapPutsp s = .next t ∧ t.reg 7 = s.pc ∧ t.pc = s.pc ∧ t.cond = s.cond ∧ t.run = s.run ∧ t.cfg = s.cfg ∧
      SameRegsBut [7] s t ∧ SameCellsBut s.deviceCells s t)

/-- 43_trap.md R146: IN. The prompt, then the byte read, are written and delivered; the byte goes to R0, zero-extended, and the
flag is Z for 0x00 and else P. At the end of the input, or when the read fails, IoError is raised after the prompt was delivered
(decision D17, log 21); a host that never answers leaves the step waiting (R193, log 11). The flushes are decision D20 (log 21).
With any host, whichever write, flush (the echo's too) or read fails, the error is IoError, and R0, the flag, the cells and the
poll answers are as before, R7 written: what an error leaves is 60_exceptions.md R176, decision D25 (log 18). -/
def Obligations.InPromptsReadsAndEchoes : Prop :=
  (∀ s t : State, s.err = none → exec .trapIn s = .next t → t.err ≠ none → t.err = some .ioError ∧ s.written <+: t.written ∧
    t.con.polls = s.con.polls ∧ t.reg 7 = s.pc ∧ t.cond = s.cond ∧ t.pc = s.pc ∧ t.run = s.run ∧ t.cfg = s.cfg ∧
    SameRegsBut [7] s t ∧ SameCellsBut [] s t) ∧
  ∀ s : State, s.con.OutputWorks →
    (∀ (b : Byte) (c : Console), s.con.takeInput = (.byte b, c) → ∃ t, exec .trapIn s = .next t ∧
      (t.reg 0).toNat = b.toNat ∧ t.cond = (if b = 0 then .z else .p) ∧ t.reg 7 = s.pc ∧ t.pc = s.pc ∧
      t.con.delivered = s.written ++ s.cfg.inPrompt ++ [b] ∧ t.con.buffer = [] ∧ t.con.input = c.input ∧
      t.con.polls = s.con.polls ∧ KeepsAllBut [0, 7] [] s t) ∧
    (∀ c : Console, s.con.takeInput = (.endOfInput, c) ∨ s.con.takeInput = (.failure, c) →
      ∃ t, exec .trapIn s = .next t ∧ t.err = some .ioError ∧ t.con.delivered = s.written ++ s.cfg.inPrompt ∧
        t.reg 7 = s.pc ∧ t.cond = s.cond ∧ t.pc = s.pc ∧ t.run = s.run ∧ SameRegsBut [7] s t ∧ SameCellsBut [] s t) ∧
    (s.con.takeInput.1 = .silence → exec .trapIn s = .fault .waitingForInput)

/-- 43_trap.md R148: HALT. The notice is written and delivered and the run is Halted, `pc` and the flag as they were, R7 written
(decision D13, log 18). Whatever the host answers, it ends Halted with no new error, or with IoError and not Halted by it, which
is 60_exceptions.md R176, decision D25 (log 18). -/
def Obligations.HaltWritesTheNoticeAndHalts : Prop :=
  (∀ s : State, s.con.OutputWorks → ∃ t, exec .trapHalt s = .next t ∧ t.run = .halted ∧ t.err = s.err ∧
    t.con.delivered = s.written ++ s.cfg.haltText ∧ t.con.buffer = [] ∧ t.con.input = s.con.input ∧
    t.con.polls = s.con.polls ∧ t.reg 7 = s.pc ∧ t.cond = s.cond ∧ t.pc = s.pc ∧ t.cfg = s.cfg ∧ SameRegsBut [7] s t ∧
    SameCellsBut [] s t) ∧
  (∀ s : State, ∃ t, exec .trapHalt s = .next t ∧
    ((t.run = .halted ∧ t.err = s.err) ∨ (t.run = s.run ∧ t.err = some .ioError)))

/-- 43_trap.md R145, R147 and 95_test_vectors.md V89 (decision D14, log 20): a string that reaches the status address, at its
first word or after a prefix, polls there. With no key the word read is 0, so the string ends with the prefix, and the cell is 0.
With a key the word read is `KBSR_READY`: its characters are written and the string goes on, over the memory the poll left, up to
its zero word, or past 0xFFFF when the status address is the last (D15, log 20). A failed poll raises IoError after the prefix was
written. What a poll leaves in the cells is D7, D8 (log 19), what an error leaves D25 (log 18), the bytes PUTS writes D16
(log 21). -/
def Obligations.StringReadAtTheStatusAddressPolls : Prop :=
  ∀ (s : State) (c : Console) (i : Instr) (chars : List Word → List Byte) (ws : List Word),
    (i = .trapPuts ∧ chars = putsChars) ∨ (i = .trapPutsp ∧ chars = putspChars) → s.con.OutputWorks →
    s.cfg.trapReadPolls = true → (∀ w ∈ ws, w ≠ 0) → s.HoldsWords (s.reg 0) ws →
    (s.reg 0).toNat + ws.length = s.cfg.kbsrAddr.toNat →
    (s.con.pollKey = (.none, c) → ∃ t, exec i s = .next t ∧ t.con.delivered = s.written ++ chars ws ∧ t.con.buffer = [] ∧
      t.con.polls = c.polls ∧ t.con.input = s.con.input ∧ t.cell s.cfg.kbsrAddr = 0 ∧ t.reg 7 = s.pc ∧ t.cond = s.cond ∧
      t.pc = s.pc ∧ KeepsAllBut [7] [s.cfg.kbsrAddr] s t) ∧
    (s.con.pollKey = (.failed, c) → ∃ t, exec i s = .next t ∧ t.err = some .ioError ∧ t.written = s.written ++ chars ws ∧
      t.con.delivered = s.con.delivered ∧ t.reg 7 = s.pc ∧ t.cond = s.cond ∧ t.pc = s.pc ∧ t.run = s.run ∧
      t.cfg = s.cfg ∧ SameRegsBut [7] s t ∧ SameCellsBut [] s t) ∧
    (∀ (b : Byte) (vs : List Word), s.cfg.wf = true → s.con.pollKey = (.some b, c) → (∀ v ∈ vs, v ≠ 0) →
      s.cfg.kbsrAddr.toNat + vs.length + 2 ≤ 65536 →
      (s.refreshKeyboard (.some b)).HoldsWords (s.cfg.kbsrAddr + 1) (vs ++ [0]) →
      ∃ t, exec i s = .next t ∧ t.con.delivered = s.written ++ chars (ws ++ s.cfg.kbsrReady :: vs) ∧ t.con.buffer = [] ∧
        t.con.polls = c.polls ∧ t.con.input = c.input ∧ t.cell s.cfg.kbsrAddr = s.cfg.kbsrReady ∧
        t.cell s.cfg.kbdrAddr = zext8 b ∧ t.reg 7 = s.pc ∧ t.cond = s.cond ∧ t.pc = s.pc ∧
        KeepsAllBut [7] s.deviceCells s t) ∧
    (∀ b : Byte, s.cfg.wf = true → s.con.pollKey = (.some b, c) → s.cfg.kbsrAddr = 0xFFFF → s.cfg.stringOverrun = .fault →
      ∃ t, exec i s = .next t ∧ t.err = some (.unspecified .stringOverrun) ∧
        t.written = s.written ++ chars (ws ++ [s.cfg.kbsrReady]) ∧ t.con.delivered = s.con.delivered ∧
        t.con.polls = c.polls ∧ t.con.input = c.input ∧ t.cell s.cfg.kbsrAddr = s.cfg.kbsrReady ∧
        t.cell s.cfg.kbdrAddr = zext8 b ∧ t.reg 7 = s.pc ∧ t.cond = s.cond ∧ t.pc = s.pc ∧ t.run = s.run ∧
        t.cfg = s.cfg ∧ SameRegsBut [7] s t ∧ SameCellsBut s.deviceCells s t)

/-- 60_exceptions.md R173, R176 (decision D25, log 18): when the first `PutChar` of IN, HALT, PUTS or PUTSP fails, that IoError is
the instruction's: no input is taken, the run is not Halted, and only R7 has changed. That the failed write itself appends
nothing, so that nothing is written, is the model's choice (log 14). -/
def Obligations.FailedOutputEndsTheRoutine : Prop :=
  ∀ (s : State) (i : Instr), s.con.takeWrite.1 = .failure →
    (i = .trapIn ∧ s.cfg.inPrompt ≠ []) ∨ (i = .trapHalt ∧ s.cfg.haltText ≠ []) ∨
      ((i = .trapPuts ∨ i = .trapPutsp) ∧ s.PlainRange (s.reg 0) 1 ∧ s.cell (s.reg 0) ≠ 0) →
    ∃ t, exec i s = .next t ∧ t.err = some .ioError ∧ t.written = s.written ∧ t.con.delivered = s.con.delivered ∧
      t.con.input = s.con.input ∧ t.con.polls = s.con.polls ∧ t.reg 7 = s.pc ∧ t.cond = s.cond ∧ t.pc = s.pc ∧
      t.run = s.run ∧ t.cfg = s.cfg ∧ SameRegsBut [7] s t ∧ SameCellsBut [] s t

/-- 43_trap.md R149: a TRAP with an unknown vector raises InvalidOpcode carrying the vector; R7 has been written and nothing else
changes (decisions D13, D25, log 18). -/
def Obligations.UnknownVectorRaisesInvalidOpcode : Prop :=
  ∀ (v : Byte) (s : State), ∃ t, exec (.trapUnknown v) s = .next t ∧ t.err = some (.invalidOpcode v) ∧ t.reg 7 = s.pc ∧
    t.pc = s.pc ∧ t.cond = s.cond ∧ t.con = s.con ∧ t.run = s.run ∧ t.cfg = s.cfg ∧ SameRegsBut [7] s t ∧
    SameCellsBut [] s t

/-- 44_reserved.md R160, R161, and the source's property S8: each of the 4096 words of opcode 8 raises InvalidOpcode(8), and each
of opcode 13 InvalidOpcode(13), "regardless of the remaining instruction bits"; nothing else changes. -/
def Obligations.ReservedOpcodesAlwaysRaiseInvalidOpcode : Prop :=
  ∀ (w : Word) (s : State),
    (w.extractLsb' 12 4 = 8#4 → decode w = .rti ∧ ∃ t, exec .rti s = .next t ∧ t.err = some (.invalidOpcode 8) ∧ t.pc = s.pc ∧
      t.cond = s.cond ∧ t.con = s.con ∧ t.run = s.run ∧ t.cfg = s.cfg ∧ SameRegsBut [] s t ∧ SameCellsBut [] s t) ∧
    (w.extractLsb' 12 4 = 13#4 → decode w = .res ∧ ∃ t, exec .res s = .next t ∧ t.err = some (.invalidOpcode 13) ∧ t.pc = s.pc ∧
      t.cond = s.cond ∧ t.con = s.con ∧ t.run = s.run ∧ t.cfg = s.cfg ∧ SameRegsBut [] s t ∧ SameCellsBut [] s t)

/-! ### Rules about the whole machine -/

/-- 10_state.md R25: `pc` is changed only by the fetch increment and by BR (taken), JMP, JSR, JSRR; the increment wraps. -/
def Obligations.OnlyJumpsChangePcAfterTheFetch : Prop :=
  (∀ (i : Instr) (s t : State), i.jumps = false → exec i s = .next t → t.pc = s.pc) ∧
    (∀ (n z p : Bool) (off : BitVec 9) (s t : State),
      (n = false ∨ s.cond ≠ .n) → (z = false ∨ s.cond ≠ .z) → (p = false ∨ s.cond ≠ .p) →
      exec (.br n z p off) s = .next t → t.pc = s.pc) ∧
    (∀ (s t : State) (w : Word), fetch s = .ok w t → t.pc.toNat = (s.pc.toNat + 1) % 65536)

/-- 10_state.md R29: the flag is written only by the listed operations, and then derived from the value just written to the
destination register; no memory read changes it, polling or not. That an instruction of the list that ends in an error leaves it
is 60_exceptions.md R176, decision D25 (log 18). -/
def Obligations.FlagChangesOnlyWithTheListedWrites : Prop :=
  (∀ (i : Instr) (s t : State), i.flagDest = none → exec i s = .next t → t.cond = s.cond) ∧
    (∀ (i : Instr) (dr : Reg) (s t : State), i.flagDest = some dr → s.err = none → exec i s = .next t →
      (t.err = none → t.cond = condOf (t.reg dr)) ∧ (t.err ≠ none → t.cond = s.cond)) ∧
    (∀ (a v : Word) (s t : State), memRead a s = .ok v t ∨ memRead a s = .raised t → t.cond = s.cond)

/-- 10_state.md R21 (derived there): every instruction writes only the registers of the table's row. -/
def Obligations.RegistersAreWrittenAsTheTableSays : Prop :=
  ∀ (i : Instr) (s t : State), exec i s = .next t → SameRegsBut i.writesRegs s t

/-- 20_memory.md R51 (derived there), R56, R59 and 60_exceptions.md R183: which instructions can change memory, take input, poll
or write output, on every path, an error's included. Only ST, STR and STI write a cell that is no device register (they may write
a device cell too, R55, V112); the loads, PUTS and PUTSP change device cells only, by a poll; every other instruction (GETC, OUT,
IN and HALT among them) changes no cell and polls nothing. Instructions on registers, ST and STR leave every stream, OUT and HALT
take no input, and only OUT, PUTS, IN, PUTSP and HALT touch the output. That PUTS and PUTSP may poll is D14 (log 20). -/
def Obligations.MemoryAndStreamsChangeAsTheTableSays : Prop :=
  ∀ (i : Instr) (s t : State), exec i s = .next t →
    (i.reach ≠ .stores → i.reach ≠ .readsThenStores → SameCellsBut s.deviceCells s t) ∧
    (i.reach.noMemory = true → SameCellsBut [] s t ∧ t.con.polls = s.con.polls) ∧
    (i.reach = .registersOnly ∨ i.reach = .stores → t.con = s.con) ∧
    (i.reach = .writesOutput → t.con.input = s.con.input) ∧
    (i.reach.output = false → t.con.buffer = s.con.buffer ∧ t.con.delivered = s.con.delivered ∧
      t.con.writes = s.con.writes ∧ t.con.flushes = s.con.flushes)

/-- 60_exceptions.md R171 to R174: which error an instruction may raise. No instruction raises InvalidProgramFormat, only PUTS and
PUTSP raise Unspecified, and the operate and control instructions, LEA, ST and STR raise nothing. Unspecified is decision D15
(log 20), and IoError at the end of the input D17 (log 21). -/
def Obligations.ErrorsAreRaisedOnlyWhereTheSpecSays : Prop :=
  ∀ (i : Instr) (s t : State) (e : Err), s.err = none → exec i s = .next t → t.err = some e → i.mayRaise e

/-- 70_reset_and_hazards.md R192: the only transition to Halted is the HALT routine, in a step that began Running; it comes with
no error, and no step follows it. -/
def Obligations.OnlyTheHaltTrapHalts : Prop :=
  (∀ s t : State, step s = .next t → t.run = .halted →
    s.run = .running ∧ t.err = none ∧ ∃ w u, fetch s = .ok w u ∧ decode w = .trapHalt) ∧
    (∀ s t : State, s.run = .halted → step s ≠ .next t)

/-- 43_trap.md R150 and 00_scope.md R14: a step never takes back what was written to the output, nor what was
delivered. What a failed write or flush does to the two lists is the model's choice (log 14). -/
def Obligations.OutputOnlyGrows : Prop :=
  ∀ s t : State, step s = .next t → s.written <+: t.written ∧ s.con.delivered <+: t.con.delivered

/-- 20_memory.md R51 and 10_state.md R34: an instruction that neither reads data memory nor does I/O does the same whatever the
host will answer, and leaves the host's streams. The streams' form is the model's own (log 8). -/
def Obligations.InstructionsWithoutIoIgnoreTheHost : Prop :=
  ∀ (i : Instr) (s t : State) (c : Console), i.reach = .registersOnly ∨ i.reach = .stores →
    exec i s = .next t → exec i (s.setCon c) = .next (t.setCon c)

/-- 70_reset_and_hazards.md R193, R194: every instruction completes, in every state, but for the steps that never end, which the
model names (logs 11, 12): GETC and IN when the host never answers, and PUTS and PUTSP when no number of turns of their loop ends
it, which only `STRING_OVERRUN = wrap` allows (decision D15, log 20). -/
def Obligations.InstructionsStopOnlyByTheNamedWaits : Prop :=
  ∀ (i : Instr) (s : State),
    (∃ t, exec i s = .next t) ∨
    ((i = .trapGetc ∨ i = .trapIn) ∧ s.con.takeInput.1 = .silence ∧ exec i s = .fault .waitingForInput) ∨
    (∃ writeWord, ((i = .trapPuts ∧ writeWord = putsWord) ∨ (i = .trapPutsp ∧ writeWord = putspWord)) ∧
      s.cfg.stringOverrun = .wrap ∧ exec i s = .fault .unendingString ∧
      ∀ n, ∃ b t, stringTurns writeWord n (s.reg 0) s.saveLink = .ok (some b) t)

/-- The invariant is kept by every step: memory stays canonical (log 3), the parameters stay as they were (R8), and no run is both
Halted and Errored (60_exceptions.md R175, 70_reset_and_hazards.md R191). -/
def Obligations.EveryStepKeepsTheInvariant : Prop :=
  ∀ s t : State, s.Inv → step s = .next t → t.Inv ∧ t.cfg = s.cfg

/-- 43_trap.md R145, R147: the loop of PUTS and PUTSP, word by word, in every state and with every host: how long the string, how
often it passes 0xFFFF or the status address, and which write fails, all go by these equations. The word at the address is read
(D14, log 20); a zero word ends the loop; else its characters are written and the loop goes on at the next address, which past
0xFFFF is none or 0x0000 (D15, log 20). An error of a part is the loop's, whichever write raises it (60_exceptions.md R173, R176,
D25, log 18); a failed write appends nothing (log 14). PUTS writes one character for a word (D16, log 21), PUTSP one or two.
After the loop the output is flushed. -/
def Obligations.StringLoopGoesWordByWord : Prop :=
  (∀ s : State,
    exec .trapPuts s = ((putString putsWord (s.reg 0) s.saveLink).andThen fun _ t => flush t).outcome ∧
    exec .trapPutsp s = ((putString putspWord (s.reg 0) s.saveLink).andThen fun _ t => flush t).outcome) ∧
  (∀ (a : Word) (s : State), (s.cfg.trapReadPolls = true → stringWord a s = memRead a s) ∧
    (s.cfg.trapReadPolls = false → stringWord a s = .ok (s.cell a) s)) ∧
  (∀ (w : Word) (s : State), putsWord w s = putChar (lowByte w) s ∧
    (highByte w = 0 → putspWord w s = putChar (lowByte w) s) ∧
    (highByte w ≠ 0 → putspWord w s = (putChar (lowByte w) s).andThen fun _ t => putChar (highByte w) t)) ∧
  (∀ (b : Byte) (s : State),
    (s.con.takeWrite.1 = .ok → ∃ c : Console, putChar b s = .ok () (s.setCon c) ∧ c.buffer = s.con.buffer ++ [b] ∧
      c.delivered = s.con.delivered ∧ c.input = s.con.input ∧ c.polls = s.con.polls) ∧
    (s.con.takeWrite.1 = .failure → ∃ c : Console, putChar b s = .raised ((s.setCon c).recordErr .ioError) ∧
      c.buffer = s.con.buffer ∧ c.delivered = s.con.delivered ∧ c.input = s.con.input ∧ c.polls = s.con.polls)) ∧
  (∀ (writeWord : Word → State → Effect Unit) (a : Word) (s : State),
    (∀ t, stringWord a s = .raised t → putString writeWord a s = .raised t) ∧
    (∀ t, stringWord a s = .ok 0 t → putString writeWord a s = .ok () t) ∧
    (∀ w t, stringWord a s = .ok w t → w ≠ 0 →
      (∀ u, writeWord w t = .raised u → putString writeWord a s = .raised u) ∧
      (∀ u, writeWord w t = .ok () u →
        (a ≠ 0xFFFF → putString writeWord a s = putString writeWord (a + 1) u) ∧
        (a = 0xFFFF → u.cfg.stringOverrun = .fault →
          putString writeWord a s = .raised (u.recordErr (.unspecified .stringOverrun))) ∧
        (a = 0xFFFF → u.cfg.stringOverrun = .wrap → putString writeWord a s = putString writeWord 0 u))))
end

