-- ==== Sys2Proof/Laws/State.lean ====
section
/-! SUPPORT. One lemma per field per update of the state, each true by rfl, so that no proof unfolds a record update; then
what each update does to what a register, a cell and the output read as. -/

namespace Sys2Proof.Machine

variable (s : State)

/-! ### `Console.atCreation` -/

@[simp] theorem Console.atCreation_input (c : Console) : c.atCreation.input = c.input := rfl
@[simp] theorem Console.atCreation_polls (c : Console) : c.atCreation.polls = c.polls := rfl
@[simp] theorem Console.atCreation_writes (c : Console) : c.atCreation.writes = c.writes := rfl
@[simp] theorem Console.atCreation_flushes (c : Console) : c.atCreation.flushes = c.flushes := rfl
@[simp] theorem Console.atCreation_buffer (c : Console) : c.atCreation.buffer = [] := rfl
@[simp] theorem Console.atCreation_delivered (c : Console) : c.atCreation.delivered = [] := rfl

/-! ### `setReg` -/

@[simp] theorem State.setReg_gpr (i : Reg) (v : Word) : (s.setReg i v).gpr = s.gpr.set i.val v i.isLt := rfl
@[simp] theorem State.setReg_pc (i : Reg) (v : Word) : (s.setReg i v).pc = s.pc := rfl
@[simp] theorem State.setReg_cond (i : Reg) (v : Word) : (s.setReg i v).cond = s.cond := rfl
@[simp] theorem State.setReg_mem (i : Reg) (v : Word) : (s.setReg i v).mem = s.mem := rfl
@[simp] theorem State.setReg_run (i : Reg) (v : Word) : (s.setReg i v).run = s.run := rfl
@[simp] theorem State.setReg_err (i : Reg) (v : Word) : (s.setReg i v).err = s.err := rfl
@[simp] theorem State.setReg_con (i : Reg) (v : Word) : (s.setReg i v).con = s.con := rfl
@[simp] theorem State.setReg_cfg (i : Reg) (v : Word) : (s.setReg i v).cfg = s.cfg := rfl

/-! ### `setPc` -/

@[simp] theorem State.setPc_gpr (v : Word) : (s.setPc v).gpr = s.gpr := rfl
@[simp] theorem State.setPc_pc (v : Word) : (s.setPc v).pc = v := rfl
@[simp] theorem State.setPc_cond (v : Word) : (s.setPc v).cond = s.cond := rfl
@[simp] theorem State.setPc_mem (v : Word) : (s.setPc v).mem = s.mem := rfl
@[simp] theorem State.setPc_run (v : Word) : (s.setPc v).run = s.run := rfl
@[simp] theorem State.setPc_err (v : Word) : (s.setPc v).err = s.err := rfl
@[simp] theorem State.setPc_con (v : Word) : (s.setPc v).con = s.con := rfl
@[simp] theorem State.setPc_cfg (v : Word) : (s.setPc v).cfg = s.cfg := rfl

/-! ### `setCond` -/

@[simp] theorem State.setCond_gpr (c : Cond) : (s.setCond c).gpr = s.gpr := rfl
@[simp] theorem State.setCond_pc (c : Cond) : (s.setCond c).pc = s.pc := rfl
@[simp] theorem State.setCond_cond (c : Cond) : (s.setCond c).cond = c := rfl
@[simp] theorem State.setCond_mem (c : Cond) : (s.setCond c).mem = s.mem := rfl
@[simp] theorem State.setCond_run (c : Cond) : (s.setCond c).run = s.run := rfl
@[simp] theorem State.setCond_err (c : Cond) : (s.setCond c).err = s.err := rfl
@[simp] theorem State.setCond_con (c : Cond) : (s.setCond c).con = s.con := rfl
@[simp] theorem State.setCond_cfg (c : Cond) : (s.setCond c).cfg = s.cfg := rfl

/-! ### `setMem` -/

@[simp] theorem State.setMem_gpr (m : Memory) : (s.setMem m).gpr = s.gpr := rfl
@[simp] theorem State.setMem_pc (m : Memory) : (s.setMem m).pc = s.pc := rfl
@[simp] theorem State.setMem_cond (m : Memory) : (s.setMem m).cond = s.cond := rfl
@[simp] theorem State.setMem_mem (m : Memory) : (s.setMem m).mem = m := rfl
@[simp] theorem State.setMem_run (m : Memory) : (s.setMem m).run = s.run := rfl
@[simp] theorem State.setMem_err (m : Memory) : (s.setMem m).err = s.err := rfl
@[simp] theorem State.setMem_con (m : Memory) : (s.setMem m).con = s.con := rfl
@[simp] theorem State.setMem_cfg (m : Memory) : (s.setMem m).cfg = s.cfg := rfl

/-! ### `setCon` -/

@[simp] theorem State.setCon_gpr (c : Console) : (s.setCon c).gpr = s.gpr := rfl
@[simp] theorem State.setCon_pc (c : Console) : (s.setCon c).pc = s.pc := rfl
@[simp] theorem State.setCon_cond (c : Console) : (s.setCon c).cond = s.cond := rfl
@[simp] theorem State.setCon_mem (c : Console) : (s.setCon c).mem = s.mem := rfl
@[simp] theorem State.setCon_run (c : Console) : (s.setCon c).run = s.run := rfl
@[simp] theorem State.setCon_err (c : Console) : (s.setCon c).err = s.err := rfl
@[simp] theorem State.setCon_con (c : Console) : (s.setCon c).con = c := rfl
@[simp] theorem State.setCon_cfg (c : Console) : (s.setCon c).cfg = s.cfg := rfl

/-! ### `halt` -/

@[simp] theorem State.halt_gpr : s.halt.gpr = s.gpr := rfl
@[simp] theorem State.halt_pc : s.halt.pc = s.pc := rfl
@[simp] theorem State.halt_cond : s.halt.cond = s.cond := rfl
@[simp] theorem State.halt_mem : s.halt.mem = s.mem := rfl
@[simp] theorem State.halt_run : s.halt.run = .halted := rfl
@[simp] theorem State.halt_err : s.halt.err = s.err := rfl
@[simp] theorem State.halt_con : s.halt.con = s.con := rfl
@[simp] theorem State.halt_cfg : s.halt.cfg = s.cfg := rfl

/-! ### `recordErr` -/

@[simp] theorem State.recordErr_gpr (e : Err) : (s.recordErr e).gpr = s.gpr := rfl
@[simp] theorem State.recordErr_pc (e : Err) : (s.recordErr e).pc = s.pc := rfl
@[simp] theorem State.recordErr_cond (e : Err) : (s.recordErr e).cond = s.cond := rfl
@[simp] theorem State.recordErr_mem (e : Err) : (s.recordErr e).mem = s.mem := rfl
@[simp] theorem State.recordErr_run (e : Err) : (s.recordErr e).run = s.run := rfl
@[simp] theorem State.recordErr_err (e : Err) : (s.recordErr e).err = some e := rfl
@[simp] theorem State.recordErr_con (e : Err) : (s.recordErr e).con = s.con := rfl
@[simp] theorem State.recordErr_cfg (e : Err) : (s.recordErr e).cfg = s.cfg := rfl

/-! ### `saveLink` -/

@[simp] theorem State.saveLink_gpr : s.saveLink.gpr = s.gpr.set (7 : Reg).val s.pc (7 : Reg).isLt := rfl
@[simp] theorem State.saveLink_pc : s.saveLink.pc = s.pc := rfl
@[simp] theorem State.saveLink_cond : s.saveLink.cond = s.cond := rfl
@[simp] theorem State.saveLink_mem : s.saveLink.mem = s.mem := rfl
@[simp] theorem State.saveLink_run : s.saveLink.run = s.run := rfl
@[simp] theorem State.saveLink_err : s.saveLink.err = s.err := rfl
@[simp] theorem State.saveLink_con : s.saveLink.con = s.con := rfl
@[simp] theorem State.saveLink_cfg : s.saveLink.cfg = s.cfg := rfl

/-! ### `memWrite` -/

@[simp] theorem State.memWrite_gpr (a v : Word) : (s.memWrite a v).gpr = s.gpr := rfl
@[simp] theorem State.memWrite_pc (a v : Word) : (s.memWrite a v).pc = s.pc := rfl
@[simp] theorem State.memWrite_cond (a v : Word) : (s.memWrite a v).cond = s.cond := rfl
@[simp] theorem State.memWrite_mem (a v : Word) : (s.memWrite a v).mem = s.mem.write a.toNat v := rfl
@[simp] theorem State.memWrite_run (a v : Word) : (s.memWrite a v).run = s.run := rfl
@[simp] theorem State.memWrite_err (a v : Word) : (s.memWrite a v).err = s.err := rfl
@[simp] theorem State.memWrite_con (a v : Word) : (s.memWrite a v).con = s.con := rfl
@[simp] theorem State.memWrite_cfg (a v : Word) : (s.memWrite a v).cfg = s.cfg := rfl

/-! ### `setcc` -/

@[simp] theorem State.setcc_gpr (v : Word) : (s.setcc v).gpr = s.gpr := rfl
@[simp] theorem State.setcc_pc (v : Word) : (s.setcc v).pc = s.pc := rfl
@[simp] theorem State.setcc_cond (v : Word) : (s.setcc v).cond = condOf v := rfl
@[simp] theorem State.setcc_mem (v : Word) : (s.setcc v).mem = s.mem := rfl
@[simp] theorem State.setcc_run (v : Word) : (s.setcc v).run = s.run := rfl
@[simp] theorem State.setcc_err (v : Word) : (s.setcc v).err = s.err := rfl
@[simp] theorem State.setcc_con (v : Word) : (s.setcc v).con = s.con := rfl
@[simp] theorem State.setcc_cfg (v : Word) : (s.setcc v).cfg = s.cfg := rfl

/-! ### `writeResult` -/

@[simp] theorem State.writeResult_gpr (i : Reg) (v : Word) : (s.writeResult i v).gpr = s.gpr.set i.val v i.isLt := rfl
@[simp] theorem State.writeResult_pc (i : Reg) (v : Word) : (s.writeResult i v).pc = s.pc := rfl
@[simp] theorem State.writeResult_cond (i : Reg) (v : Word) : (s.writeResult i v).cond = condOf v := rfl
@[simp] theorem State.writeResult_mem (i : Reg) (v : Word) : (s.writeResult i v).mem = s.mem := rfl
@[simp] theorem State.writeResult_run (i : Reg) (v : Word) : (s.writeResult i v).run = s.run := rfl
@[simp] theorem State.writeResult_err (i : Reg) (v : Word) : (s.writeResult i v).err = s.err := rfl
@[simp] theorem State.writeResult_con (i : Reg) (v : Word) : (s.writeResult i v).con = s.con := rfl
@[simp] theorem State.writeResult_cfg (i : Reg) (v : Word) : (s.writeResult i v).cfg = s.cfg := rfl

/-! ### What registers read as -/

theorem State.reg_of_gpr {s t : State} (h : t.gpr = s.gpr) (r : Reg) : t.reg r = s.reg r := by
  simp [State.reg, h]

theorem State.setReg_reg (i r : Reg) (v : Word) : (s.setReg i v).reg r = if i = r then v else s.reg r := by
  simp [State.reg, State.setReg, Vector.get_eq_getElem, Vector.getElem_set, Fin.ext_iff]

@[simp] theorem State.setReg_reg_same (i : Reg) (v : Word) : (s.setReg i v).reg i = v := by
  simp [State.setReg_reg]

theorem State.setReg_reg_other {i r : Reg} (h : i ≠ r) (v : Word) : (s.setReg i v).reg r = s.reg r := by
  simp [State.setReg_reg, h]

theorem State.writeResult_reg (i r : Reg) (v : Word) : (s.writeResult i v).reg r = if i = r then v else s.reg r :=
  State.setReg_reg s i r v

@[simp] theorem State.writeResult_reg_same (i : Reg) (v : Word) : (s.writeResult i v).reg i = v := by
  simp [State.writeResult_reg]

theorem State.saveLink_reg (r : Reg) : s.saveLink.reg r = if 7 = r then s.pc else s.reg r :=
  State.setReg_reg s 7 r s.pc

@[simp] theorem State.saveLink_reg_link : s.saveLink.reg 7 = s.pc := by
  simp [State.saveLink_reg]

@[simp] theorem State.setPc_reg (v : Word) (r : Reg) : (s.setPc v).reg r = s.reg r := rfl
@[simp] theorem State.setCond_reg (c : Cond) (r : Reg) : (s.setCond c).reg r = s.reg r := rfl
@[simp] theorem State.setMem_reg (m : Memory) (r : Reg) : (s.setMem m).reg r = s.reg r := rfl
@[simp] theorem State.setCon_reg (c : Console) (r : Reg) : (s.setCon c).reg r = s.reg r := rfl
@[simp] theorem State.halt_reg (r : Reg) : s.halt.reg r = s.reg r := rfl
@[simp] theorem State.recordErr_reg (e : Err) (r : Reg) : (s.recordErr e).reg r = s.reg r := rfl
@[simp] theorem State.memWrite_reg (a v : Word) (r : Reg) : (s.memWrite a v).reg r = s.reg r := rfl
@[simp] theorem State.setcc_reg (v : Word) (r : Reg) : (s.setcc v).reg r = s.reg r := rfl

/-! ### What cells read as -/

@[simp] theorem State.setReg_cell (i : Reg) (v : Word) (a : Word) : (s.setReg i v).cell a = s.cell a := rfl
@[simp] theorem State.setPc_cell (v : Word) (a : Word) : (s.setPc v).cell a = s.cell a := rfl
@[simp] theorem State.setCond_cell (c : Cond) (a : Word) : (s.setCond c).cell a = s.cell a := rfl
@[simp] theorem State.setCon_cell (c : Console) (a : Word) : (s.setCon c).cell a = s.cell a := rfl
@[simp] theorem State.halt_cell (a : Word) : s.halt.cell a = s.cell a := rfl
@[simp] theorem State.recordErr_cell (e : Err) (a : Word) : (s.recordErr e).cell a = s.cell a := rfl
@[simp] theorem State.saveLink_cell (a : Word) : s.saveLink.cell a = s.cell a := rfl
@[simp] theorem State.setcc_cell (v : Word) (a : Word) : (s.setcc v).cell a = s.cell a := rfl
@[simp] theorem State.writeResult_cell (i : Reg) (v : Word) (a : Word) : (s.writeResult i v).cell a = s.cell a := rfl

theorem State.cell_of_mem {s t : State} (h : t.mem = s.mem) (a : Word) : t.cell a = s.cell a := by
  simp [State.cell, h]

/-! ### What has been written to the output -/

theorem State.written_of_con {s t : State} (h : t.con = s.con) : t.written = s.written := by
  simp [State.written, h]

@[simp] theorem State.setReg_written (i : Reg) (v : Word) : (s.setReg i v).written = s.written := rfl
@[simp] theorem State.setPc_written (v : Word) : (s.setPc v).written = s.written := rfl
@[simp] theorem State.setCond_written (c : Cond) : (s.setCond c).written = s.written := rfl
@[simp] theorem State.setMem_written (m : Memory) : (s.setMem m).written = s.written := rfl
@[simp] theorem State.halt_written : s.halt.written = s.written := rfl
@[simp] theorem State.recordErr_written (e : Err) : (s.recordErr e).written = s.written := rfl
@[simp] theorem State.saveLink_written : s.saveLink.written = s.written := rfl
@[simp] theorem State.memWrite_written (a v : Word) : (s.memWrite a v).written = s.written := rfl
@[simp] theorem State.setcc_written (v : Word) : (s.setcc v).written = s.written := rfl
@[simp] theorem State.writeResult_written (i : Reg) (v : Word) : (s.writeResult i v).written = s.written := rfl

end Sys2Proof.Machine
end

