-- ==== Sys2Proof/Laws/Memory.lean ====
section
/-! SUPPORT. The laws of memory: a write is read back, every other address keeps its word, and the canonical form is kept. -/

namespace Sys2Proof.Machine

theorem Memory.read_erase_same (m : Memory) (a : Nat) : Memory.read (m.erase a) a = Memory.unlisted := by
  induction m with
  | nil => rfl
  | cons c m ih =>
    obtain ⟨b, v⟩ := c
    by_cases h : b = a
    · simpa [Memory.erase, h] using ih
    · simpa [Memory.erase, Memory.read, h, Ne.symm h] using ih

theorem Memory.read_erase_other (m : Memory) {a b : Nat} (hab : b ≠ a) :
    Memory.read (m.erase a) b = Memory.read m b := by
  induction m with
  | nil => rfl
  | cons c m ih =>
    obtain ⟨d, v⟩ := c
    by_cases h : d = a
    · subst h
      simpa [Memory.erase, Memory.read, hab] using ih
    · by_cases hb : b = d
      · simp [Memory.erase, Memory.read, h, hb]
      · simpa [Memory.erase, Memory.read, h, hb] using ih

theorem Memory.read_insert_same (m : Memory) (a : Nat) (v : Word) (h : ∀ c ∈ m, c.1 ≠ a) :
    Memory.read (Memory.insert m a v) a = v := by
  induction m with
  | nil => simp [Memory.insert, Memory.read]
  | cons c m ih =>
    obtain ⟨b, w⟩ := c
    have hb : a ≠ b := fun e => h (b, w) (by simp) e.symm
    by_cases hlt : a < b
    · simp [Memory.insert, Memory.read, hlt]
    · simp [Memory.insert, Memory.read, hlt, hb, ih (fun c hc => h c (by simp [hc]))]

theorem Memory.read_insert_other (m : Memory) {a b : Nat} (v : Word) (hab : b ≠ a) :
    Memory.read (Memory.insert m a v) b = Memory.read m b := by
  induction m with
  | nil => simp [Memory.insert, Memory.read, hab]
  | cons c m ih =>
    obtain ⟨d, w⟩ := c
    by_cases hlt : a < d
    · simp [Memory.insert, Memory.read, hlt, hab]
    · simp [Memory.insert, Memory.read, hlt, ih]

theorem Memory.read_write (m : Memory) (a b : Nat) (v : Word) :
    Memory.read (m.write a v) b = if b = a then v else Memory.read m b := by
  unfold Memory.write
  by_cases hv : v = Memory.unlisted
  · by_cases hb : b = a
    · simp [hv, hb, Memory.read_erase_same]
    · simp [hv, hb, Memory.read_erase_other]
  · by_cases hb : b = a
    · subst hb
      simp only [hv, if_false, if_true]
      exact Memory.read_insert_same _ _ _ (by simp [Memory.erase])
    · simp [hv, hb, Memory.read_insert_other, Memory.read_erase_other]

@[simp] theorem Memory.read_write_same (m : Memory) (a : Nat) (v : Word) : Memory.read (m.write a v) a = v := by
  simp [Memory.read_write]

theorem Memory.read_write_other (m : Memory) {a b : Nat} (v : Word) (h : b ≠ a) :
    Memory.read (m.write a v) b = Memory.read m b := by
  simp [Memory.read_write, h]

/-- What a run of stores reads as afterwards. -/
theorem Memory.read_writeAll (ws : List Word) (m : Memory) (o a : Nat) :
    Memory.read (m.writeAll o ws) a = if o ≤ a then (ws[a - o]?).getD (Memory.read m a) else Memory.read m a := by
  induction ws generalizing m o with
  | nil => simp [Memory.writeAll]
  | cons w ws ih =>
    rw [Memory.writeAll, ih, Memory.read_write]
    by_cases h : o ≤ a
    · by_cases h1 : a = o
      · subst h1
        simp
      · obtain ⟨k, hk⟩ : ∃ k, a - o = k + 1 := ⟨a - o - 1, by omega⟩
        have hk' : a - (o + 1) = k := by omega
        have : o + 1 ≤ a := by omega
        simp [h, h1, this, hk, hk']
    · have h1 : ¬o + 1 ≤ a := by omega
      have h2 : a ≠ o := by omega
      simp [h, h1, h2]

/-! ### The canonical form -/

theorem Memory.wfFrom_cons (lo a : Nat) (v : Word) (m : Memory) :
    Memory.wfFrom lo ((a, v) :: m) = true ↔
      lo ≤ a ∧ a < 65536 ∧ v ≠ Memory.unlisted ∧ Memory.wfFrom (a + 1) m = true := by
  simp [Memory.wfFrom, and_assoc]

theorem Memory.wfFrom_mono {lo lo' : Nat} (h : lo' ≤ lo) {m : Memory} (hm : Memory.wfFrom lo m = true) :
    Memory.wfFrom lo' m = true := by
  cases m with
  | nil => rfl
  | cons c m =>
    obtain ⟨a, v⟩ := c
    rw [Memory.wfFrom_cons] at hm ⊢
    exact ⟨h.trans hm.1, hm.2⟩

theorem Memory.wfFrom_erase {lo : Nat} {m : Memory} (a : Nat) (hm : Memory.wfFrom lo m = true) :
    Memory.wfFrom lo (m.erase a) = true := by
  induction m generalizing lo with
  | nil => rfl
  | cons c m ih =>
    obtain ⟨b, v⟩ := c
    rw [Memory.wfFrom_cons] at hm
    by_cases h : b = a
    · simpa [Memory.erase, h] using ih (Memory.wfFrom_mono (Nat.le_succ_of_le hm.1) hm.2.2.2)
    · have := ih hm.2.2.2
      simp only [Memory.erase] at this ⊢
      simp only [List.filter_cons, h, ne_eq, not_false_eq_true, decide_true, if_true]
      exact (Memory.wfFrom_cons ..).2 ⟨hm.1, hm.2.1, hm.2.2.1, this⟩

theorem Memory.wfFrom_insert {lo a : Nat} {m : Memory} {v : Word} (hm : Memory.wfFrom lo m = true) (hlo : lo ≤ a)
    (ha : a < 65536) (hv : v ≠ Memory.unlisted) (hfresh : ∀ c ∈ m, c.1 ≠ a) :
    Memory.wfFrom lo (Memory.insert m a v) = true := by
  induction m generalizing lo with
  | nil => simp [Memory.insert, Memory.wfFrom, hlo, ha, hv]
  | cons c m ih =>
    obtain ⟨b, w⟩ := c
    rw [Memory.wfFrom_cons] at hm
    have hb : b ≠ a := hfresh (b, w) (by simp)
    by_cases hlt : a < b
    · simp only [Memory.insert, hlt, if_true]
      exact (Memory.wfFrom_cons ..).2 ⟨hlo, ha, hv, (Memory.wfFrom_cons ..).2 ⟨hlt, hm.2⟩⟩
    · simp only [Memory.insert, hlt, if_false]
      exact (Memory.wfFrom_cons ..).2
        ⟨hm.1, hm.2.1, hm.2.2.1, ih hm.2.2.2 (by omega) (fun c hc => hfresh c (by simp [hc]))⟩

/-- Every write keeps the canonical form. -/
theorem Memory.wf_write {m : Memory} {a : Nat} (v : Word) (hm : m.wf = true) (ha : a < 65536) :
    (m.write a v).wf = true := by
  unfold Memory.write Memory.wf at *
  by_cases hv : v = Memory.unlisted
  · simpa [hv] using Memory.wfFrom_erase a hm
  · simpa [hv] using Memory.wfFrom_insert (Memory.wfFrom_erase a hm) (Nat.zero_le a) ha hv (by simp [Memory.erase])

/-- Storing words that fit keeps the canonical form. -/
theorem Memory.wf_writeAll {m : Memory} {a : Nat} {ws : List Word} (hm : m.wf = true) (h : a + ws.length ≤ 65536) :
    (m.writeAll a ws).wf = true := by
  induction ws generalizing m a with
  | nil => exact hm
  | cons w ws ih =>
    simp only [List.length_cons] at h
    exact ih (Memory.wf_write w hm (by omega)) (by omega)

/-- Reset memory has the canonical form. -/
theorem State.reset_mem_wf : State.reset.mem.wf = true := rfl

/-! ### Cells -/

theorem State.memWrite_cell (s : State) (a b v : Word) : (s.memWrite a v).cell b = if b = a then v else s.cell b := by
  simp [State.cell, State.memWrite, State.setMem, Memory.read_write, BitVec.toNat_inj]

@[simp] theorem State.memWrite_cell_same (s : State) (a v : Word) : (s.memWrite a v).cell a = v := by
  simp [State.memWrite_cell]

theorem State.memWrite_cell_other (s : State) {a b : Word} (v : Word) (h : b ≠ a) :
    (s.memWrite a v).cell b = s.cell b := by
  simp [State.memWrite_cell, h]

theorem State.memWrite_wf {s : State} (a v : Word) (h : s.mem.wf = true) : (s.memWrite a v).mem.wf = true :=
  Memory.wf_write v h a.isLt

end Sys2Proof.Machine
end

