-- ==== Sys2Proof/Laws/Effect.lean ====
section
/-! SUPPORT. Reasoning about effects without unfolding them: what holds of every way a piece of pseudocode can come out is
said by `Effect.Post`, and one rule carries it through `andThen`. -/

namespace Sys2Proof.Machine

/-- Whatever comes out: going on satisfies `Q`, and an error leaves a state that satisfies `E`. -/
def Effect.Post {α : Type} (Q : α → State → Prop) (E : State → Prop) : Effect α → Prop
  | .ok v s => Q v s
  | .raised s => E s
  | .stuck _ => True

section

variable {α β : Type}

@[simp] theorem Effect.ok_andThen (v : α) (s : State) (k : α → State → Effect β) :
    (Effect.ok v s).andThen k = k v s := rfl

@[simp] theorem Effect.raised_andThen (s : State) (k : α → State → Effect β) :
    (Effect.raised s : Effect α).andThen k = .raised s := rfl

@[simp] theorem Effect.stuck_andThen (f : Fault) (k : α → State → Effect β) :
    (Effect.stuck f : Effect α).andThen k = .stuck f := rfl

@[simp] theorem Effect.ok_outcome (v : Unit) (s : State) : (Effect.ok v s).outcome = .next s := rfl

@[simp] theorem Effect.raised_outcome (s : State) : (Effect.raised s).outcome = .next s := rfl

@[simp] theorem Effect.stuck_outcome (f : Fault) : (Effect.stuck f).outcome = .fault f := rfl

@[simp] theorem raise_eq (e : Err) (s : State) : (raise e s : Effect α) = .raised (s.recordErr e) := rfl

@[simp] theorem Effect.post_ok (Q : α → State → Prop) (E : State → Prop) (v : α) (s : State) :
    (Effect.ok v s).Post Q E ↔ Q v s := Iff.rfl

@[simp] theorem Effect.post_raised (Q : α → State → Prop) (E : State → Prop) (s : State) :
    (Effect.raised s : Effect α).Post Q E ↔ E s := Iff.rfl

@[simp] theorem Effect.post_stuck (Q : α → State → Prop) (E : State → Prop) (f : Fault) :
    (Effect.stuck f : Effect α).Post Q E := trivial

/-- One thing after another. -/
theorem Effect.post_andThen {Q : α → State → Prop} {E : State → Prop} {R : β → State → Prop} {e : Effect α}
    {k : α → State → Effect β} (he : e.Post Q E) (hk : ∀ v s, Q v s → (k v s).Post R E) : (e.andThen k).Post R E := by
  cases e with
  | ok v s => exact hk v s he
  | raised s => exact he
  | stuck f => trivial

theorem Effect.post_mono {Q Q' : α → State → Prop} {E E' : State → Prop} {e : Effect α} (he : e.Post Q E)
    (hQ : ∀ v s, Q v s → Q' v s) (hE : ∀ s, E s → E' s) : e.Post Q' E' := by
  cases e with
  | ok v s => exact hQ v s he
  | raised s => exact hE s he
  | stuck f => trivial

theorem Effect.post_and {Q Q' : α → State → Prop} {E E' : State → Prop} {e : Effect α} (h : e.Post Q E)
    (h' : e.Post Q' E') : e.Post (fun v s => Q v s ∧ Q' v s) (fun s => E s ∧ E' s) := by
  cases e with
  | ok v s => exact ⟨h, h'⟩
  | raised s => exact ⟨h, h'⟩
  | stuck f => trivial

end

/-- What an outcome's next state satisfies. -/
theorem Effect.post_outcome {P : State → Prop} {e : Effect Unit} {t : State} (he : e.Post (fun _ s => P s) P)
    (h : e.outcome = .next t) : P t := by
  cases e with
  | ok v s => exact Host.Outcome.next.inj h ▸ he
  | raised s => exact Host.Outcome.next.inj h ▸ he
  | stuck f => cases h

/-- The same, telling an instruction that went on from one that raised an error. -/
theorem Effect.post_outcome_or {Q E : State → Prop} {e : Effect Unit} {t : State} (he : e.Post (fun _ s => Q s) E)
    (h : e.outcome = .next t) : Q t ∨ E t := by
  cases e with
  | ok v s => exact .inl (Host.Outcome.next.inj h ▸ he)
  | raised s => exact .inr (Host.Outcome.next.inj h ▸ he)
  | stuck f => cases h

end Sys2Proof.Machine
end

