-- ==== Sys2Proof/Laws/Ops.lean ====
section
/-! SUPPORT. One lemma per shared operation that says everything it can do: the host's primitives, the keyboard poll, the
memory read and the fetch. Meanings cite these and do not unfold the operations. -/

namespace Sys2Proof.Machine

/-! ### Feeds -/

theorem Feed.take_known {α : Type} (free : Nat → α) (x : α) (xs : List α) (after : Option α) (n : Nat) :
    Feed.take free ⟨x :: xs, after, n⟩ = (x, ⟨xs, after, n⟩) := rfl

theorem Feed.take_after {α : Type} (free : Nat → α) (x : α) (n : Nat) :
    Feed.take free ⟨[], some x, n⟩ = (x, ⟨[], some x, n⟩) := rfl

theorem Feed.take_free {α : Type} (free : Nat → α) (n : Nat) :
    Feed.take free ⟨[], none, n⟩ = (free n, ⟨[], none, n + 1⟩) := rfl

/-! ### The streams: what taking an answer leaves alone -/

section

variable (c : Console)

@[simp] theorem Console.takeInput_polls : c.takeInput.2.polls = c.polls := rfl
@[simp] theorem Console.takeInput_writes : c.takeInput.2.writes = c.writes := rfl
@[simp] theorem Console.takeInput_flushes : c.takeInput.2.flushes = c.flushes := rfl
@[simp] theorem Console.takeInput_buffer : c.takeInput.2.buffer = c.buffer := rfl
@[simp] theorem Console.takeInput_delivered : c.takeInput.2.delivered = c.delivered := rfl
@[simp] theorem Console.takePoll_input : c.takePoll.2.input = c.input := rfl
@[simp] theorem Console.takePoll_writes : c.takePoll.2.writes = c.writes := rfl
@[simp] theorem Console.takePoll_flushes : c.takePoll.2.flushes = c.flushes := rfl
@[simp] theorem Console.takePoll_buffer : c.takePoll.2.buffer = c.buffer := rfl
@[simp] theorem Console.takePoll_delivered : c.takePoll.2.delivered = c.delivered := rfl
@[simp] theorem Console.takeWrite_input : c.takeWrite.2.input = c.input := rfl
@[simp] theorem Console.takeWrite_polls : c.takeWrite.2.polls = c.polls := rfl
@[simp] theorem Console.takeWrite_flushes : c.takeWrite.2.flushes = c.flushes := rfl
@[simp] theorem Console.takeWrite_buffer : c.takeWrite.2.buffer = c.buffer := rfl
@[simp] theorem Console.takeWrite_delivered : c.takeWrite.2.delivered = c.delivered := rfl
@[simp] theorem Console.takeFlush_input : c.takeFlush.2.input = c.input := rfl
@[simp] theorem Console.takeFlush_polls : c.takeFlush.2.polls = c.polls := rfl
@[simp] theorem Console.takeFlush_writes : c.takeFlush.2.writes = c.writes := rfl
@[simp] theorem Console.takeFlush_buffer : c.takeFlush.2.buffer = c.buffer := rfl
@[simp] theorem Console.takeFlush_delivered : c.takeFlush.2.delivered = c.delivered := rfl
@[simp] theorem Console.append_input (b : Byte) : (c.append b).input = c.input := rfl
@[simp] theorem Console.append_polls (b : Byte) : (c.append b).polls = c.polls := rfl
@[simp] theorem Console.append_writes (b : Byte) : (c.append b).writes = c.writes := rfl
@[simp] theorem Console.append_flushes (b : Byte) : (c.append b).flushes = c.flushes := rfl
@[simp] theorem Console.append_buffer (b : Byte) : (c.append b).buffer = c.buffer ++ [b] := rfl
@[simp] theorem Console.append_delivered (b : Byte) : (c.append b).delivered = c.delivered := rfl
@[simp] theorem Console.deliver_input : c.deliver.input = c.input := rfl
@[simp] theorem Console.deliver_polls : c.deliver.polls = c.polls := rfl
@[simp] theorem Console.deliver_writes : c.deliver.writes = c.writes := rfl
@[simp] theorem Console.deliver_flushes : c.deliver.flushes = c.flushes := rfl
@[simp] theorem Console.deliver_buffer : c.deliver.buffer = [] := rfl
@[simp] theorem Console.deliver_delivered : c.deliver.delivered = c.delivered ++ c.buffer := rfl

/-- A poll leaves the output side of the streams alone. -/
theorem Console.pollKey_output :
    c.pollKey.2.writes = c.writes ∧ c.pollKey.2.flushes = c.flushes ∧ c.pollKey.2.buffer = c.buffer ∧
      c.pollKey.2.delivered = c.delivered := by
  unfold Console.pollKey
  cases c.takePoll.1 with
  | noKey => exact ⟨rfl, rfl, rfl, rfl⟩
  | failure => exact ⟨rfl, rfl, rfl, rfl⟩
  | keyReady => cases c.takePoll.2.takeInput.1 <;> exact ⟨rfl, rfl, rfl, rfl⟩

/-- A poll takes an item of the input stream only when it answers with that byte. -/
theorem Console.pollKey_some {b : Byte} (h : c.pollKey.1 = .some b) :
    c.takePoll.1 = .keyReady ∧ c.takeInput.1 = .byte b ∧ c.pollKey.2 = c.takePoll.2.takeInput.2 := by
  unfold Console.pollKey at h ⊢
  cases hp : c.takePoll.1 with
  | noKey => simp [hp] at h
  | failure => simp [hp] at h
  | keyReady =>
    have hi : c.takePoll.2.takeInput.1 = c.takeInput.1 := rfl
    simp only [hp, hi] at h ⊢
    cases hin : c.takeInput.1 <;> simp_all

end

/-! ### The host's primitives -/

theorem putChar_ok {b : Byte} {s : State} (h : s.con.takeWrite.1 = .ok) :
    putChar b s = .ok () (s.setCon (s.con.takeWrite.2.append b)) := by
  simp [putChar, h]

theorem putChar_failure {b : Byte} {s : State} (h : s.con.takeWrite.1 = .failure) :
    putChar b s = .raised ((s.setCon s.con.takeWrite.2).recordErr .ioError) := by
  simp [putChar, h]

theorem flush_ok {s : State} (h : s.con.takeFlush.1 = .ok) :
    flush s = .ok () (s.setCon s.con.takeFlush.2.deliver) := by
  simp [flush, h]

theorem flush_failure {s : State} (h : s.con.takeFlush.1 = .failure) :
    flush s = .raised ((s.setCon s.con.takeFlush.2).recordErr .ioError) := by
  simp [flush, h]

/-- `PutChar` changes the streams only: the byte is appended, or an I/O error is recorded. -/
theorem putChar_post (b : Byte) (s : State) :
    (putChar b s).Post (fun _ t => ∃ c, t = s.setCon c ∧ t.written = s.written ++ [b])
      (fun t => ∃ c, t = (s.setCon c).recordErr .ioError ∧ t.written = s.written) := by
  cases h : s.con.takeWrite.1 with
  | ok =>
    rw [putChar_ok h]
    exact ⟨_, rfl, by simp [State.written]⟩
  | failure =>
    rw [putChar_failure h]
    exact ⟨_, rfl, by simp [State.written]⟩

/-- `Flush` changes the streams only, and never what has been written. -/
theorem flush_post (s : State) :
    (flush s).Post (fun _ t => ∃ c, t = s.setCon c ∧ t.written = s.written)
      (fun t => ∃ c, t = (s.setCon c).recordErr .ioError ∧ t.written = s.written) := by
  cases h : s.con.takeFlush.1 with
  | ok =>
    rw [flush_ok h]
    exact ⟨_, rfl, by simp [State.written]⟩
  | failure =>
    rw [flush_failure h]
    exact ⟨_, rfl, by simp [State.written]⟩

/-- Writing a byte string: all of it appended, or an I/O error after a first part of it. -/
theorem putBytes_post (bs : List Byte) (s : State) :
    (putBytes bs s).Post (fun _ t => ∃ c, t = s.setCon c ∧ t.written = s.written ++ bs)
      (fun t => ∃ c, t = (s.setCon c).recordErr .ioError ∧ ∃ bs', bs' <+: bs ∧ t.written = s.written ++ bs') := by
  induction bs generalizing s with
  | nil => exact ⟨s.con, rfl, by simp⟩
  | cons b bs ih =>
    refine Effect.post_andThen (Effect.post_mono (putChar_post b s) (fun _ _ h => h) ?_) ?_
    · rintro t ⟨c, rfl, hw⟩
      exact ⟨c, rfl, [], List.nil_prefix, by simpa using hw⟩
    · rintro _ t ⟨c, rfl, hw⟩
      refine Effect.post_mono (ih (s.setCon c)) ?_ ?_
      · rintro _ u ⟨c', rfl, hu⟩
        exact ⟨c', rfl, by simp [hu, hw]⟩
      · rintro u ⟨c', rfl, bs', hp, hu⟩
        exact ⟨c', rfl, b :: bs', by simpa using hp, by simp [hu, hw]⟩

/-- `GetChar` changes the streams only, and nothing of the output. -/
theorem getChar_post (s : State) :
    (getChar s).Post (fun b t => s.con.takeInput = (.byte b, t.con) ∧ t = s.setCon t.con ∧ t.written = s.written)
      (fun t => ∃ c, t = (s.setCon c).recordErr .ioError ∧ t.written = s.written) := by
  unfold getChar
  cases h : s.con.takeInput.1 with
  | byte b => exact ⟨Prod.ext h rfl, rfl, rfl⟩
  | endOfInput => exact ⟨_, rfl, rfl⟩
  | failure => exact ⟨_, rfl, rfl⟩
  | silence => trivial

/-! ### The memory controller -/

/-- What a poll of the keyboard can do: it changes the streams and the two device cells, or it records an I/O error and
leaves both cells. -/
theorem pollKeyboard_post (s : State) :
    (pollKeyboard s).Post
      (fun _ t => ∃ r, s.con.pollKey = (r, t.con) ∧ r ≠ .failed ∧ t = (s.setCon t.con).refreshKeyboard r)
      (fun t => s.con.pollKey = (.failed, t.con) ∧ t = (s.setCon t.con).recordErr .ioError) := by
  unfold pollKeyboard
  cases h : s.con.pollKey.1 with
  | none => exact ⟨.none, Prod.ext h rfl, by simp, rfl⟩
  | some b => exact ⟨.some b, Prod.ext h rfl, by simp, rfl⟩
  | failed => exact ⟨Prod.ext h rfl, rfl⟩

theorem memRead_pure {a : Word} {s : State} (h : a ≠ s.cfg.kbsrAddr) : memRead a s = .ok (s.cell a) s := by
  simp [memRead, h]

theorem memRead_status (s : State) :
    memRead s.cfg.kbsrAddr s = (pollKeyboard s).andThen fun _ t => .ok (t.cell s.cfg.kbsrAddr) t := by
  simp [memRead]

/-- Everything a memory read can do. -/
theorem memRead_post (a : Word) (s : State) :
    (memRead a s).Post
      (fun v t => v = t.cell a ∧ ((a ≠ s.cfg.kbsrAddr ∧ t = s) ∨
        (a = s.cfg.kbsrAddr ∧ ∃ r, s.con.pollKey = (r, t.con) ∧ r ≠ .failed ∧ t = (s.setCon t.con).refreshKeyboard r)))
      (fun t => a = s.cfg.kbsrAddr ∧ s.con.pollKey = (.failed, t.con) ∧ t = (s.setCon t.con).recordErr .ioError) := by
  by_cases h : a = s.cfg.kbsrAddr
  · subst h
    rw [memRead_status]
    refine Effect.post_andThen (Effect.post_mono (pollKeyboard_post s) (fun _ _ h => h) ?_) ?_
    · exact fun t ht => ⟨rfl, ht⟩
    · exact fun _ t ht => ⟨rfl, .inr ⟨rfl, ht⟩⟩
  · rw [memRead_pure h]
    exact ⟨rfl, .inl ⟨h, rfl⟩⟩

/-- A refresh writes memory only. -/
theorem State.refreshKeyboard_eq (s : State) (r : KeyPoll) : s.refreshKeyboard r = s.setMem (s.refreshKeyboard r).mem := by
  cases r <;> rfl

/-- A refresh leaves every cell that is no device register. -/
theorem State.refreshKeyboard_cell_other (s : State) (r : KeyPoll) {a : Word} (h : a ≠ s.cfg.kbsrAddr)
    (h' : a ≠ s.cfg.kbdrAddr) : (s.refreshKeyboard r).cell a = s.cell a := by
  cases r <;> simp [State.refreshKeyboard, State.memWrite_cell, h, h']

theorem State.refreshKeyboard_wf {s : State} (r : KeyPoll) (h : s.mem.wf = true) : (s.refreshKeyboard r).mem.wf = true := by
  cases r with
  | none => exact State.memWrite_wf _ _ h
  | some b => exact State.memWrite_wf _ _ (State.memWrite_wf _ _ h)
  | failed => exact h

/-- A memory read changes memory and the streams only, and an error of it is an I/O error. -/
theorem memRead_shape (a : Word) (s : State) :
    (memRead a s).Post (fun v t => v = t.cell a ∧ ∃ m c, t = (s.setMem m).setCon c)
      (fun t => ∃ c, t = (s.setCon c).recordErr .ioError) := by
  refine Effect.post_mono (memRead_post a s) ?_ ?_
  · rintro v t ⟨hv, ⟨-, rfl⟩ | ⟨-, r, -, -, ht⟩⟩
    · exact ⟨hv, t.mem, t.con, rfl⟩
    · rw [State.refreshKeyboard_eq] at ht
      exact ⟨hv, _, _, ht⟩
  · rintro t ⟨-, -, ht⟩
    exact ⟨_, ht⟩

/-- Everything the fetch can do: the word read, the pc incremented; or the failed poll's error, the pc as it was. -/
theorem fetch_post (s : State) :
    (fetch s).Post
      (fun w t => ∃ u, memRead s.pc s = .ok w u ∧ t = u.setPc (s.pc + 1))
      (fun t => memRead s.pc s = .raised t) := by
  unfold fetch
  have h := memRead_shape s.pc s
  cases hm : memRead s.pc s with
  | ok w u =>
    rw [hm] at h
    obtain ⟨-, m, c, hu⟩ := h
    exact ⟨u, rfl, by rw [hu]; rfl⟩
  | raised t => exact rfl
  | stuck f => trivial

theorem fetch_pure {s : State} (h : s.pc ≠ s.cfg.kbsrAddr) : fetch s = .ok (s.cell s.pc) (s.setPc (s.pc + 1)) := by
  simp [fetch, memRead_pure h]

end Sys2Proof.Machine
end

