-- ==== Sys2Proof/Laws/Io.lean ====
section
/-! SUPPORT. What reading memory and talking to the host can change: the streams and the device cells, nothing else. One
relation says so for every shared operation, and composes. -/

namespace Sys2Proof.Machine

/-- `t` is `s` after some reads of memory and some host requests: only the streams and the device cells may differ, memory
keeps its canonical form, and the output has only grown. -/
structure IoOnly (s t : State) : Prop where
  gpr : t.gpr = s.gpr
  pc : t.pc = s.pc
  cond : t.cond = s.cond
  run : t.run = s.run
  err : t.err = s.err
  cfg : t.cfg = s.cfg
  cells : ∀ a : Word, a ≠ s.cfg.kbsrAddr → a ≠ s.cfg.kbdrAddr → t.cell a = s.cell a
  wf : s.mem.wf = true → t.mem.wf = true
  written : s.written <+: t.written
  delivered : s.con.delivered <+: t.con.delivered

theorem IoOnly.refl (s : State) : IoOnly s s :=
  ⟨rfl, rfl, rfl, rfl, rfl, rfl, fun _ _ _ => rfl, id, List.prefix_rfl, List.prefix_rfl⟩

theorem IoOnly.trans {s t u : State} (h : IoOnly s t) (h' : IoOnly t u) : IoOnly s u where
  gpr := h'.gpr.trans h.gpr
  pc := h'.pc.trans h.pc
  cond := h'.cond.trans h.cond
  run := h'.run.trans h.run
  err := h'.err.trans h.err
  cfg := h'.cfg.trans h.cfg
  cells a ha hb := (h'.cells a (h.cfg ▸ ha) (h.cfg ▸ hb)).trans (h.cells a ha hb)
  wf := h'.wf ∘ h.wf
  written := h.written.trans h'.written
  delivered := h.delivered.trans h'.delivered

theorem IoOnly.reg {s t : State} (h : IoOnly s t) (r : Reg) : t.reg r = s.reg r := State.reg_of_gpr h.gpr r

/-- A change of the streams that only adds to the output. -/
theorem IoOnly.setCon (s : State) {c : Console} (hw : s.written <+: (s.setCon c).written)
    (hd : s.con.delivered <+: c.delivered) : IoOnly s (s.setCon c) :=
  ⟨rfl, rfl, rfl, rfl, rfl, rfl, fun _ _ _ => rfl, id, hw, hd⟩

/-- An effect that reads memory and talks to the host only; its errors are among `errs`. -/
def Effect.Io {α : Type} (errs : Err → Prop) (s : State) (e : Effect α) : Prop :=
  e.Post (fun _ t => IoOnly s t) (fun t => ∃ u x, IoOnly s u ∧ errs x ∧ t = u.recordErr x)

theorem Effect.Io.andThen {α β : Type} {errs : Err → Prop} {s : State} {e : Effect α} {k : α → State → Effect β}
    (he : e.Io errs s) (hk : ∀ v t, (k v t).Io errs t) : (e.andThen k).Io errs s := by
  refine Effect.post_andThen he fun v t ht => Effect.post_mono (hk v t) (fun _ _ h => ht.trans h) ?_
  rintro u ⟨u', x, hu, hx, rfl⟩
  exact ⟨u', x, ht.trans hu, hx, rfl⟩

theorem Effect.Io.mono {α : Type} {errs errs' : Err → Prop} {s : State} {e : Effect α} (he : e.Io errs s)
    (h : ∀ x, errs x → errs' x) : e.Io errs' s :=
  Effect.post_mono he (fun _ _ h => h) fun _ ⟨u, x, hu, hx, ht⟩ => ⟨u, x, hu, h x hx, ht⟩

theorem Effect.Io.ok {α : Type} {errs : Err → Prop} (v : α) (s : State) : (Effect.ok v s).Io errs s := IoOnly.refl s

theorem Effect.Io.raise {α : Type} {errs : Err → Prop} {x : Err} (hx : errs x) (s : State) :
    (Machine.raise x s : Effect α).Io errs s := ⟨s, x, IoOnly.refl s, hx, rfl⟩

/-! ### The shared operations -/

theorem putChar_io (b : Byte) (s : State) : (putChar b s).Io (· = .ioError) s := by
  cases h : s.con.takeWrite.1 with
  | ok =>
    rw [putChar_ok h]
    exact IoOnly.setCon s (by simp [State.written, ← List.append_assoc]) (by simp)
  | failure =>
    rw [putChar_failure h]
    exact ⟨_, _, IoOnly.setCon s (by simp [State.written]) (by simp), rfl, rfl⟩

theorem flush_io (s : State) : (flush s).Io (· = .ioError) s := by
  cases h : s.con.takeFlush.1 with
  | ok =>
    rw [flush_ok h]
    exact IoOnly.setCon s (by simp [State.written]) (by simp)
  | failure =>
    rw [flush_failure h]
    exact ⟨_, _, IoOnly.setCon s (by simp [State.written]) (by simp), rfl, rfl⟩

theorem putBytes_io (bs : List Byte) (s : State) : (putBytes bs s).Io (· = .ioError) s := by
  induction bs generalizing s with
  | nil => exact Effect.Io.ok () s
  | cons b bs ih => exact (putChar_io b s).andThen fun _ t => ih t

theorem getChar_io (s : State) : (getChar s).Io (· = .ioError) s := by
  unfold getChar
  have h := IoOnly.setCon s (c := s.con.takeInput.2) (by simp [State.written]) (by simp)
  cases s.con.takeInput.1 with
  | byte b => exact h
  | endOfInput => exact ⟨_, _, h, rfl, rfl⟩
  | failure => exact ⟨_, _, h, rfl, rfl⟩
  | silence => trivial

theorem pollKeyboard_io (s : State) : (pollKeyboard s).Io (· = .ioError) s := by
  obtain ⟨-, -, hb, hd⟩ := s.con.pollKey_output
  have hcon : IoOnly s (s.setCon s.con.pollKey.2) :=
    IoOnly.setCon s (by simp [State.written, hb, hd]) (by simp [hd])
  refine Effect.post_mono (pollKeyboard_post s) ?_ ?_
  · rintro _ t ⟨r, hr, -, ht⟩
    have hc : s.con.pollKey.2 = t.con := by rw [hr]
    rw [hc] at hcon
    rw [ht]
    refine hcon.trans ?_
    refine ⟨?_, ?_, ?_, ?_, ?_, ?_, fun a => State.refreshKeyboard_cell_other _ r, State.refreshKeyboard_wf r, ?_, ?_⟩ <;>
      cases r <;> rfl
  · rintro t ⟨hr, ht⟩
    have hc : s.con.pollKey.2 = t.con := by rw [hr]
    rw [hc] at hcon
    exact ⟨_, _, hcon, rfl, ht⟩

theorem memRead_io (a : Word) (s : State) : (memRead a s).Io (· = .ioError) s := by
  by_cases h : a = s.cfg.kbsrAddr
  · subst h
    rw [memRead_status]
    exact (pollKeyboard_io s).andThen fun _ t => Effect.Io.ok _ t
  · rw [memRead_pure h]
    exact Effect.Io.ok _ s

theorem stringWord_io (a : Word) (s : State) : (stringWord a s).Io (· = .ioError) s := by
  unfold stringWord
  split
  · exact memRead_io a s
  · exact Effect.Io.ok _ s

theorem nextStringAddr_io (a : Word) (s : State) :
    (nextStringAddr a s).Io (· = .unspecified .stringOverrun) s := by
  unfold nextStringAddr
  split
  · split
    · exact Effect.Io.raise (errs := (· = .unspecified .stringOverrun)) rfl s
    · exact Effect.Io.ok _ s
  · exact Effect.Io.ok _ s

theorem putsWord_io (w : Word) (s : State) : (putsWord w s).Io (· = .ioError) s := putChar_io _ s

theorem putspWord_io (w : Word) (s : State) : (putspWord w s).Io (· = .ioError) s := by
  refine (putChar_io _ s).andThen fun _ t => ?_
  split
  · exact Effect.Io.ok _ t
  · exact putChar_io _ t

/-! ### Host requests alone: no cell and no poll -/

/-- `t` is `s` with other streams, whose polls are as before. -/
def StreamsOnly (s t : State) : Prop := ∃ c : Console, t = s.setCon c ∧ c.polls = s.con.polls

theorem StreamsOnly.refl (s : State) : StreamsOnly s s := ⟨s.con, rfl, rfl⟩

theorem StreamsOnly.trans {s t u : State} : StreamsOnly s t → StreamsOnly t u → StreamsOnly s u := by
  rintro ⟨c, rfl, h⟩ ⟨d, rfl, h'⟩
  exact ⟨d, rfl, h'.trans h⟩

/-- An effect that talks to the host without a poll and accesses no memory. -/
def Effect.Streams {α : Type} (s : State) (e : Effect α) : Prop :=
  e.Post (fun _ t => StreamsOnly s t) (fun t => ∃ u x, StreamsOnly s u ∧ t = u.recordErr x)

theorem Effect.Streams.andThen {α β : Type} {s : State} {e : Effect α} {k : α → State → Effect β} (he : e.Streams s)
    (hk : ∀ v t, (k v t).Streams t) : (e.andThen k).Streams s := by
  refine Effect.post_andThen he fun v t ht => Effect.post_mono (hk v t) (fun _ _ h => ht.trans h) ?_
  rintro u ⟨u', x, hu, rfl⟩
  exact ⟨u', x, ht.trans hu, rfl⟩

theorem putChar_streams (b : Byte) (s : State) : (putChar b s).Streams s := by
  cases h : s.con.takeWrite.1 with
  | ok =>
    rw [putChar_ok h]
    exact ⟨_, rfl, rfl⟩
  | failure =>
    rw [putChar_failure h]
    exact ⟨s.setCon s.con.takeWrite.2, .ioError, ⟨s.con.takeWrite.2, rfl, rfl⟩, rfl⟩

theorem flush_streams (s : State) : (flush s).Streams s := by
  cases h : s.con.takeFlush.1 with
  | ok =>
    rw [flush_ok h]
    exact ⟨_, rfl, rfl⟩
  | failure =>
    rw [flush_failure h]
    exact ⟨s.setCon s.con.takeFlush.2, .ioError, ⟨s.con.takeFlush.2, rfl, rfl⟩, rfl⟩

theorem getChar_streams (s : State) : (getChar s).Streams s := by
  unfold getChar
  have h : StreamsOnly s (s.setCon s.con.takeInput.2) := ⟨s.con.takeInput.2, rfl, rfl⟩
  cases s.con.takeInput.1 with
  | byte b => exact h
  | endOfInput => exact ⟨_, _, h, rfl⟩
  | failure => exact ⟨_, _, h, rfl⟩
  | silence => trivial

theorem putBytes_streams (bs : List Byte) (s : State) : (putBytes bs s).Streams s := by
  induction bs generalizing s with
  | nil => exact StreamsOnly.refl s
  | cons b bs ih => exact (putChar_streams b s).andThen fun _ t => ih t

/-- A load is a memory read and, when that succeeds, the register and flag written from its value. -/
theorem loadInto_post (dr : Reg) (a : Word) (s : State) :
    (loadInto dr a s).Post (fun _ t => ∃ v u, memRead a s = .ok v u ∧ t = u.writeResult dr v)
      (fun t => memRead a s = .raised t) := by
  unfold loadInto
  cases hm : memRead a s with
  | ok v u => exact ⟨v, u, rfl, rfl⟩
  | raised t => exact rfl
  | stuck f => trivial

end Sys2Proof.Machine
end

