-- ==== Sys2Proof/Laws/Strings.lean ====
section
/-! SUPPORT. The loop of PUTS and PUTSP: it is the loop without a bound, it ends in what some number of turns ends in, and it is
stuck only when no number of turns ends it. -/

namespace Sys2Proof.Machine

/-- What some turns of the loop have ended in; none when the string goes on. -/
def Effect.ended : Effect (Option Word) → Option (Effect Unit)
  | .ok none s => some (.ok () s)
  | .ok (some _) _ => none
  | .raised s => some (.raised s)
  | .stuck f => some (.stuck f)

variable {writeWord : Word → State → Effect Unit}

theorem stringTurns_zero (a : Word) (s : State) : stringTurns writeWord 0 a s = .ok (some a) s := rfl

/-- A turn that goes on leads to the turns from the next address. -/
theorem stringTurns_next {a b : Word} {s t : State} (h : stringTurn writeWord a s = .ok (some b) t) (n : Nat) :
    stringTurns writeWord (n + 1) a s = stringTurns writeWord n b t := by
  simp only [stringTurns, h, Effect.ok_andThen]

/-- A turn that ends the loop ends any number of turns that begin with it. -/
theorem stringTurns_stop {a : Word} {s : State} {e : Effect Unit} (h : (stringTurn writeWord a s).ended = some e) (n : Nat) :
    (stringTurns writeWord (n + 1) a s).ended = some e := by
  unfold stringTurns
  cases ht : stringTurn writeWord a s with
  | ok next t =>
    cases next with
    | none => simpa [ht] using h
    | some b => simp [ht, Effect.ended] at h
  | raised t => simpa [ht] using h
  | stuck f => simpa [ht] using h

/-- The loop after one turn. -/
theorem stringLoop_next {a b : Word} {s t : State} (h : stringTurn writeWord a s = .ok (some b) t) :
    stringLoop writeWord a s = stringLoop writeWord b t := by
  rw [stringLoop.eq_1, h]

theorem stringLoop_stop {a : Word} {s : State} {e : Effect Unit} (h : (stringTurn writeWord a s).ended = some e) :
    stringLoop writeWord a s = some e := by
  rw [stringLoop.eq_1]
  cases ht : stringTurn writeWord a s with
  | ok next t =>
    cases next with
    | none => simpa [ht, Effect.ended] using h
    | some b => simp [ht, Effect.ended] at h
  | raised t => simpa [ht, Effect.ended] using h
  | stuck f => simpa [ht, Effect.ended] using h

/-- A turn ends the loop, or it goes on. -/
theorem stringTurn_cases (a : Word) (s : State) :
    (∃ e, (stringTurn writeWord a s).ended = some e) ∨ ∃ b t, stringTurn writeWord a s = .ok (some b) t := by
  cases stringTurn writeWord a s with
  | ok next t =>
    cases next with
    | none => exact .inl ⟨_, rfl⟩
    | some b => exact .inr ⟨b, t, rfl⟩
  | raised t => exact .inl ⟨_, rfl⟩
  | stuck f => exact .inl ⟨_, rfl⟩

/-- What any number of turns ends in is what the loop ends in. -/
theorem stringLoop_of_ended {n : Nat} {a : Word} {s : State} {e : Effect Unit}
    (h : (stringTurns writeWord n a s).ended = some e) : stringLoop writeWord a s = some e := by
  induction n generalizing a s with
  | zero => simp [stringTurns, Effect.ended] at h
  | succ n ih =>
    rcases stringTurn_cases (writeWord := writeWord) a s with ⟨e', he⟩ | ⟨b, t, ht⟩
    · rw [stringTurns_stop he] at h
      rw [stringLoop_stop he, h]
    · rw [stringTurns_next ht] at h
      rw [stringLoop_next ht, ih h]

/-- Where some turns stop unfinished, the loop goes on. -/
theorem stringLoop_of_goes_on {n : Nat} {a b : Word} {s t : State} (h : stringTurns writeWord n a s = .ok (some b) t) :
    stringLoop writeWord a s = stringLoop writeWord b t := by
  induction n generalizing a s with
  | zero =>
    cases h
    rfl
  | succ n ih =>
    rcases stringTurn_cases (writeWord := writeWord) a s with ⟨e, he⟩ | ⟨b', t', ht⟩
    · have := stringTurns_stop he n
      rw [h] at this
      cases this
    · rw [stringTurns_next ht] at h
      rw [stringLoop_next ht, ih h]

/-- What the loop ends in is what some number of turns ends in. -/
theorem ended_of_stringLoop {a : Word} {s : State} {e : Effect Unit} (h : stringLoop writeWord a s = some e) :
    ∃ n, (stringTurns writeWord n a s).ended = some e := by
  refine stringLoop.partial_correctness writeWord (fun a s e => ∃ n, (stringTurns writeWord n a s).ended = some e) ?_ a s e h
  intro loop ih a s e he
  rcases stringTurn_cases (writeWord := writeWord) a s with ⟨e', he'⟩ | ⟨b, t, ht⟩
  · refine ⟨1, ?_⟩
    rw [stringTurns_stop he', ← he, ← he']
    cases ht : stringTurn writeWord a s with
    | ok next t =>
      cases next with
      | none => rfl
      | some b => simp [ht, Effect.ended] at he'
    | raised t => rfl
    | stuck f => rfl
  · rw [ht] at he
    obtain ⟨n, hn⟩ := ih b t e he
    exact ⟨n + 1, by rw [stringTurns_next ht, hn]⟩

/-- The first turns and the rest are together the loop. -/
theorem putString_eq_loop (a : Word) (s : State) :
    putString writeWord a s = (stringLoop writeWord a s).getD (.stuck .unendingString) := by
  unfold putString
  cases h : stringTurns writeWord 65536 a s with
  | ok next t =>
    cases next with
    | none => rw [stringLoop_of_ended (e := .ok () t) (by rw [h]; rfl)]; rfl
    | some b =>
      rw [stringLoop_of_goes_on h, Effect.ok_andThen]
      cases hl : stringLoop writeWord b t <;> simp [hl]
  | raised t => rw [stringLoop_of_ended (e := .raised t) (by rw [h]; rfl)]; rfl
  | stuck f => rw [stringLoop_of_ended (e := .stuck f) (by rw [h]; rfl)]; rfl

/-- Everything the whole loop can do: end in what some number of turns ends in, or, when none does, never end. -/
theorem putString_cases (a : Word) (s : State) :
    (∃ n, (stringTurns writeWord n a s).ended = some (putString writeWord a s)) ∨
      (putString writeWord a s = .stuck .unendingString ∧ ∀ n, ∃ b t, stringTurns writeWord n a s = .ok (some b) t) := by
  rw [putString_eq_loop]
  cases h : stringLoop writeWord a s with
  | some e => exact .inl (ended_of_stringLoop h)
  | none =>
    refine .inr ⟨rfl, fun n => ?_⟩
    cases hn : (stringTurns writeWord n a s).ended with
    | some e => rw [stringLoop_of_ended hn] at h; cases h
    | none =>
      cases ht : stringTurns writeWord n a s with
      | ok next t =>
        cases next with
        | none => simp [ht, Effect.ended] at hn
        | some b => exact ⟨b, t, rfl⟩
      | raised t => simp [ht, Effect.ended] at hn
      | stuck f => simp [ht, Effect.ended] at hn

theorem putString_of_ended {n : Nat} {a : Word} {s : State} {e : Effect Unit}
    (h : (stringTurns writeWord n a s).ended = some e) : putString writeWord a s = e := by
  rw [putString_eq_loop, stringLoop_of_ended h]
  rfl

/-- The loop from where some turns have brought it. -/
theorem putString_of_goes_on {n : Nat} {a b : Word} {s t : State} (h : stringTurns writeWord n a s = .ok (some b) t) :
    putString writeWord a s = putString writeWord b t := by
  rw [putString_eq_loop, putString_eq_loop, stringLoop_of_goes_on h]

/-- One turn of the loop and the rest of it. -/
theorem putString_turn (a : Word) (s : State) :
    putString writeWord a s = (stringTurn writeWord a s).andThen fun next t =>
      match next with
      | none => .ok () t
      | some b => putString writeWord b t := by
  cases h : stringTurn writeWord a s with
  | ok next t =>
    cases next with
    | none => exact putString_of_ended (n := 1) (stringTurns_stop (by rw [h]; rfl) 0)
    | some b => exact putString_of_goes_on (n := 1) (by rw [stringTurns_next h]; rfl)
  | raised t => exact putString_of_ended (n := 1) (stringTurns_stop (by rw [h]; rfl) 0)
  | stuck f => exact putString_of_ended (n := 1) (stringTurns_stop (by rw [h]; rfl) 0)

/-! ### What the loop can change, and when it must end -/

theorem stringTurn_io (hw : ∀ w s, (writeWord w s).Io (· = .ioError) s) (a : Word) (s : State) :
    (stringTurn writeWord a s).Io (fun x => x = .ioError ∨ x = .unspecified .stringOverrun) s := by
  refine ((stringWord_io a s).mono fun _ => Or.inl).andThen fun w t => ?_
  split
  · exact Effect.Io.ok _ t
  · exact ((hw w t).mono fun _ => Or.inl).andThen fun _ t' =>
      ((nextStringAddr_io a t').mono fun _ => Or.inr).andThen fun b t'' => Effect.Io.ok _ t''

theorem stringTurns_io (hw : ∀ w s, (writeWord w s).Io (· = .ioError) s) (n : Nat) (a : Word) (s : State) :
    (stringTurns writeWord n a s).Io (fun x => x = .ioError ∨ x = .unspecified .stringOverrun) s := by
  induction n generalizing a s with
  | zero => exact Effect.Io.ok _ s
  | succ n ih =>
    refine (stringTurn_io hw a s).andThen fun next t => ?_
    cases next with
    | none => exact Effect.Io.ok _ t
    | some b => exact ih b t

/-- The loop of PUTS and PUTSP reads memory and writes characters only. -/
theorem putString_io (hw : ∀ w s, (writeWord w s).Io (· = .ioError) s) (a : Word) (s : State) :
    (putString writeWord a s).Io (fun x => x = .ioError ∨ x = .unspecified .stringOverrun) s := by
  rcases putString_cases (writeWord := writeWord) a s with ⟨n, hn⟩ | ⟨h, -⟩
  · have hio := stringTurns_io hw n a s
    cases ht : stringTurns writeWord n a s with
    | ok next t =>
      rw [ht] at hn hio
      cases next with
      | none => rw [← Option.some.inj hn]; exact hio
      | some b => cases hn
    | raised t =>
      rw [ht] at hn hio
      rw [← Option.some.inj hn]
      exact hio
    | stuck f =>
      rw [ht] at hn
      rw [← Option.some.inj hn]
      trivial
  · rw [h]
    trivial

/-- A memory read is never stuck. -/
theorem memRead_ne_stuck (a : Word) (s : State) (f : Fault) : memRead a s ≠ .stuck f := by
  unfold memRead pollKeyboard
  split
  · cases s.con.pollKey.1 <;> simp
  · simp

theorem stringWord_ne_stuck (a : Word) (s : State) (f : Fault) : stringWord a s ≠ .stuck f := by
  unfold stringWord
  split
  · exact memRead_ne_stuck a s f
  · simp

/-- Under `STRING_OVERRUN = fault` the turns left up to 0xFFFF end the loop, in a completion or an error. -/
theorem stringTurns_end (hw : ∀ w s, (writeWord w s).Io (· = .ioError) s) (hs : ∀ w s f, writeWord w s ≠ .stuck f) (n : Nat)
    (a : Word) (s : State) (hcfg : s.cfg.stringOverrun = .fault) (hn : 65536 ≤ a.toNat + n) :
    ∃ e, (stringTurns writeWord n a s).ended = some e ∧ ∀ f, e ≠ .stuck f := by
  induction n generalizing a s with
  | zero =>
    have := a.isLt
    omega
  | succ n ih =>
    have hread := stringWord_io a s
    simp only [stringTurns, stringTurn]
    cases hr : stringWord a s with
    | stuck f' => exact absurd hr (stringWord_ne_stuck a s f')
    | raised t => exact ⟨_, rfl, by simp⟩
    | ok w t =>
      rw [hr] at hread
      simp only [Effect.ok_andThen]
      split
      · exact ⟨_, rfl, by simp⟩
      · have hwr := hw w t
        cases hwt : writeWord w t with
        | stuck f' => exact absurd hwt (hs w t f')
        | raised u => exact ⟨_, rfl, by simp⟩
        | ok _ u =>
          rw [hwt] at hwr
          have hcfgu : u.cfg.stringOverrun = .fault := by rw [IoOnly.cfg hwr, IoOnly.cfg hread, hcfg]
          simp only [Effect.ok_andThen, nextStringAddr]
          split
          · simp only [hcfgu]
            exact ⟨_, rfl, by simp⟩
          · rename_i ha
            refine ih _ u hcfgu ?_
            have : a.toNat ≠ 65535 := fun h => ha (BitVec.eq_of_toNat_eq h)
            have h1 : (a + 1).toNat = a.toNat + 1 := by
              have := a.isLt
              rw [BitVec.toNat_add]
              simp
              omega
            omega

/-- So the whole loop is never stuck then. -/
theorem putString_ends (hw : ∀ w s, (writeWord w s).Io (· = .ioError) s) (hs : ∀ w s f, writeWord w s ≠ .stuck f) (a : Word)
    (s : State) (hcfg : s.cfg.stringOverrun = .fault) (f : Fault) : putString writeWord a s ≠ .stuck f := by
  obtain ⟨e, he, hne⟩ := stringTurns_end hw hs 65536 a s hcfg (by omega)
  rw [putString_of_ended he]
  exact hne f

end Sys2Proof.Machine
end

