-- ==== Sys2Proof/Laws/Exec.lean ====
section
/-! SUPPORT. Everything an instruction's next state can be, said once: `exec_after`. Proofs about all instructions cite it and
unfold no meaning. -/

namespace Sys2Proof.Machine

/-- `t` is `s` after reads and host requests, or such a state with one of the errors recorded. -/
def IoOrRaised (errs : Err → Prop) (s t : State) : Prop :=
  IoOnly s t ∨ ∃ u x, IoOnly s u ∧ errs x ∧ t = u.recordErr x

/-- `t` is `s` after reads and host requests and then one update by `f`, or such a state with an I/O error recorded. -/
def ThenOrIoError (f : State → State → Prop) (s t : State) : Prop :=
  (∃ u, IoOnly s u ∧ f u t) ∨ ∃ u, IoOnly s u ∧ t = u.recordErr .ioError

/-- What the next state of an instruction is made of: the updates it may make, in the state they are made in. -/
def After (i : Instr) (s t : State) : Prop :=
  match i with
  | .br _ _ _ _ => ∃ v, t = s.setPc v
  | .jmp _ => ∃ v, t = s.setPc v
  | .jsr _ => ∃ v, t = s.saveLink.setPc v
  | .jsrr _ => ∃ v, t = s.saveLink.setPc v
  | .addReg dr _ _ => ∃ v, t = s.writeResult dr v
  | .addImm dr _ _ => ∃ v, t = s.writeResult dr v
  | .andReg dr _ _ => ∃ v, t = s.writeResult dr v
  | .andImm dr _ _ => ∃ v, t = s.writeResult dr v
  | .notReg dr _ => ∃ v, t = s.writeResult dr v
  | .lea dr _ => ∃ v, t = s.writeResult dr v
  | .ld dr _ => ThenOrIoError (fun u t => ∃ v, t = u.writeResult dr v) s t
  | .ldr dr _ _ => ThenOrIoError (fun u t => ∃ v, t = u.writeResult dr v) s t
  | .ldi dr _ => ThenOrIoError (fun u t => ∃ v, t = u.writeResult dr v) s t
  | .st _ _ => ∃ a v, t = s.memWrite a v
  | .str _ _ _ => ∃ a v, t = s.memWrite a v
  | .sti _ _ => ThenOrIoError (fun u t => ∃ a v, t = u.memWrite a v) s t
  | .rti => t = s.recordErr (.invalidOpcode 8)
  | .res => t = s.recordErr (.invalidOpcode 13)
  | .trapGetc => ThenOrIoError (fun u t => ∃ b, t = storeChar b u) s.saveLink t
  | .trapIn => ThenOrIoError (fun u t => ∃ b, t = storeChar b u) s.saveLink t
  | .trapOut => IoOrRaised (· = .ioError) s.saveLink t
  | .trapPuts => IoOrRaised (fun x => x = .ioError ∨ x = .unspecified .stringOverrun) s.saveLink t
  | .trapPutsp => IoOrRaised (fun x => x = .ioError ∨ x = .unspecified .stringOverrun) s.saveLink t
  | .trapHalt => ThenOrIoError (fun u t => t = u.halt) s.saveLink t
  | .trapUnknown vec => t = s.saveLink.recordErr (.invalidOpcode vec)

section

variable {α β γ : Type}

theorem Effect.andThen_assoc (e : Effect α) (k : α → State → Effect β) (l : β → State → Effect γ) :
    (e.andThen k).andThen l = e.andThen fun v s => (k v s).andThen l := by
  cases e <;> rfl

/-- Reads and host requests, then an update that cannot fail. -/
theorem Effect.Io.thenOk {s : State} {e : Effect α} (he : e.Io (· = .ioError) s) {f : State → State → Prop}
    {k : α → State → Effect Unit} (hk : ∀ v u, ∃ t, k v u = .ok () t ∧ f u t) {t : State}
    (h : (e.andThen k).outcome = .next t) : ThenOrIoError f s t := by
  cases e with
  | ok v u =>
    obtain ⟨t', hk', hf⟩ := hk v u
    rw [Effect.ok_andThen, hk'] at h
    cases h
    exact .inl ⟨u, he, hf⟩
  | raised u =>
    cases h
    obtain ⟨u', x, hu, rfl, ht⟩ := he
    exact .inr ⟨u', hu, ht⟩
  | stuck f => cases h

theorem Effect.Io.outcome {errs : Err → Prop} {s t : State} {e : Effect Unit} (he : e.Io errs s)
    (h : e.outcome = .next t) : IoOrRaised errs s t :=
  Effect.post_outcome_or he h

end

theorem loadInto_after {dr : Reg} {a : Word} {s t : State} (h : (loadInto dr a s).outcome = .next t) :
    ThenOrIoError (fun u t => ∃ v, t = u.writeResult dr v) s t :=
  (memRead_io a s).thenOk (fun _ _ => ⟨_, rfl, _, rfl⟩) h

/-- The next state of every instruction. -/
theorem exec_after {i : Instr} {s t : State} (h : exec i s = .next t) : After i s t := by
  cases i with
  | br n z p off =>
    simp only [exec, execBr] at h
    cases h
    split
    · exact ⟨_, rfl⟩
    · exact ⟨s.pc, rfl⟩
  | jmp base => cases h; exact ⟨_, rfl⟩
  | jsr off => cases h; exact ⟨_, rfl⟩
  | jsrr base => cases h; exact ⟨_, rfl⟩
  | addReg dr sr1 sr2 => cases h; exact ⟨_, rfl⟩
  | addImm dr sr1 imm => cases h; exact ⟨_, rfl⟩
  | andReg dr sr1 sr2 => cases h; exact ⟨_, rfl⟩
  | andImm dr sr1 imm => cases h; exact ⟨_, rfl⟩
  | notReg dr sr => cases h; exact ⟨_, rfl⟩
  | lea dr off => cases h; exact ⟨_, rfl⟩
  | ld dr off => exact loadInto_after h
  | ldr dr base off => exact loadInto_after h
  | ldi dr off =>
    have e : exec (.ldi dr off) s = (((memRead (pcRel9 s off) s).andThen memRead).andThen fun v u =>
        .ok () (u.writeResult dr v)).outcome := by
      rw [Effect.andThen_assoc]
      rfl
    simp only [After]
    exact Effect.Io.thenOk ((memRead_io _ s).andThen fun p u => memRead_io p u) (fun _ _ => ⟨_, rfl, _, rfl⟩) (e ▸ h)
  | st sr off => cases h; exact ⟨_, _, rfl⟩
  | str sr base off => cases h; exact ⟨_, _, rfl⟩
  | sti sr off =>
    simp only [After]
    exact Effect.Io.thenOk (memRead_io _ s) (fun _ _ => ⟨_, rfl, _, _, rfl⟩) h
  | rti => cases h; rfl
  | res => cases h; rfl
  | trapGetc =>
    simp only [After]
    exact (getChar_io _).thenOk (fun _ _ => ⟨_, rfl, _, rfl⟩) h
  | trapOut => exact ((putChar_io _ _).andThen fun _ u => flush_io u).outcome h
  | trapPuts =>
    exact ((putString_io putsWord_io _ _).andThen fun _ u => (flush_io u).mono fun _ => Or.inl).outcome h
  | trapPutsp =>
    exact ((putString_io putspWord_io _ _).andThen fun _ u => (flush_io u).mono fun _ => Or.inl).outcome h
  | trapIn =>
    have e : exec .trapIn s = (((putBytes s.cfg.inPrompt s.saveLink).andThen fun _ s1 => (flush s1).andThen fun _ s2 =>
        (getChar s2).andThen fun b s3 => (putChar b s3).andThen fun _ s4 => (flush s4).andThen fun _ s5 =>
          .ok b s5).andThen fun b s6 => .ok () (storeChar b s6)).outcome := by
      simp only [Effect.andThen_assoc, Effect.ok_andThen]
      rfl
    simp only [After]
    refine Effect.Io.thenOk ?_ (fun _ _ => ⟨_, rfl, _, rfl⟩) (e ▸ h)
    exact (putBytes_io _ _).andThen fun _ u => (flush_io u).andThen fun _ u => (getChar_io u).andThen fun b u =>
      (putChar_io b u).andThen fun _ u => (flush_io u).andThen fun _ u => Effect.Io.ok b u
  | trapHalt =>
    have e : exec .trapHalt s = (((putBytes s.cfg.haltText s.saveLink).andThen fun _ s1 => flush s1).andThen fun _ s2 =>
        .ok () s2.halt).outcome := by
      rw [Effect.andThen_assoc]
      rfl
    simp only [After]
    rw [e] at h
    refine Effect.Io.thenOk (f := fun u t => t = u.halt) ?_ (fun _ _ => ⟨_, rfl, rfl⟩) h
    exact (putBytes_io _ _).andThen fun _ u => flush_io u
  | trapUnknown vec => cases h; rfl

end Sys2Proof.Machine
end

