-- ==== Sys2Proof/Laws/Operands.lean ====
section
/-! SUPPORT. What sign extension and the byte reads compute, so that no proof unfolds the formula of 00_scope.md R11. -/

namespace Sys2Proof.Machine

/-- The bits of the all-ones mask shifted left by the field width. -/
theorem onesShifted_getLsbD (n k : Nat) : (0xFFFF#16 <<< n).getLsbD k = (decide (k < 16) && decide (n ≤ k)) := by
  have hones : (0xFFFF#16) = BitVec.allOnes 16 := rfl
  rw [hones, BitVec.getLsbD_shiftLeft, BitVec.getLsbD_allOnes]
  by_cases hk : k < 16 <;> by_cases hn : n ≤ k <;> simp [hk, hn]
  omega

/-- R11's formula is two's-complement sign extension. -/
theorem sext_eq_signExtend {n : Nat} (v : BitVec n) : sext v = v.signExtend 16 := by
  refine BitVec.eq_of_getLsbD_eq fun k hk => ?_
  have hout : ¬k < n → v.getLsbD k = false := fun h => BitVec.getLsbD_of_ge _ _ (by omega)
  unfold sext
  rw [BitVec.getLsbD_signExtend]
  cases hm : v.msb <;> by_cases hkn : k < n
  · simp [hk, hkn]
  · simp [hk, hkn, hout]
  · simp only [if_true, BitVec.getLsbD_or, BitVec.getLsbD_setWidth, onesShifted_getLsbD]
    simp [hk, hkn]
  · simp only [if_true, BitVec.getLsbD_or, BitVec.getLsbD_setWidth, onesShifted_getLsbD]
    simp [hk, hkn]
    omega

/-- Adding a sign-extended field is exact modulo 65536: the address and immediate sums of the whole instruction set. -/
theorem add_sext_toNat {n : Nat} (a : Word) (v : BitVec n) (hn : n ≤ 16) :
    ((a + sext v).toNat : Int) = (a.toNat + v.toInt) % 65536 := by
  rw [sext_eq_signExtend]
  have h := BitVec.toInt_signExtend_of_le (x := v) (v := 16) hn
  generalize v.signExtend 16 = w at *
  rw [← h, BitVec.toNat_add, BitVec.toInt_eq_toNat_cond]
  have := w.isLt
  have := a.isLt
  split <;> push_cast <;> omega

theorem zext8_toNat (b : Byte) : (zext8 b).toNat = b.toNat := by
  have := b.isLt
  simp only [zext8, BitVec.toNat_setWidth]
  omega

theorem lowByte_toNat (w : Word) : (lowByte w).toNat = w.toNat % 256 := by
  simp [lowByte, BitVec.extractLsb'_toNat]

theorem highByte_toNat (w : Word) : (highByte w).toNat = w.toNat / 256 := by
  have := w.isLt
  simp only [highByte, BitVec.extractLsb'_toNat, Nat.shiftRight_eq_div_pow]
  omega

/-- The two bytes of a word make it up again, high byte first (20_memory.md R61). -/
theorem highByte_append_lowByte (w : Word) : (highByte w ++ lowByte w : BitVec 16) = w := by
  refine BitVec.eq_of_getLsbD_eq fun k hk => ?_
  rw [BitVec.getLsbD_append]
  by_cases h : k < 8
  · simp [h, lowByte]
  · have h8 : k - 8 < 8 := by omega
    have hk8 : 8 + (k - 8) = k := by omega
    simp [h, highByte, h8, hk8]

end Sys2Proof.Machine
end

