-- ==== Sys2Proof/Laws/Output.lean ====
section
/-! SUPPORT. The output routines when the host's writes and flushes succeed: what each does to the buffer and what it leaves,
over strings of every length. -/

namespace Sys2Proof.Machine

/-- An effect that only appends bytes to the output buffer of a host that takes them. -/
def Appends (e : Effect Unit) (s : State) (bs : List Byte) : Prop :=
  ∃ c : Console, e = .ok () (s.setCon c) ∧ c.OutputWorks ∧ c.buffer = s.con.buffer ++ bs ∧
    c.delivered = s.con.delivered ∧ c.input = s.con.input ∧ c.polls = s.con.polls

theorem Feed.take_works (free : Nat → OutputAnswer) {f : Feed OutputAnswer} (h : ∀ x ∈ f.known, x = .ok)
    (ha : f.after = some .ok) :
    (f.take free).1 = .ok ∧ (∀ x ∈ (f.take free).2.known, x = .ok) ∧ (f.take free).2.after = some .ok := by
  obtain ⟨known, after, n⟩ := f
  cases ha
  cases known with
  | nil => exact ⟨rfl, h, rfl⟩
  | cons x xs => exact ⟨h x (by simp), fun y hy => h y (List.mem_cons_of_mem x hy), rfl⟩

theorem putChar_works {b : Byte} {s : State} (h : s.con.OutputWorks) : Appends (putChar b s) s [b] := by
  obtain ⟨h1, h2, h3, h4⟩ := h
  obtain ⟨k1, k2, k3⟩ := Feed.take_works Config.freeWrite h1 h2
  exact ⟨_, putChar_ok k1, ⟨k2, k3, h3, h4⟩, rfl, rfl, rfl, rfl⟩

/-- A flush delivers the buffer and empties it. -/
theorem flush_works {s : State} (h : s.con.OutputWorks) :
    ∃ c : Console, flush s = .ok () (s.setCon c) ∧ c.OutputWorks ∧ c.buffer = [] ∧
      c.delivered = s.con.delivered ++ s.con.buffer ∧ c.input = s.con.input ∧ c.polls = s.con.polls := by
  obtain ⟨h1, h2, h3, h4⟩ := h
  obtain ⟨k1, k2, k3⟩ := Feed.take_works Config.freeFlush h3 h4
  exact ⟨_, flush_ok k1, ⟨h1, h2, k2, k3⟩, rfl, rfl, rfl, rfl⟩

/-- One append after another. -/
theorem Appends.andThen {e : Effect Unit} {s : State} {bs cs : List Byte} {k : State → Effect Unit} (he : Appends e s bs)
    (hk : ∀ u : State, u.con.OutputWorks → Appends (k u) u cs) : Appends (e.andThen fun _ u => k u) s (bs ++ cs) := by
  obtain ⟨c, rfl, h2, h3, h4, h5, h6⟩ := he
  obtain ⟨c', k1, k2, k3, k4, k5, k6⟩ := hk (s.setCon c) h2
  exact ⟨c', k1, k2, by simp [k3, h3], k4.trans h4, k5.trans h5, k6.trans h6⟩

theorem Appends.nothing {s : State} (h : s.con.OutputWorks) : Appends (.ok () s) s [] :=
  ⟨s.con, rfl, h, by simp, rfl, rfl, rfl⟩

theorem putBytes_works (bs : List Byte) {s : State} (h : s.con.OutputWorks) : Appends (putBytes bs s) s bs := by
  induction bs generalizing s with
  | nil => exact Appends.nothing h
  | cons b bs ih => exact (putChar_works h).andThen fun u hu => ih hu

/-- What PUTS and PUTSP write for one word. -/
def WritesWord (writeWord : Word → State → Effect Unit) (chars : Word → List Byte) : Prop :=
  ∀ (w : Word) (s : State), s.con.OutputWorks → Appends (writeWord w s) s (chars w)

theorem putsWord_works : WritesWord putsWord fun w => [lowByte w] := fun _ _ h => putChar_works h

theorem putspWord_works :
    WritesWord putspWord fun w => if highByte w = 0 then [lowByte w] else [lowByte w, highByte w] := by
  intro w s h
  by_cases hb : highByte w = 0
  · simp only [putspWord, if_pos hb]
    exact (putChar_works (b := lowByte w) h).andThen fun u hu => Appends.nothing hu
  · simp only [putspWord, if_neg hb]
    exact (putChar_works (b := lowByte w) h).andThen fun u hu => putChar_works (b := highByte w) hu

/-! ### Strings in memory -/

theorem State.holdsWords_congr {s t : State} (h : ∀ a, t.cell a = s.cell a) {a : Word} {ws : List Word}
    (hs : s.HoldsWords a ws) : t.HoldsWords a ws := by
  induction ws generalizing a with
  | nil => trivial
  | cons w ws ih => exact ⟨(h a).trans hs.1, ih hs.2⟩

theorem succ_add_ofNat (a : Word) (n : Nat) : a + 1 + BitVec.ofNat 16 n = a + BitVec.ofNat 16 (n + 1) := by
  rw [BitVec.add_assoc]
  congr 1
  apply BitVec.eq_of_toNat_eq
  have : (1 : Word).toNat = 1 := rfl
  simp only [BitVec.toNat_add, BitVec.toNat_ofNat, this]
  omega

theorem State.holdsWords_append (s : State) (a : Word) (ws vs : List Word) :
    s.HoldsWords a (ws ++ vs) ↔ s.HoldsWords a ws ∧ s.HoldsWords (a + BitVec.ofNat 16 ws.length) vs := by
  induction ws generalizing a with
  | nil => simp [State.HoldsWords]
  | cons w ws ih =>
    simp only [List.cons_append, State.HoldsWords, ih, List.length_cons, succ_add_ofNat, and_assoc]

theorem stringWord_plain {s : State} {a : Word} (h : s.cfg.trapReadPolls = true → a ≠ s.cfg.kbsrAddr) :
    stringWord a s = .ok (s.cell a) s := by
  unfold stringWord
  split
  · exact memRead_pure (h ‹_›)
  · rfl

/-- A turn of the loop over a nonzero word below 0xFFFF: its characters are appended, and the loop goes on at the next cell. -/
theorem stringTurn_word {writeWord : Word → State → Effect Unit} {chars : Word → List Byte}
    (hwr : WritesWord writeWord chars) {w a : Word} {s t : State} (hr : stringWord a s = .ok w t) (h : t.con.OutputWorks)
    (hw : w ≠ 0) (ha : a ≠ Word.last) :
    ∃ c : Console, stringTurn writeWord a s = .ok (some (a + 1)) (t.setCon c) ∧ c.OutputWorks ∧
      c.buffer = t.con.buffer ++ chars w ∧ c.delivered = t.con.delivered ∧ c.input = t.con.input ∧
      c.polls = t.con.polls := by
  obtain ⟨c, h1, h2⟩ := hwr w t h
  exact ⟨c, by simp only [stringTurn, hr, Effect.ok_andThen, if_neg hw, h1, nextStringAddr, if_neg ha], h2⟩

/-- The turn that reads the zero word. -/
theorem stringTurn_zero {writeWord : Word → State → Effect Unit} {a : Word} {s t : State} (hr : stringWord a s = .ok 0 t) :
    stringTurn writeWord a s = .ok none t := by
  simp only [stringTurn, hr, Effect.ok_andThen, if_pos]

/-- As many turns over nonzero words that end below 0xFFFF + 1: all their characters are appended, and the loop goes on at the
address after them. -/
theorem stringTurns_words {writeWord : Word → State → Effect Unit} {chars : Word → List Byte}
    (hwr : WritesWord writeWord chars) (ws : List Word) (a : Word) (s : State) (h : s.con.OutputWorks)
    (hz : ∀ w ∈ ws, w ≠ 0) (hold : s.HoldsWords a ws) (hp : s.PlainRange a ws.length)
    (hlt : a.toNat + ws.length < 65536) :
    ∃ c : Console, stringTurns writeWord ws.length a s = .ok (some (a + BitVec.ofNat 16 ws.length)) (s.setCon c) ∧
      c.OutputWorks ∧ c.buffer = s.con.buffer ++ ws.flatMap chars ∧ c.delivered = s.con.delivered ∧
      c.input = s.con.input ∧ c.polls = s.con.polls := by
  induction ws generalizing a s with
  | nil => exact ⟨s.con, by simp [stringTurns]; rfl, h, by simp, rfl, rfl, rfl⟩
  | cons w ws ih =>
    obtain ⟨hb, hk⟩ := hp
    obtain ⟨hw, hrest⟩ := hold
    simp only [List.length_cons] at hlt hb hk
    have ha : a ≠ Word.last := by
      rintro rfl
      simp at hlt
      omega
    have ha1 : (a + 1).toNat = a.toNat + 1 := by
      rw [BitVec.toNat_add]
      simp
      omega
    have hsw : stringWord a s = .ok w s := by
      rw [stringWord_plain fun ht => hk ht a (Nat.le_refl _) (by omega), hw]
    obtain ⟨c, h1, h2, h3, h4, h5, h6⟩ := stringTurn_word hwr hsw h (hz w (by simp)) ha
    obtain ⟨c', k1, k2, k3, k4, k5, k6⟩ := ih (a + 1) (s.setCon c) h2 (fun x hx => hz x (by simp [hx]))
      (State.holdsWords_congr (s := s) (t := s.setCon c) (fun _ => rfl) hrest)
      ⟨by omega, fun ht b hb1 hb2 => hk ht b (by omega) (by omega)⟩ (by omega)
    refine ⟨c', ?_, k2, by simp [k3, h3], k4.trans h4, k5.trans h5, k6.trans h6⟩
    rw [List.length_cons, stringTurns_next h1, k1, succ_add_ofNat]
    rfl

/-- A whole NUL-terminated string: all its characters are appended, and nothing else happens. -/
theorem putString_works {writeWord : Word → State → Effect Unit} {chars : Word → List Byte}
    (hwr : WritesWord writeWord chars) (ws : List Word) (a : Word) (s : State) (h : s.con.OutputWorks)
    (hz : ∀ w ∈ ws, w ≠ 0) (hold : s.HoldsWords a (ws ++ [0])) (hp : s.PlainRange a (ws.length + 1)) :
    Appends (putString writeWord a s) s (ws.flatMap chars) := by
  rw [State.holdsWords_append] at hold
  obtain ⟨hb, hk⟩ := hp
  obtain ⟨c, k1, k2⟩ := stringTurns_words hwr ws a s h hz hold.1
    ⟨by omega, fun ht b h1 h2 => hk ht b h1 (by omega)⟩ (by omega)
  refine ⟨c, ?_, k2⟩
  have hend : (a + BitVec.ofNat 16 ws.length).toNat = a.toNat + ws.length := by
    rw [BitVec.toNat_add]
    simp
    omega
  have hsw : stringWord (a + BitVec.ofNat 16 ws.length) (s.setCon c) = .ok 0 (s.setCon c) := by
    rw [stringWord_plain (s := s.setCon c) fun ht => hk ht _ (by omega) (by omega)]
    exact congrArg (Effect.ok · _) hold.2.1
  rw [putString_of_goes_on k1, putString_turn, stringTurn_zero hsw, Effect.ok_andThen]

end Sys2Proof.Machine
end

