-- ==== Sys2Proof/Laws/PerInstr.lean ====
section
/-! SUPPORT. Statements about every instruction as syntax, one lemma per constructor (LAWS.json "per_instruction"). -/

namespace Sys2Proof.Laws

/-! ### EncodesRow: the word of an instruction matches its row of the opcode table -/

/-- The encoder puts the fixed bits of the instruction's own row into its word (30_encoding.md R82, R85). -/
def EncodesRow.Statement (i : Instr) : Prop := i.row.matchesWord (encode i) = true

/-- A word matches a row when its bits agree with it wherever the mask looks. -/
theorem matchesWord_of_bits {r : OpRow} {w : Word}
    (h : ∀ k : Nat, k < 16 → (w.getLsbD k && r.mask.getLsbD k) = r.bits.getLsbD k) : r.matchesWord w = true := by
  rw [OpRow.matchesWord, beq_iff_eq]
  exact BitVec.eq_of_getLsbD_eq fun k hk => by rw [BitVec.getLsbD_and]; exact h k hk

namespace EncodesRow

theorem br (n z p : Bool) (off : BitVec 9) : Statement (.br n z p off) := by
  refine matchesWord_of_bits fun k hk => ?_
  simp only [encode, Instr.row, BitVec.getLsbD_append]
  interval_cases k <;> simp

theorem addReg (dr sr1 sr2 : Reg) : Statement (.addReg dr sr1 sr2) := by
  refine matchesWord_of_bits fun k hk => ?_
  simp only [encode, Instr.row, BitVec.getLsbD_append]
  interval_cases k <;> simp

theorem addImm (dr sr1 : Reg) (imm : BitVec 5) : Statement (.addImm dr sr1 imm) := by
  refine matchesWord_of_bits fun k hk => ?_
  simp only [encode, Instr.row, BitVec.getLsbD_append]
  interval_cases k <;> simp

theorem ld (dr : Reg) (off : BitVec 9) : Statement (.ld dr off) := by
  refine matchesWord_of_bits fun k hk => ?_
  simp only [encode, Instr.row, BitVec.getLsbD_append]
  interval_cases k <;> simp

theorem st (sr : Reg) (off : BitVec 9) : Statement (.st sr off) := by
  refine matchesWord_of_bits fun k hk => ?_
  simp only [encode, Instr.row, BitVec.getLsbD_append]
  interval_cases k <;> simp

theorem jsrr (base : Reg) : Statement (.jsrr base) := by
  refine matchesWord_of_bits fun k hk => ?_
  simp only [encode, Instr.row, BitVec.getLsbD_append]
  interval_cases k <;> simp

theorem jsr (off : BitVec 11) : Statement (.jsr off) := by
  refine matchesWord_of_bits fun k hk => ?_
  simp only [encode, Instr.row, BitVec.getLsbD_append]
  interval_cases k <;> simp

theorem andReg (dr sr1 sr2 : Reg) : Statement (.andReg dr sr1 sr2) := by
  refine matchesWord_of_bits fun k hk => ?_
  simp only [encode, Instr.row, BitVec.getLsbD_append]
  interval_cases k <;> simp

theorem andImm (dr sr1 : Reg) (imm : BitVec 5) : Statement (.andImm dr sr1 imm) := by
  refine matchesWord_of_bits fun k hk => ?_
  simp only [encode, Instr.row, BitVec.getLsbD_append]
  interval_cases k <;> simp

theorem ldr (dr base : Reg) (off : BitVec 6) : Statement (.ldr dr base off) := by
  refine matchesWord_of_bits fun k hk => ?_
  simp only [encode, Instr.row, BitVec.getLsbD_append]
  interval_cases k <;> simp

theorem str (sr base : Reg) (off : BitVec 6) : Statement (.str sr base off) := by
  refine matchesWord_of_bits fun k hk => ?_
  simp only [encode, Instr.row, BitVec.getLsbD_append]
  interval_cases k <;> simp

theorem rti : Statement .rti := by
  unfold Statement
  decide

theorem notReg (dr sr : Reg) : Statement (.notReg dr sr) := by
  refine matchesWord_of_bits fun k hk => ?_
  simp only [encode, Instr.row, BitVec.getLsbD_append]
  interval_cases k <;> simp

theorem ldi (dr : Reg) (off : BitVec 9) : Statement (.ldi dr off) := by
  refine matchesWord_of_bits fun k hk => ?_
  simp only [encode, Instr.row, BitVec.getLsbD_append]
  interval_cases k <;> simp

theorem sti (sr : Reg) (off : BitVec 9) : Statement (.sti sr off) := by
  refine matchesWord_of_bits fun k hk => ?_
  simp only [encode, Instr.row, BitVec.getLsbD_append]
  interval_cases k <;> simp

theorem jmp (base : Reg) : Statement (.jmp base) := by
  refine matchesWord_of_bits fun k hk => ?_
  simp only [encode, Instr.row, BitVec.getLsbD_append]
  interval_cases k <;> simp

theorem res : Statement .res := by
  unfold Statement
  decide

theorem lea (dr : Reg) (off : BitVec 9) : Statement (.lea dr off) := by
  refine matchesWord_of_bits fun k hk => ?_
  simp only [encode, Instr.row, BitVec.getLsbD_append]
  interval_cases k <;> simp

theorem trapGetc : Statement .trapGetc := by
  unfold Statement
  decide

theorem trapOut : Statement .trapOut := by
  unfold Statement
  decide

theorem trapPuts : Statement .trapPuts := by
  unfold Statement
  decide

theorem trapIn : Statement .trapIn := by
  unfold Statement
  decide

theorem trapPutsp : Statement .trapPutsp := by
  unfold Statement
  decide

theorem trapHalt : Statement .trapHalt := by
  unfold Statement
  decide

theorem trapUnknown (vec : Byte) : Statement (.trapUnknown vec) := by
  refine matchesWord_of_bits fun k hk => ?_
  simp only [encode, Instr.row, BitVec.getLsbD_append]
  interval_cases k <;> simp

end EncodesRow

end Sys2Proof.Laws
end

