-- ==== Sys2Proof/Laws/Step.lean ====
section
/-! SUPPORT. Everything a step can do, said once: `step_cases`. -/

namespace Sys2Proof.Machine

/-- The step of a machine that still runs. -/
theorem step_running {s : State} (he : s.err = none) (hr : s.run = .running) :
    step s = match fetch s with
      | .ok w t => exec (decode w) t
      | .raised t => .next t
      | .stuck f => .fault f := by
  cases hf : fetch s <;> simp only [step, he, hr, hf]

/-- A step starts from a machine that runs; it executes the fetched word, or the fetch's poll failed. -/
theorem step_cases {s t : State} (h : step s = .next t) : s.err = none ∧ s.run = .running ∧
    ((∃ w u, fetch s = .ok w u ∧ exec (decode w) u = .next t) ∨ fetch s = .raised t) := by
  cases he : s.err with
  | some x => simp [step, he] at h
  | none =>
    cases hr : s.run with
    | halted => simp [step, he, hr] at h
    | running =>
      refine ⟨rfl, rfl, ?_⟩
      rw [step_running he hr] at h
      cases hf : fetch s with
      | ok w u => exact .inl ⟨w, u, rfl, by simpa [hf] using h⟩
      | raised u =>
        rw [hf] at h
        cases h
        exact .inr rfl
      | stuck f => simp [hf] at h

/-- The fetch reads memory, then increments the pc, or its poll fails. -/
theorem fetch_io (s : State) :
    (fetch s).Post (fun _ t => ∃ u, IoOnly s u ∧ t = u.setPc (s.pc + 1))
      (fun t => ∃ u, IoOnly s u ∧ t = u.recordErr .ioError) := by
  have h := memRead_io s.pc s
  unfold fetch
  cases hm : memRead s.pc s with
  | ok w u =>
    rw [hm] at h
    exact ⟨u, h, by rw [IoOnly.pc h]⟩
  | raised t =>
    rw [hm] at h
    obtain ⟨u, x, hu, rfl, ht⟩ := h
    exact ⟨u, hu, ht⟩
  | stuck f => trivial

end Sys2Proof.Machine
end

