-- ==== Sys2Proof/Tests/Slice0.lean ====
section
/-! SUPPORT. The model's own tests. Every expected value is the spec's: the vectors V1 to V122 and S1 to S8 of
95_test_vectors.md, and the encodings of 30_encoding.md. Each runs at most one step. The theorems `test_witness_…` show, for
each statement of Certificates/Slice0/Obligations.lean that has hypotheses, a state and operands that meet them. -/

namespace Sys2Proof.Tests

open Sys2Proof Sys2Proof.Machine

/-! ### Well-formedness -/

/-- The one check: the fallback row does not hold a vector with a routine of its own; its neighbours are well formed. -/
theorem test_wf_refuses_known_vectors :
    (Instr.trapUnknown 0x20).wf = false ∧ (Instr.trapUnknown 0x25).wf = false ∧
      (Instr.trapUnknown 0x1F).wf = true ∧ (Instr.trapUnknown 0x26).wf = true := by decide

/-! ### Decoding, words written out bit by bit from 30_encoding.md -/

theorem test_decode_operate :
    decode 0b0001_010_011_0_00_100 = .addReg 2 3 4 ∧ decode 0b0001_000_001_1_00001 = .addImm 0 1 1 ∧
      decode 0b0101_001_010_0_00_011 = .andReg 1 2 3 ∧ decode 0b0101_000_001_1_10000 = .andImm 0 1 0x10 ∧
      decode 0b1001_001_010_111111 = .notReg 1 2 := by decide

theorem test_decode_control :
    decode 0b0000_0_1_0_111111101 = .br false true false 0x1FD ∧ decode 0b1100_000_111_000000 = .jmp 7 ∧
      decode 0b0100_1_00000000101 = .jsr 5 ∧ decode 0b0100_0_00_011_000000 = .jsrr 3 := by decide

theorem test_decode_loadstore :
    decode 0b0010_001_000000010 = .ld 1 2 ∧ decode 0b1010_000_000000001 = .ldi 0 1 ∧
      decode 0b0110_100_010_111011 = .ldr 4 2 0x3B ∧ decode 0b1110_000_111111110 = .lea 0 0x1FE ∧
      decode 0b0011_011_000000100 = .st 3 4 ∧ decode 0b1011_010_000000001 = .sti 2 1 ∧
      decode 0b0111_001_110_000011 = .str 1 6 3 := by decide

theorem test_decode_trap_and_reserved :
    decode 0b1111_0000_00100000 = .trapGetc ∧ decode 0b1111_0000_00100001 = .trapOut ∧
      decode 0b1111_0000_00100010 = .trapPuts ∧ decode 0b1111_0000_00100011 = .trapIn ∧
      decode 0b1111_0000_00100100 = .trapPutsp ∧ decode 0b1111_0000_00100101 = .trapHalt ∧
      decode 0b1111_0000_00100110 = .trapUnknown 0x26 ∧ decode 0b1000_000000000000 = .rti ∧
      decode 0b1101_000000000000 = .res := by decide

/-- Table V-DEC: ignored bits do not matter. -/
theorem test_decode_ignored_bits :
    decode 0x0000 = .br false false false 0 ∧ decode 0x1018 = .addReg 0 0 0 ∧ decode 0x1FFF = .addImm 7 7 0x1F ∧
      decode 0x9000 = .notReg 0 0 ∧ decode 0xC1FF = .jmp 7 ∧ decode 0x41C0 = .jsrr 7 ∧ decode 0x4800 = .jsr 0 ∧
      decode 0xFF25 = .trapHalt ∧ decode 0xF0FF = .trapUnknown 0xFF ∧ decode 0x8FFF = .rti := by decide

/-- The host's numbering of a word's bits, and the byte order of an image (20_memory.md R61). -/
theorem test_decode_table_word :
    decodeTableWord 16 0x14C4 = some (.addReg 2 3 4) ∧ decodeTableWord 16 0xF025 = some .trapHalt ∧
      (decodeBytes [0x14, 0xC4, 0x99]).toOption = some (.addReg 2 3 4, [0x99]) ∧ (decodeBytes [0x14]).toOption = none := by decide

/-! ### Sign extension and flags: table V-SEXT and S1 -/

theorem test_sext_boundaries :
    sext (0x0F : BitVec 5) = 0x000F ∧ sext (0x10 : BitVec 5) = 0xFFF0 ∧ sext (0x20 : BitVec 6) = 0xFFE0 ∧
      sext (0x0FF : BitVec 9) = 0x00FF ∧ sext (0x100 : BitVec 9) = 0xFF00 ∧ sext (0x400 : BitVec 11) = 0xFC00 ∧
      sext (0x7FF : BitVec 11) = 0xFFFF := by decide

theorem test_flags_at_boundaries :
    condOf 0x0000 = .z ∧ condOf 0x0001 = .p ∧ condOf 0x7FFF = .p ∧ condOf 0x8000 = .n ∧ condOf 0xFFFF = .n := by decide

/-! ### One step -/

/-- A host with these polls, these input bytes and then the end of the input, and a working output. -/
def host (polls : List PollAnswer) (input : List Byte) : Console :=
  { Console.quiet with input := ⟨input.map .byte, some .endOfInput, 0⟩, polls := ⟨polls, some .noKey, 0⟩ }

/-- The reset state with an instruction at 0x3000 and these registers and cells. -/
def start (word : Word) (regs : List (Reg × Word)) (cells : List (Word × Word)) : State :=
  (cells.foldl (fun s c => s.memWrite c.1 c.2) (regs.foldl (fun s r => s.setReg r.1 r.2) State.reset)).memWrite 0x3000 word

/-- The same, placed elsewhere. -/
def startAt (pc word : Word) (cells : List (Word × Word)) : State :=
  ((cells.foldl (fun s c => s.memWrite c.1 c.2) State.reset).memWrite pc word).setPc pc

/-- What a step's next state shows; none when the step stops. -/
def after {α : Type} (s : State) (view : State → α) : Option α :=
  match step s with
  | .next t => some (view t)
  | .fault _ => none
  | .refused _ => none

/-- A register, the flag and the pc. -/
def result (r : Reg) (t : State) : Word × Cond × Word := (t.reg r, t.cond, t.pc)

theorem test_V1_add_imm_wraps : after (start 0x1061 [(1, 0xFFFF)] []) (result 0) = some (0, .z, 0x3001) := by decide
theorem test_V3_add_imm_overflow : after (start 0x106F [(1, 0x7FFF)] []) (result 0) = some (0x800E, .n, 0x3001) := by decide
theorem test_V4_add_reg : after (start 0x14C4 [(3, 5), (4, 0xFFFD)] []) (result 2) = some (2, .p, 0x3001) := by decide
theorem test_V6_add_same : after (start 0x1241 [(1, 0x4000)] []) (result 1) = some (0x8000, .n, 0x3001) := by decide
theorem test_V9_and_reg :
    after (start 0x5283 [(2, 0xF0F0), (3, 0x8F00)] []) (result 1) = some (0x8000, .n, 0x3001) := by decide
theorem test_V11_and_imm : after (start 0x5070 [(1, 0x1234)] []) (result 0) = some (0x1230, .p, 0x3001) := by decide
theorem test_V15_not : after (start 0x973F [(4, 0x8000)] []) (result 3) = some (0x7FFF, .p, 0x3001) := by decide

theorem test_V22_br_not_taken : after (start 0x0805 [] []) (result 7) = some (0, .z, 0x3001) := by decide
theorem test_V26_br_backward : after (start 0x0500 [] []) (result 7) = some (0, .z, 0x2F01) := by decide
theorem test_V28_br_fetch_wraps : after (startAt 0xFFFF 0x0E01 []) (·.pc) = some 0x0001 := by decide
theorem test_V32_jmp : after (start 0xC1FF [(7, 0x3456)] []) (result 7) = some (0x3456, .z, 0x3456) := by decide
theorem test_V35_jsr : after (start 0x4C00 [] []) (result 7) = some (0x3001, .z, 0x2C01) := by decide
theorem test_V38_jsr_wraps : after (startAt 0xFFFF 0x4E00 []) (result 7) = some (0, .z, 0xFE00) := by decide
theorem test_V39_jsrr : after (startAt 0x3010 0x40C0 []) (result 7) = some (0x3011, .z, 0) := by decide
theorem test_V40_jsrr_r7 : after (start 0x41C0 [(7, 0x5000)] []) (result 7) = some (0x3001, .z, 0x3001) := by decide

theorem test_V50_ld : after (start 0x2202 [] [(0x3003, 0x8001)]) (result 1) = some (0x8001, .n, 0x3001) := by decide
theorem test_V51_ld_own_word : after (start 0x21FF [] []) (result 0) = some (0x21FF, .p, 0x3001) := by decide
theorem test_V52_ldi :
    after (startAt 0x0062 0xA001 [(100, 200), (200, 0x1234)]) (result 0) = some (0x1234, .p, 0x0063) := by decide
/-- V53: the data read of LDI polls. -/
theorem test_V53_ldi_polls :
    after ((start 0xA001 [] [(0x3002, 0xFE00)]).setCon (host [.keyReady] [0x7A]))
      (fun t => (t.reg 0, t.cond, t.cell 0xFE00, t.cell 0xFE02)) = some (0x8000, .n, 0x8000, 0x007A) := by decide
theorem test_V54_ldr_polls :
    after ((start 0x6040 [(1, 0xFE00)] []).setCon (host [.keyReady] [0x61]))
      (fun t => (t.reg 0, t.cond, t.cell 0xFE00, t.cell 0xFE02)) = some (0x8000, .n, 0x8000, 0x0061) := by decide
/-- V55: a poll with no key clears the status and keeps the data. -/
theorem test_V55_ldr_no_key :
    after (start 0x6040 [(1, 0xFE00)] [(0xFE00, 0x8000), (0xFE02, 0x0061)])
      (fun t => (t.reg 0, t.cond, t.cell 0xFE00, t.cell 0xFE02)) = some (0, .z, 0, 0x0061) := by decide
theorem test_V60_lea : after (startAt 0x3002 0xE1FE []) (result 0) = some (0x3001, .p, 0x3003) := by decide
theorem test_V62_lea_wraps : after (startAt 0xFFFF 0xE000 []) (result 0) = some (0, .z, 0) := by decide
theorem test_V64_st :
    after (start 0x3604 [(3, 0xBEEF)] []) (fun t => (t.cell 0x3005, t.cond)) = some (0xBEEF, .z) := by decide
theorem test_V65_st_itself : after (start 0x31FF [(0, 0x5555)] []) (·.cell 0x3000) = some 0x5555 := by decide
theorem test_V66_sti : after (start 0xB401 [(2, 0x41)] [(0x3002, 0x4000)]) (·.cell 0x4000) = some 0x0041 := by decide
theorem test_V68_str_wraps : after (start 0x73A0 [(6, 0x10), (1, 9)] []) (·.cell 0xFFF0) = some 0x0009 := by decide
/-- V112: a store to the status cell stores, and polls nothing. -/
theorem test_V112_str_to_status :
    after ((start 0x7040 [(1, 0xFE00), (0, 0x8000)] []).setCon (host [.keyReady] [0x41]))
      (fun t => (t.cell 0xFE00, t.cell 0xFE02, t.con.polls.known)) = some (0x8000, 0, [.keyReady]) := by decide

/-- What a TRAP at 0x3000 shows: R0, R7, the flag, the pc, the error, whether it halted, and what was delivered. -/
structure TrapView where
  r0 : Word
  r7 : Word
  cond : Cond
  pc : Word
  err : Option Err
  run : RunState
  out : List Byte
deriving DecidableEq

def trapView (t : State) : TrapView := ⟨t.reg 0, t.reg 7, t.cond, t.pc, t.err, t.run, t.con.delivered⟩

theorem test_V82_getc :
    after ((start 0xF020 [] []).setCon (host [] [0xFF])) trapView =
      some ⟨0x00FF, 0x3001, .p, 0x3001, none, .running, []⟩ := by decide
theorem test_V83_getc_eof :
    after (start 0xF020 [(0, 5)] []) trapView = some ⟨5, 0x3001, .z, 0x3001, some .ioError, .running, []⟩ := by decide
theorem test_V84_out :
    after (start 0xF021 [(0, 0x1241)] []) trapView = some ⟨0x1241, 0x3001, .z, 0x3001, none, .running, [0x41]⟩ := by decide
theorem test_V87_puts :
    after (start 0xF022 [(0, 0x4000)] [(0x4000, 0x4100), (0x4001, 0x0041)]) trapView =
      some ⟨0x4000, 0x3001, .z, 0x3001, none, .running, [0x00, 0x41]⟩ := by decide +kernel
/-- V122: the overrun comes after the character, before any flush. -/
theorem test_V122_puts_overrun :
    after (start 0xF022 [(0, 0xFFFF)] [(0xFFFF, 0x0041)]) (fun t => (t.err, t.reg 7, t.written, t.con.delivered)) =
      some (some (.unspecified .stringOverrun), 0x3001, [0x41], []) := by decide +kernel
/-- R145 under `STRING_OVERRUN = wrap`: the string goes on at 0x0000. -/
theorem test_R145_puts_wraps :
    after { start 0xF022 [(0, 0xFFFF)] [(0xFFFF, 0x0041), (0x0000, 0x0042)] with
        cfg := { Config.default with stringOverrun := .wrap } } trapView =
      some ⟨0xFFFF, 0x3001, .z, 0x3001, none, .running, [0x41, 0x42]⟩ := by decide +kernel
theorem test_V90_in :
    after ((start 0xF023 [] []).setCon (host [] [0x79])) trapView =
      some ⟨0x0079, 0x3001, .p, 0x3001, none, .running, Config.promptDefault ++ [0x79]⟩ := by decide +kernel
theorem test_V91_putsp :
    after (start 0xF024 [(0, 0x4000)] [(0x4000, 0x6548), (0x4001, 0x006C)]) trapView =
      some ⟨0x4000, 0x3001, .z, 0x3001, none, .running, [0x48, 0x65, 0x6C]⟩ := by decide +kernel
theorem test_V92_putsp_low_byte_zero :
    after (start 0xF024 [(0, 0x4000)] [(0x4000, 0x4100)]) (·.con.delivered) = some [0x00, 0x41] := by decide +kernel
/-- V93, V94, S6. -/
theorem test_V94_halt :
    after (start 0xFF25 [] [(0x3001, 0xD000)]) trapView =
      some ⟨0, 0x3001, .z, 0x3001, none, .halted, [0x48, 0x41, 0x4C, 0x54, 0x0A]⟩ := by decide +kernel
theorem test_V121_unknown_vector :
    after (start 0xF0AA [(7, 0x0BAD)] []) trapView =
      some ⟨0, 0x3001, .z, 0x3001, some (.invalidOpcode 0xAA), .running, []⟩ := by decide
theorem test_V100_rti :
    after (start 0x8000 [] []) trapView = some ⟨0, 0, .z, 0x3001, some (.invalidOpcode 8), .running, []⟩ := by decide
theorem test_V120_res :
    after (start 0xD123 [(7, 0x0BAD)] []) trapView =
      some ⟨0, 0x0BAD, .z, 0x3001, some (.invalidOpcode 13), .running, []⟩ := by decide

/-- R8's default texts, as text. -/
theorem test_default_texts :
    Config.promptDefault.map (·.toNat) = "Enter a character: ".toList.map (·.toNat) ∧
      Config.haltDefault.map (·.toNat) = "HALT\n".toList.map (·.toNat) := by decide

/-! ### The fetch at the status address, V110 and V111 -/

theorem test_V110_fetch_no_key :
    after (State.reset.setPc 0xFE00) (fun t => (t.pc, t.cell 0xFE00, t.err)) = some (0xFE01, 0, none) := by decide
theorem test_V111_fetch_key :
    after ((State.reset.setPc 0xFE00).setCon (host [.keyReady] [0x41]))
      (fun t => (t.cell 0xFE00, t.cell 0xFE02, t.err)) = some (0x8000, 0x0041, some (.invalidOpcode 8)) := by decide

/-! ### The loader, V113 to V119, and boot, S7 -/

/-- What an image leaves: three cells and the error. -/
def loaded (images : List (List Byte)) : Word × Word × Word × Option Err :=
  let t := loadImages images State.reset
  (t.cell 0x3000, t.cell 0x3001, t.cell 0xFFFF, t.err)

theorem test_V113_to_V115_images :
    loaded [[0x30, 0x00, 0x12, 0x34, 0xAB, 0xCD]] = (0x1234, 0xABCD, 0, none) ∧
      loaded [[0x30, 0x00, 0xF0, 0x25, 0x99]] = (0xF025, 0, 0, none) ∧
      loaded [[0x30, 0x00]] = (0, 0, 0, none) := by decide
theorem test_V116_to_V119_images :
    loaded [[0x30]] = (0, 0, 0, some .invalidProgramFormat) ∧
      loaded [[0xFF, 0xFF, 0x00, 0x01, 0x00, 0x02]] = (0, 0, 0, some .invalidProgramFormat) ∧
      loaded [[0xFF, 0xFF, 0x00, 0x01]] = (0, 0, 0x0001, none) ∧
      loaded [[0x30, 0x00, 0x11, 0x11, 0x22, 0x22], [0x30, 0x01, 0x33, 0x33]] = (0x1111, 0x3333, 0, none) := by decide
theorem test_S7_boot_and_halt :
    after (boot Config.default Console.quiet [[0x30, 0x00, 0xF0, 0x25]] .ok) trapView =
      some ⟨0, 0x3001, .z, 0x3001, none, .halted, [0x48, 0x41, 0x4C, 0x54, 0x0A]⟩ := by decide +kernel

/-- R35: the output buffer is empty at creation whatever host supplies the streams, and the input is kept. -/
theorem test_R35_output_empty :
    let con := { host [] [0x41] with buffer := [0x42], delivered := [0x43] }
    (State.create Config.default con).written = [] ∧ (State.create Config.default con).con.input = con.input := by decide

/-- The host's placing of an instruction: the next step runs it. -/
theorem test_with_fetch_word :
    after (State.reset.withFetchWord 16 0x102A) (result 0) = some (10, .p, 0x3001) := by decide

/-! ### Witnesses: encoding -/

theorem test_witness_decode_gives_back :
    (Instr.trapUnknown 0x00).wf = true ∧ (Instr.trapUnknown 0x1F).wf = true ∧ (Instr.trapUnknown 0xFF).wf = true ∧
      (Instr.br true true true 0x1FF).wf = true ∧ (Instr.trapHalt).wf = true := by decide

/-- The lowest and the highest word of each opcode, and both sides of each selecting bit. -/
theorem test_witness_decoder_reads_fields :
    (∀ k ∈ List.range 16, (BitVec.ofNat 16 (4096 * k)).toNat / 4096 = k ∧
      (BitVec.ofNat 16 (4096 * k + 4095)).toNat / 4096 = k) ∧
    ((0x1FDF : Word).toNat / 32 % 2 = 0 ∧ (0x1FFF : Word).toNat / 32 % 2 = 1) ∧
    ((0x47FF : Word).toNat / 2048 % 2 = 0 ∧ (0x4800 : Word).toNat / 2048 % 2 = 1) ∧
    (∀ k ∈ [0x20, 0x21, 0x22, 0x23, 0x24, 0x25], (BitVec.ofNat 16 (0xFF00 + k)).toNat % 256 = k) ∧
    ((0xF01F : Word).toNat % 256 < 0x20 ∧ 0x25 < (0xF026 : Word).toNat % 256) := by decide

/-- A word that a row other than its own matches not, and the row it matches. -/
theorem test_witness_decoder_agrees_with_table :
    ∃ r ∈ firstRows, r.matchesWord 0xF025 = true := ⟨Instr.trapHalt.row, by decide, by decide⟩

theorem test_witness_ignored_bits : decode 0x903F = decode 0x9000 ∧ (0x903F : Word) ≠ 0x9000 := by decide

/-! ### Witnesses: memory and the keyboard -/

theorem test_witness_write_stores_one_cell :
    State.reset.cfg.wf = true ∧ ∃ w t, memRead State.reset.cfg.kbsrAddr
      (State.reset.memWrite State.reset.cfg.kbsrAddr 0x1234) = .ok w t := ⟨by decide, _, _, rfl⟩

/-- One state for each clause: off the status address, a key, no key, a failing poll. -/
theorem test_witness_read_polls :
    (0xFE01 : Word) ≠ State.reset.cfg.kbsrAddr ∧ State.reset.cfg.kbsrAddr ≠ State.reset.cfg.kbdrAddr ∧
    (∃ c, (host [.keyReady] [0x41]).pollKey = (.some 0x41, c)) ∧ (∃ c, (host [.keyReady] []).pollKey = (.none, c)) ∧
    (∃ c, (host [.noKey] [0x41]).pollKey = (.none, c)) ∧ (∃ c, (host [.failure] [0x41]).pollKey = (.failed, c)) :=
  ⟨by decide, by decide, ⟨_, rfl⟩, ⟨_, rfl⟩, ⟨_, rfl⟩, ⟨_, rfl⟩⟩

theorem test_witness_one_stream :
    (host [.keyReady] [0x41, 0x42]).input = ⟨[.byte 0x41, .byte 0x42], some .endOfInput, 0⟩ ∧
    (host [.keyReady] [0x41]).polls = ⟨[.keyReady], some .noKey, 0⟩ ∧
    (host [.noKey] [0x41]).polls = ⟨[.noKey], some .noKey, 0⟩ ∧
    (host [.failure] [0x41]).polls = ⟨[.failure], some .noKey, 0⟩ ∧
    (State.reset.setCon (host [] [0x41])).con = host [] [0x41] := by decide

/-- S5's host. -/
theorem test_witness_status_reads :
    (State.reset.setCon (host [.noKey, .noKey, .keyReady, .noKey] [0x41])).cfg.wf = true ∧
    (host [.noKey, .noKey, .keyReady, .noKey] [0x41]).input = ⟨[.byte 0x41], some .endOfInput, 0⟩ ∧
    (host [.noKey, .noKey, .keyReady, .noKey] [0x41]).polls =
      ⟨[.noKey, .noKey, .keyReady, .noKey], some .noKey, 0⟩ := by decide

/-- Two memories in canonical form, built in different orders, that read alike. -/
theorem test_witness_canonical_memories :
    Memory.wf (Memory.write (Memory.write [] 5 1) 0xFFFF 2) = true ∧
    Memory.wf (Memory.write (Memory.write [] 0xFFFF 2) 5 1) = true ∧
    ∀ a, a < 65536 → Memory.read (Memory.write (Memory.write [] 5 1) 0xFFFF 2) a =
      Memory.read (Memory.write (Memory.write [] 0xFFFF 2) 5 1) a := ⟨by decide, by decide, fun _ _ => rfl⟩

/-! ### Witnesses: reset, loading and boot -/

theorem test_witness_parameters : Config.default.wf = true := by decide

theorem test_witness_image :
    ([] : List Byte).length ≤ 1 ∧ ([0x99] : List Byte).length ≤ 1 ∧ ([] : List Byte).length < 2 ∧
      ([0x30] : List Byte).length < 2 := by decide

/-- At the top of memory: one word fits at 0xFFFF, two do not. -/
theorem test_witness_load_words :
    (0xFFFF : Word).toNat + [(0x0001 : Word)].length ≤ 65536 ∧
      65536 < (0xFFFF : Word).toNat + [(0x0001 : Word), 0x0002].length := by decide

/-- V119's images, which overlap in their last word, and V116's. -/
theorem test_witness_later_images :
    State.reset.err = none ∧
    parseImage [0x30, 0x00, 0x11, 0x11, 0x22, 0x22] = some (0x3000, [0x1111, 0x2222]) ∧
    parseImage [0x30, 0x01, 0x33, 0x33] = some (0x3001, [0x3333]) ∧
    (0x3000 : Word).toNat + [(0x1111 : Word), 0x2222].length ≤ 65536 ∧
    (0x3001 : Word).toNat + [(0x3333 : Word)].length ≤ 65536 ∧
    (0 < [(0x3333 : Word)].length ∧ (0x3001 : Word).toNat = (0x3001 : Word).toNat + 0) ∧
    (0 < [(0x1111 : Word), 0x2222].length ∧ (0x3000 : Word).toNat = (0x3000 : Word).toNat + 0 ∧
      (0x3000 : Word).toNat < (0x3001 : Word).toNat) ∧
    (loadImages [[0x30]] (State.create Config.default Console.quiet)).err = some .invalidProgramFormat := by decide

/-- One more image after two that left no error, and after none; its two words end at the last cell. -/
theorem test_witness_last_image :
    (loadImages [[0x30, 0x00, 0x11, 0x11], [0xFF, 0xFE, 0x22, 0x22]] State.reset).err = none ∧
    (loadImages [] State.reset).err = none ∧
    parseImage [0xFF, 0xFE, 0x33, 0x33, 0x44, 0x44] = some (0xFFFE, [0x3333, 0x4444]) ∧
    (0xFFFE : Word).toNat + [(0x3333 : Word), 0x4444].length ≤ 65536 := by decide

/-- Images that leave no error and images that leave one, before raw mode. -/
theorem test_witness_boot : Config.default.wf = true ∧
    (loadImages [[0x30, 0x00, 0xF0, 0x25]] (State.create Config.default Console.quiet)).err = none ∧
    (loadImages [[0x30]] (State.create Config.default Console.quiet)).err = some .invalidProgramFormat := by decide

/-! ### Witnesses: the step -/

/-- Each clause: off the status address, a read that succeeds there, and a poll that fails. -/
theorem test_witness_step_runs :
    (State.reset.err = none ∧ State.reset.run = .running ∧ State.reset.pc ≠ State.reset.cfg.kbsrAddr) ∧
    (∃ w t, memRead (State.reset.setPc 0xFE00).pc (State.reset.setPc 0xFE00) = .ok w t) ∧
    (∃ t, memRead (State.reset.setPc 0xFE00).pc ((State.reset.setPc 0xFE00).setCon (host [.failure] [])) = .raised t) :=
  ⟨by decide, ⟨_, _, rfl⟩, ⟨_, rfl⟩⟩

theorem test_witness_no_step :
    (State.reset.recordErr .ioError).status = .errored .ioError ∧ State.reset.halt.status = .halted ∧
      ∃ t, step State.reset = .next t := ⟨by decide, by decide, _, rfl⟩

/-- ST, STR and STI into the word that follows the store, and elsewhere; STI's pointer read at the status address, which polls
and answers 0 as the address. -/
theorem test_witness_store_seen :
    State.reset.err = none ∧ State.reset.run = .running ∧ (0x3000 : Word) ≠ State.reset.cfg.kbsrAddr ∧
    State.reset.pc = 0x3000 ∧ (0 : Word) ≠ State.reset.cfg.kbsrAddr ∧
    pcRel9 State.reset 0 = 0x3000 ∧ baseOff (State.reset.setReg 1 0x3001) 1 0x3F = 0x3000 ∧
    (∃ u, memRead (pcRel9 (State.reset.memWrite 0x3001 0x3000) 1) (State.reset.memWrite 0x3001 0x3000) = .ok 0x3000 u) ∧
    (∃ u, memRead (pcRel9 (State.reset.setPc 0xFDFF) 1) (State.reset.setPc 0xFDFF) = .ok 0 u) :=
  ⟨rfl, rfl, by decide, rfl, by decide, by decide, by decide, ⟨_, rfl⟩, ⟨_, rfl⟩⟩

theorem test_witness_fetch_polls :
    (State.reset.setPc 0xFE00).status = .running ∧ (State.reset.setPc 0xFE00).cfg.wf = true ∧
    (State.reset.setPc 0xFE00).pc = (State.reset.setPc 0xFE00).cfg.kbsrAddr ∧
    (∃ c, (host [] []).pollKey = (.none, c)) ∧ (∃ c, (host [.keyReady] [0x41]).pollKey = (.some 0x41, c)) ∧
    State.reset.cfg.kbsrReady = 0x8000 := ⟨by decide, by decide, by decide, ⟨_, rfl⟩, ⟨_, rfl⟩, by decide⟩

/-! ### Witnesses: instructions -/

/-- A word of each opcode the encoding clauses name, with the selecting bit both ways. -/
theorem test_witness_opcodes :
    ((0x1FDF : Word).extractLsb' 12 4 = 0b0001#4 ∧ (0x1FDF : Word).getLsbD 5 = false) ∧
    ((0x1FFF : Word).extractLsb' 12 4 = 0b0001#4 ∧ (0x1FFF : Word).getLsbD 5 = true) ∧
    ((0x5000 : Word).extractLsb' 12 4 = 0b0101#4 ∧ (0x5000 : Word).getLsbD 5 = false) ∧
    ((0x5020 : Word).extractLsb' 12 4 = 0b0101#4 ∧ (0x5020 : Word).getLsbD 5 = true) ∧
    (0x9000 : Word).extractLsb' 12 4 = 0b1001#4 ∧ (0xCFFF : Word).extractLsb' 12 4 = 0b1100#4 ∧
    ((0x4800 : Word).extractLsb' 12 4 = 0b0100#4 ∧ (0x4800 : Word).getLsbD 11 = true) ∧
    (0xEFFF : Word).extractLsb' 12 4 = 0b1110#4 ∧ (0x3000 : Word).extractLsb' 12 4 = 0b0011#4 ∧
    (0x7FFF : Word).extractLsb' 12 4 = 0b0111#4 ∧ (0x8FFF : Word).extractLsb' 12 4 = 8#4 ∧
    (0xD000 : Word).extractLsb' 12 4 = 13#4 := by decide

/-- BR: a mask that selects the current flag and one that does not. -/
theorem test_witness_branch :
    (BitVec.ofBool false ++ BitVec.ofBool true ++ BitVec.ofBool false).setWidth 16 &&& State.reset.cond.code ≠ 0 ∧
    (BitVec.ofBool true ++ BitVec.ofBool false ++ BitVec.ofBool true).setWidth 16 &&& State.reset.cond.code = 0 := by decide

theorem test_witness_jsrr : (0 : Reg) ≠ 7 ∧ (7 : Reg) = 7 := by decide

theorem test_witness_linking :
    Instr.trapHalt.links = true ∧ (∃ t, exec .trapHalt State.reset = .next t) ∧ (Instr.jsrr 7).links = true ∧
      (∃ t, exec (.jsrr 7) State.reset = .next t) := ⟨rfl, ⟨_, rfl⟩, rfl, ⟨_, rfl⟩⟩

/-- Loads and STI: an address beside the status address, a read of it that polls, and one whose poll fails; for LDI and STI the
pointer is at one of these too. -/
theorem test_witness_memory_operands :
    pcRel9 State.reset 1 ≠ State.reset.cfg.kbsrAddr ∧ State.reset.cell (pcRel9 State.reset 1) ≠ State.reset.cfg.kbsrAddr ∧
    (∃ v u, memRead (pcRel9 (State.reset.setPc 0xFDFF) 1) (State.reset.setPc 0xFDFF) = .ok v u ∧
      ∃ v' u', memRead v u = .ok v' u') ∧
    (∃ u, memRead (pcRel9 (State.reset.setPc 0xFDFF) 1) ((State.reset.setPc 0xFDFF).setCon (host [.failure] [])) =
      .raised u) ∧
    baseOff State.reset 0 0x3F ≠ State.reset.cfg.kbsrAddr ∧
    (∃ v u, memRead (baseOff (State.reset.setReg 1 0xFE01) 1 0x3F) (State.reset.setReg 1 0xFE01) = .ok v u) ∧
    (∃ u, memRead (baseOff (State.reset.setReg 1 0xFE01) 1 0x3F)
      ((State.reset.setReg 1 0xFE01).setCon (host [.failure] [])) = .raised u) :=
  ⟨by decide, by decide, ⟨_, _, rfl, _, _, rfl⟩, ⟨_, rfl⟩, by decide, ⟨_, _, rfl⟩, ⟨_, rfl⟩⟩

/-- LDI's second read failing: the pointer holds the status address. -/
theorem test_witness_indirect_failure :
    ∃ p u0 u, memRead (pcRel9 State.reset 0) ((State.reset.memWrite 0x3000 0xFE00).setCon (host [.failure] [])) = .ok p u0 ∧
      memRead p u0 = .raised u := ⟨_, _, _, rfl, rfl⟩

/-! ### Witnesses: TRAP -/

/-- A host whose stream gives, first, this. -/
def hostGives (x : InputItem) : Console := { Console.quiet with input := ⟨[x], none, 0⟩ }

theorem test_witness_getc :
    (∃ c, (hostGives (.byte 0x00)).takeInput = (.byte 0x00, c)) ∧ (∃ c, (hostGives (.byte 0xFF)).takeInput = (.byte 0xFF, c)) ∧
    (∃ c, (hostGives .endOfInput).takeInput = (.endOfInput, c)) ∧ (∃ c, (hostGives .failure).takeInput = (.failure, c)) ∧
    (hostGives .silence).takeInput.1 = .silence := ⟨⟨_, rfl⟩, ⟨_, rfl⟩, ⟨_, rfl⟩, ⟨_, rfl⟩, rfl⟩

/-- A host whose next write and next flush go as given. -/
def hostTakes (w f : OutputAnswer) : Console := { Console.quiet with writes := ⟨[w], some .ok, 0⟩, flushes := ⟨[f], some .ok, 0⟩ }

theorem test_witness_out :
    ((hostTakes .ok .ok).takeWrite.1 = .ok ∧ (hostTakes .ok .ok).takeFlush.1 = .ok) ∧
    (hostTakes .failure .ok).takeWrite.1 = .failure ∧
    ((hostTakes .ok .failure).takeWrite.1 = .ok ∧ (hostTakes .ok .failure).takeFlush.1 = .failure) := by decide

theorem test_witness_output_works : Console.quiet.OutputWorks ∧ (hostGives (.byte 0x79)).OutputWorks ∧
    (hostGives .endOfInput).OutputWorks ∧ (hostGives .silence).OutputWorks := by
  simp [Console.OutputWorks, Console.quiet, hostGives]

/-- IN from a run with no error: the write of the echo fails, after those of the prompt; and the first flush fails. -/
theorem test_witness_in_fails :
    let echo : Console := { host [] [0x79] with writes := ⟨List.replicate 19 .ok, some .failure, 0⟩ }
    (∃ t, exec .trapIn (State.reset.setCon echo) = .next t ∧ (State.reset.setCon echo).err = none ∧ t.err = some .ioError ∧
      t.con.delivered = Config.promptDefault) ∧
    (∃ t, exec .trapIn (State.reset.setCon (hostTakes .ok .failure)) = .next t ∧ t.err ≠ none) :=
  ⟨⟨_, rfl, rfl, rfl, rfl⟩, ⟨_, rfl, by decide⟩⟩

/-- A range that misses the status address. -/
theorem plainRange_of {s : State} {a : Word} {n : Nat} (h : a.toNat + n ≤ 65536)
    (hk : s.cfg.kbsrAddr.toNat < a.toNat ∨ a.toNat + n ≤ s.cfg.kbsrAddr.toNat) : s.PlainRange a n := by
  refine ⟨h, fun _ b h1 h2 => ?_⟩
  rintro rfl
  omega

/-- A string of two words with its terminator in the last cell of memory. -/
def stringAtTop : State := start 0xF022 [(0, 0xFFFD)] [(0xFFFD, 0x0041), (0xFFFE, 0x4100)]

theorem test_witness_strings : stringAtTop.con.OutputWorks ∧ (∀ w ∈ [(0x0041 : Word), 0x4100], w ≠ 0) ∧
    stringAtTop.HoldsWords 0xFFFD [0x0041, 0x4100, 0] ∧ stringAtTop.reg 0 = 0xFFFD ∧
    stringAtTop.PlainRange 0xFFFD 3 ∧ stringAtTop.cfg.trapReadPolls = true :=
  ⟨test_witness_output_works.1, by simp, ⟨by decide, by decide, by decide, trivial⟩, by decide,
    plainRange_of (by decide) (by decide), rfl⟩

/-- The empty string, at address 0. -/
theorem test_witness_empty_string : State.reset.HoldsWords (State.reset.reg 0) ([] ++ [0]) ∧
    State.reset.PlainRange (State.reset.reg 0) (([] : List Word).length + 1) :=
  ⟨⟨by decide, trivial⟩, plainRange_of (by decide) (by decide)⟩

/-- V122's string, up to the last cell, under `fault`; under `wrap` it goes on with the word at 0x0000. -/
def stringOverTop (o : StringOverrun) : State :=
  { start 0xF022 [(0, 0xFFFF)] [(0xFFFF, 0x0041), (0x0000, 0x0042)] with
    cfg := { Config.default with stringOverrun := o } }

theorem test_witness_string_past_the_top (o : StringOverrun) : (stringOverTop o).con.OutputWorks ∧
    (∀ w ∈ [(0x0041 : Word)], w ≠ 0) ∧ (stringOverTop o).reg 0 = 0xFFFF ∧ (stringOverTop o).HoldsWords 0xFFFF [0x0041] ∧
    (0xFFFF : Word).toNat + [(0x0041 : Word)].length = 65536 ∧ (stringOverTop o).PlainRange 0xFFFF 1 ∧
    (stringOverTop o).cfg.stringOverrun = o ∧ (∀ v ∈ [(0x0042 : Word)], v ≠ 0) ∧
    (stringOverTop o).HoldsWords 0 [0x0042, 0] ∧ (stringOverTop o).PlainRange 0 2 := by
  refine ⟨test_witness_output_works.1, by simp, by cases o <;> decide, ⟨by cases o <;> decide, trivial⟩, by decide,
    plainRange_of (by decide) (.inl (by cases o <;> decide)), rfl, by simp,
    ⟨by cases o <;> decide, by cases o <;> decide, trivial⟩, plainRange_of (by decide) (.inr (by cases o <;> decide))⟩

theorem test_witness_string_routines : State.reset.cfg.stringOverrun = .fault := rfl

/-! ### Witnesses: the whole machine -/

theorem test_witness_whole_machine :
    ((Instr.lea 0 1).jumps = false ∧ ∃ t, exec (.lea 0 1) State.reset = .next t) ∧ (∃ w t, fetch State.reset = .ok w t) ∧
    (State.reset.cond ≠ .n ∧ State.reset.cond ≠ .p ∧ ∃ t, exec (.br true false true 5) State.reset = .next t) ∧
    ((Instr.st 0 1).flagDest = none ∧ ∃ t, exec (.st 0 1) State.reset = .next t) ∧
    ((Instr.ld 3 1).flagDest = some 3 ∧ State.reset.err = none ∧ ∃ t, exec (.ld 3 1) State.reset = .next t ∧ t.err = none) ∧
    ((Instr.trapGetc).flagDest = some 0 ∧ ∃ t, exec .trapGetc State.reset = .next t ∧ t.err ≠ none) :=
  ⟨⟨rfl, _, rfl⟩, ⟨_, _, rfl⟩, ⟨by decide, by decide, _, rfl⟩, ⟨rfl, _, rfl⟩, ⟨rfl, rfl, _, rfl, rfl⟩, rfl, _, rfl, by decide⟩

/-- One instruction for each reach, with a next state; the reaches of each clause; and one that raises an error. -/
theorem test_witness_reaches :
    ((Instr.jmp 1).reach = .registersOnly ∧ ∃ t, exec (.jmp 1) State.reset = .next t) ∧
    ((Instr.str 0 1 2).reach = .stores ∧ ∃ t, exec (.str 0 1 2) State.reset = .next t) ∧
    ((Instr.ldr 0 1 2).reach = .reads ∧ ∃ t, exec (.ldr 0 1 2) State.reset = .next t) ∧
    ((Instr.sti 0 2).reach = .readsThenStores ∧ ∃ t, exec (.sti 0 2) State.reset = .next t) ∧
    (Instr.trapGetc.reach = .takesInput ∧
      ∃ t, exec .trapGetc State.reset = .next t ∧ State.reset.err = none ∧ t.err = some .ioError) ∧
    (Instr.trapOut.reach = .writesOutput ∧ ∃ t, exec .trapOut State.reset = .next t) ∧
    (Instr.trapHalt.reach = .writesOutput ∧ ∃ t, exec .trapHalt State.reset = .next t) ∧
    (Instr.trapIn.reach = .takesAndWrites ∧ ∃ t, exec .trapIn State.reset = .next t) ∧
    (Instr.trapPuts.reach = .readsAndWrites ∧ ∃ t, exec .trapPuts State.reset = .next t) ∧
    (∀ x ∈ [Reach.registersOnly, .takesInput, .writesOutput, .takesAndWrites], x.noMemory = true) ∧
    (∀ x ∈ [Reach.registersOnly, .stores, .reads, .readsThenStores, .takesInput], x.output = false) :=
  ⟨⟨rfl, _, rfl⟩, ⟨rfl, _, rfl⟩, ⟨rfl, _, rfl⟩, ⟨rfl, _, rfl⟩, ⟨rfl, _, rfl, rfl, rfl⟩, ⟨rfl, _, rfl⟩, ⟨rfl, _, rfl⟩,
    ⟨rfl, _, rfl⟩, ⟨rfl, _, rfl⟩, by decide, by decide⟩

/-- A step that halts, and one that writes output. -/
theorem test_witness_halting_step : ∃ t, step (start 0xF025 [] []) = .next t ∧ t.run = .halted := ⟨_, rfl, rfl⟩

theorem test_witness_invariant : State.reset.Inv ∧ ∃ t, step State.reset = .next t :=
  ⟨⟨rfl, by decide, .inl rfl⟩, _, rfl⟩

/-- A host that takes no byte: one state for each of IN, HALT and PUTS or PUTSP. -/
theorem test_witness_failed_output :
    ((State.reset.setCon (hostTakes .failure .ok)).con.takeWrite.1 = .failure ∧
      (State.reset.setCon (hostTakes .failure .ok)).cfg.inPrompt ≠ [] ∧
      (State.reset.setCon (hostTakes .failure .ok)).cfg.haltText ≠ []) ∧
    ((stringAtTop.setCon (hostTakes .failure .ok)).con.takeWrite.1 = .failure ∧
      (stringAtTop.setCon (hostTakes .failure .ok)).PlainRange ((stringAtTop.setCon (hostTakes .failure .ok)).reg 0) 1 ∧
      (stringAtTop.setCon (hostTakes .failure .ok)).cell ((stringAtTop.setCon (hostTakes .failure .ok)).reg 0) ≠ 0) :=
  ⟨by decide, by decide, plainRange_of (by decide) (.inl (by decide)), by decide⟩

theorem host_works (polls : List PollAnswer) (input : List Byte) : (host polls input).OutputWorks := by
  simp [Console.OutputWorks, host, Console.quiet]

/-- A one-word string below the status address, three cells after it, and this host: V89's state with no key; with the key 0x42
the string goes on over the cells at 0xFE01 and 0xFE02, the second of which the poll writes. -/
def stringToStatus (polls : List PollAnswer) : State :=
  (start 0xF022 [(0, 0xFDFF)] [(0xFDFF, 0x0041), (0xFE01, 0x0043), (0xFE02, 0x7777)]).setCon (host polls [0x42])

theorem test_witness_string_polls (polls : List PollAnswer) :
    (stringToStatus polls).con.OutputWorks ∧ (stringToStatus polls).cfg.trapReadPolls = true ∧
    (stringToStatus polls).cfg.wf = true ∧ (∀ w ∈ [(0x0041 : Word)], w ≠ 0) ∧ (stringToStatus polls).reg 0 = 0xFDFF ∧
    (stringToStatus polls).HoldsWords 0xFDFF [0x0041] ∧
    (0xFDFF : Word).toNat + [(0x0041 : Word)].length = (stringToStatus polls).cfg.kbsrAddr.toNat ∧
    (∃ c, (host [] [0x42]).pollKey = (.none, c)) ∧ (∃ c, (host [.failure] [0x42]).pollKey = (.failed, c)) ∧
    (∃ c, (host [.keyReady] [0x42]).pollKey = (.some 0x42, c)) ∧
    (∀ v ∈ [(0x0043 : Word), 0x0042], v ≠ 0) ∧
    (stringToStatus polls).cfg.kbsrAddr.toNat + [(0x0043 : Word), 0x0042].length + 2 ≤ 65536 ∧
    ((stringToStatus polls).refreshKeyboard (.some 0x42)).HoldsWords 0xFE01 [0x0043, 0x0042, 0] :=
  ⟨host_works polls [0x42], rfl, (by decide : Config.default.wf = true), by simp, rfl, ⟨rfl, trivial⟩, rfl, ⟨_, rfl⟩,
    ⟨_, rfl⟩, ⟨_, rfl⟩, by simp, (by decide : (0xFE00 : Word).toNat + 2 + 2 ≤ 65536), ⟨rfl, rfl, rfl, trivial⟩⟩

/-- The empty prefix: R0 is the status address itself. -/
theorem test_witness_string_at_status : (State.reset.setReg 0 0xFE00).HoldsWords 0xFE00 [] ∧
    ((State.reset.setReg 0 0xFE00).reg 0).toNat + ([] : List Word).length = State.reset.cfg.kbsrAddr.toNat :=
  ⟨trivial, by decide⟩

/-- The status address last in memory, a one-word string below it, and a key there. -/
def stringToLastStatus : State :=
  { start 0xF022 [(0, 0xFFFE)] [(0xFFFE, 0x0041)] with
    cfg := { Config.default with kbsrAddr := 0xFFFF }, con := host [.keyReady] [0x42] }

theorem test_witness_string_polls_last : stringToLastStatus.con.OutputWorks ∧ stringToLastStatus.cfg.trapReadPolls = true ∧
    stringToLastStatus.reg 0 = 0xFFFE ∧ stringToLastStatus.HoldsWords 0xFFFE [0x0041] ∧
    (0xFFFE : Word).toNat + [(0x0041 : Word)].length = stringToLastStatus.cfg.kbsrAddr.toNat ∧
    stringToLastStatus.cfg.wf = true ∧ stringToLastStatus.cfg.kbsrAddr = 0xFFFF ∧
    stringToLastStatus.cfg.stringOverrun = .fault ∧ (∃ c, stringToLastStatus.con.pollKey = (.some 0x42, c)) :=
  ⟨host_works _ _, rfl, rfl, ⟨rfl, trivial⟩, by decide, by decide, rfl, rfl, _, rfl⟩

/-- The parts of one turn of a string's loop: a word, a zero word, a failed poll; a write that succeeds and one that fails; and
the last address under both settings. -/
theorem test_witness_string_word (o : StringOverrun) :
    (∃ w t, stringWord 0xFFFD stringAtTop = .ok w t ∧ w ≠ 0 ∧ ∃ u, putsWord w t = .ok () u) ∧
    (∃ t, stringWord 0xFFFF stringAtTop = .ok 0 t) ∧
    (∃ t, stringWord 0xFE00 (stringToStatus [.failure]) = .raised t) ∧
    (∃ u, putsWord 0x0041 (stringAtTop.setCon (hostTakes .failure .ok)) = .raised u) ∧
    (∃ t u, stringWord 0xFFFF (stringOverTop o) = .ok 0x0041 t ∧ putsWord 0x0041 t = .ok () u ∧ u.cfg.stringOverrun = o) ∧
    highByte 0x0041 = 0 ∧ highByte 0x4100 ≠ 0 :=
  ⟨⟨_, _, rfl, by decide, _, rfl⟩, ⟨_, rfl⟩, ⟨_, rfl⟩, ⟨_, rfl⟩, ⟨stringOverTop o, _, by cases o <;> rfl, rfl, rfl⟩, by decide,
    by decide⟩

/-- The host's core is this machine. -/
theorem test_core : core.step = step ∧ core.reset = State.reset := ⟨rfl, rfl⟩

end Sys2Proof.Tests
end

section
/-! Scope (00_scope.md): R11's extensions, and the streams of R14 with known answers at their heads. -/

namespace Sys2Proof.Machine

/-! ### Extension -/

theorem sext_toInt {n : Nat} (v : BitVec n) (hn : n ≤ 16) : (sext v).toInt = v.toInt := by
  rw [sext_eq_signExtend, BitVec.toInt_signExtend_of_le hn]

/-- Masking back to the field's width undoes the extension. -/
theorem sext_setWidth {n : Nat} (v : BitVec n) (hn : n ≤ 16) : (sext v).setWidth n = v := by
  refine BitVec.eq_of_getLsbD_eq fun k hk => ?_
  have hk16 : k < 16 := by omega
  rw [sext_eq_signExtend, BitVec.getLsbD_setWidth, BitVec.getLsbD_signExtend]
  simp [hk, hk16]

/-- Settles O6: R11's formula is two's-complement sign extension (`sext_eq_signExtend`), and `zext_8` keeps the number. -/
theorem extensionKeepsTheFieldsValue : Obligations.ExtensionKeepsTheFieldsValue :=
  ⟨fun _ v hn => ⟨sext_toInt v hn, sext_setWidth v hn⟩, zext8_toNat⟩

/-! ### The streams when their next answer is known -/

theorem Console.takePoll_known {c : Console} {a : PollAnswer} {ps : List PollAnswer} {pafter : Option PollAnswer} {m : Nat}
    (h : c.polls = ⟨a :: ps, pafter, m⟩) : c.takePoll = (a, { c with polls := ⟨ps, pafter, m⟩ }) := by
  rw [Console.takePoll, h, Feed.take_known]

theorem Console.takeInput_known {c : Console} {x : InputItem} {more : List InputItem} {after : Option InputItem} {n : Nat}
    (h : c.input = ⟨x :: more, after, n⟩) : c.takeInput = (x, { c with input := ⟨more, after, n⟩ }) := by
  rw [Console.takeInput, h, Feed.take_known]

/-! ### What a poll and a blocking read make of the answers -/

theorem Console.pollKey_of_noKey {c d : Console} (h : c.takePoll = (.noKey, d)) : c.pollKey = (.none, d) := by
  simp [Console.pollKey, h]

theorem Console.pollKey_of_failure {c d : Console} (h : c.takePoll = (.failure, d)) : c.pollKey = (.failed, d) := by
  simp [Console.pollKey, h]

theorem Console.pollKey_of_byte {c d e : Console} {b : Byte} (h : c.takePoll = (.keyReady, d))
    (hb : d.takeInput = (.byte b, e)) : c.pollKey = (.some b, e) := by
  simp [Console.pollKey, h, hb]

theorem getChar_of_byte {s : State} {b : Byte} {d : Console} (h : s.con.takeInput = (.byte b, d)) :
    getChar s = .ok b (s.setCon d) := by
  simp [getChar, h]

/-- Settles O11: a poll that finds a key and `GetChar` take the same head of the one input stream, and the other polls take
nothing from it. -/
theorem pollAndGetCharShareOneStream : Obligations.PollAndGetCharShareOneStream := by
  intro c b more after n ps pafter m hin
  refine ⟨fun hp => ?_, fun hp => ?_, fun hp => ?_, fun s hs => ?_⟩
  · exact Console.pollKey_of_byte (Console.takePoll_known hp) (Console.takeInput_known hin)
  · exact Console.pollKey_of_noKey (Console.takePoll_known hp)
  · exact Console.pollKey_of_failure (Console.takePoll_known hp)
  · subst hs
    exact getChar_of_byte (Console.takeInput_known hin)

end Sys2Proof.Machine
end

section
/-! The output only grows (43_trap.md R150): one relation between the states before and after, kept by every instruction. -/

namespace Sys2Proof.Machine

/-- What was written, and what was delivered, in `s` is a first part of what is in `t`. -/
def OutputGrows (s t : State) : Prop := s.written <+: t.written ∧ s.con.delivered <+: t.con.delivered

theorem OutputGrows.of_con {s t : State} (h : t.con = s.con) : OutputGrows s t := by
  rw [OutputGrows, State.written_of_con h, h]
  exact ⟨List.prefix_rfl, List.prefix_rfl⟩

theorem OutputGrows.trans {s t u : State} (h : OutputGrows s t) (h' : OutputGrows t u) : OutputGrows s u :=
  ⟨h.1.trans h'.1, h.2.trans h'.2⟩

theorem IoOnly.outputGrows {s t : State} (h : IoOnly s t) : OutputGrows s t := ⟨h.written, h.delivered⟩

theorem IoOrRaised.outputGrows {errs : Err → Prop} {s t : State} (h : IoOrRaised errs s t) : OutputGrows s t := by
  obtain hio | ⟨u, x, hio, -, rfl⟩ := h
  · exact hio.outputGrows
  · exact hio.outputGrows.trans (.of_con rfl)

/-- An update that leaves the streams, made after reads and host requests. -/
theorem ThenOrIoError.outputGrows {f : State → State → Prop} {s t : State} (h : ThenOrIoError f s t)
    (hf : ∀ u, f u t → t.con = u.con) : OutputGrows s t := by
  obtain ⟨u, hio, hu⟩ | ⟨u, hio, rfl⟩ := h
  · exact hio.outputGrows.trans (.of_con (hf u hu))
  · exact hio.outputGrows.trans (.of_con rfl)

/-- No instruction takes back output. -/
theorem exec_outputGrows {i : Instr} {s t : State} (h : exec i s = .next t) : OutputGrows s t := by
  have hafter := exec_after h
  have hlink : OutputGrows s s.saveLink := .of_con rfl
  cases i with
  | br | jmp | jsr | jsrr | addReg | addImm | andReg | andImm | notReg | lea =>
    obtain ⟨v, rfl⟩ := hafter
    exact .of_con rfl
  | st | str =>
    obtain ⟨a, v, rfl⟩ := hafter
    exact .of_con rfl
  | rti | res | trapUnknown =>
    obtain rfl := hafter
    exact .of_con rfl
  | ld | ldr | ldi =>
    simp only [After] at hafter
    exact hafter.outputGrows fun _ ⟨_, ht⟩ => ht ▸ rfl
  | sti =>
    simp only [After] at hafter
    exact hafter.outputGrows fun _ ⟨_, _, ht⟩ => ht ▸ rfl
  | trapGetc | trapIn =>
    simp only [After] at hafter
    exact hlink.trans (hafter.outputGrows fun _ ⟨_, ht⟩ => ht ▸ rfl)
  | trapHalt =>
    simp only [After] at hafter
    exact hlink.trans (hafter.outputGrows fun _ ht => ht ▸ rfl)
  | trapOut | trapPuts | trapPutsp =>
    simp only [After] at hafter
    exact hlink.trans hafter.outputGrows

/-- Nor does a fetch, whether it reads a word or its poll fails. -/
theorem fetch_outputGrows (s : State) : (fetch s).Post (fun _ t => OutputGrows s t) (OutputGrows s) := by
  refine Effect.post_mono (fetch_io s) ?_ ?_
  · rintro _ _ ⟨u, hio, rfl⟩
    exact hio.outputGrows.trans (.of_con rfl)
  · rintro _ ⟨u, hio, rfl⟩
    exact hio.outputGrows.trans (.of_con rfl)

/-- Settles O56: a step is a fetch and, unless its poll failed, an instruction, and neither takes back output. -/
theorem outputOnlyGrows : Obligations.OutputOnlyGrows := by
  intro s t h
  have hfetch := fetch_outputGrows s
  obtain ⟨-, -, ⟨w, u, hf, hexec⟩ | hf⟩ := step_cases h <;> rw [hf] at hfetch
  · exact OutputGrows.trans hfetch (exec_outputGrows hexec)
  · exact hfetch

end Sys2Proof.Machine
end

section
/-! The registers, the pc and the flag (10_state.md): one relation says what every instruction makes of the three, so that the
statements about each of them need no case split over the instructions. -/

namespace Sys2Proof.Machine

/-- `t` has the registers, the pc and the flag of `s`. -/
structure SameControl (s t : State) : Prop where
  gpr : t.gpr = s.gpr
  pc : t.pc = s.pc
  cond : t.cond = s.cond

theorem SameControl.refl (s : State) : SameControl s s := ⟨rfl, rfl, rfl⟩

theorem SameControl.reg {s t : State} (h : SameControl s t) (r : Reg) : t.reg r = s.reg r := State.reg_of_gpr h.gpr r

theorem SameControl.recordErr {s t : State} (h : SameControl s t) (e : Err) : SameControl s (t.recordErr e) :=
  ⟨h.gpr, h.pc, h.cond⟩

theorem SameControl.memWrite {s t : State} (h : SameControl s t) (a v : Word) : SameControl s (t.memWrite a v) :=
  ⟨h.gpr, h.pc, h.cond⟩

theorem SameControl.halt {s t : State} (h : SameControl s t) : SameControl s t.halt := ⟨h.gpr, h.pc, h.cond⟩

theorem SameControl.writeResult {s t : State} (h : SameControl s t) (dr : Reg) (v : Word) :
    SameControl (s.writeResult dr v) (t.writeResult dr v) :=
  ⟨by simp [h.gpr], h.pc, rfl⟩

theorem IoOnly.sameControl {s t : State} (h : IoOnly s t) : SameControl s t := ⟨h.gpr, h.pc, h.cond⟩

/-! ### The link register, written first -/

/-- The state in which an instruction goes on once it has saved `pc` in R7, if it is one that does (10_state.md R22). -/
def State.linked (i : Instr) (s : State) : State := bif i.links then s.saveLink else s

@[simp] theorem State.linked_pc (i : Instr) (s : State) : (s.linked i).pc = s.pc := by
  cases h : i.links <;> simp [State.linked, h]

@[simp] theorem State.linked_cond (i : Instr) (s : State) : (s.linked i).cond = s.cond := by
  cases h : i.links <;> simp [State.linked, h]

@[simp] theorem State.linked_err (i : Instr) (s : State) : (s.linked i).err = s.err := by
  cases h : i.links <;> simp [State.linked, h]

theorem State.linked_reg_link {i : Instr} (s : State) (h : i.links = true) : (s.linked i).reg 7 = s.pc := by
  simp [State.linked, h]

/-- The registers an instruction may write are R7, when it links, and the one its flag is derived from. -/
theorem mem_writesRegs {i : Instr} {r : Reg} : r ∈ i.writesRegs ↔ (i.links = true ∧ r = 7) ∨ i.flagDest = some r := by
  simp [Instr.writesRegs]

theorem State.linked_reg_other {i : Instr} (s : State) {r : Reg} (hr : r ∉ i.writesRegs) :
    (s.linked i).reg r = s.reg r := by
  cases h : i.links with
  | false => simp [State.linked, h]
  | true =>
    have hne : 7 ≠ r := fun e => hr (mem_writesRegs.2 (.inl ⟨h, e.symm⟩))
    simp [State.linked, h, State.saveLink_reg, hne]

/-- The instructions that link have R0 as their destination, or none. -/
theorem flagDest_of_links {i : Instr} {dr : Reg} (hl : i.links = true) (hd : i.flagDest = some dr) : dr = 0 := by
  cases i with
  | trapGetc | trapIn => exact (Option.some.inj hd).symm
  | jsr | jsrr | trapOut | trapPuts | trapPutsp | trapHalt | trapUnknown => cases hd
  | br | addReg | addImm | ld | st | andReg | andImm | ldr | str | rti | notReg | ldi | sti | jmp | res | lea => cases hl

/-! ### What an instruction makes of them -/

/-- What an instruction makes of the registers, the pc and the flag of `s`, the link saved first: it writes a result and its
flag, it changes none of them (having no destination, or ending in an error), or it jumps. -/
inductive ControlAfter (i : Instr) (s t : State) : Prop where
  | result (dr : Reg) (v : Word) (hdr : i.flagDest = some dr) (herr : t.err = s.err)
      (h : SameControl ((s.linked i).writeResult dr v) t)
  | unchanged (hnone : i.flagDest = none ∨ t.err ≠ none) (h : SameControl (s.linked i) t)
  | jump (v : Word) (hj : i.jumps = true) (hnone : i.flagDest = none) (h : SameControl ((s.linked i).setPc v) t)

/-- An instruction that ends by writing its result after reads and host requests. -/
theorem ThenOrIoError.controlAfter_result {i : Instr} {dr : Reg} {s t : State} (hdr : i.flagDest = some dr)
    (h : ThenOrIoError (fun u t => ∃ v, t = u.writeResult dr v) (s.linked i) t) : ControlAfter i s t := by
  obtain ⟨u, hio, v, rfl⟩ | ⟨u, hio, rfl⟩ := h
  · exact .result dr v hdr (by simp [hio.err]) (hio.sameControl.writeResult dr v)
  · exact .unchanged (.inr (by simp)) (hio.sameControl.recordErr _)

/-- One that ends by an update of memory or of the run state. -/
theorem ThenOrIoError.controlAfter_unchanged {i : Instr} {f : State → State → Prop} {s t : State}
    (hdr : i.flagDest = none) (h : ThenOrIoError f (s.linked i) t)
    (hf : ∀ u, SameControl (s.linked i) u → f u t → SameControl (s.linked i) t) : ControlAfter i s t := by
  obtain ⟨u, hio, hu⟩ | ⟨u, hio, rfl⟩ := h
  · exact .unchanged (.inl hdr) (hf u hio.sameControl hu)
  · exact .unchanged (.inl hdr) (hio.sameControl.recordErr _)

/-- One that does nothing but reads and host requests. -/
theorem IoOrRaised.controlAfter {i : Instr} {errs : Err → Prop} {s t : State} (hdr : i.flagDest = none)
    (h : IoOrRaised errs (s.linked i) t) : ControlAfter i s t := by
  obtain hio | ⟨u, x, hio, -, rfl⟩ := h
  · exact .unchanged (.inl hdr) hio.sameControl
  · exact .unchanged (.inl hdr) (hio.sameControl.recordErr x)

/-- What every instruction makes of the registers, the pc and the flag. -/
theorem exec_control {i : Instr} {s t : State} (h : exec i s = .next t) : ControlAfter i s t := by
  have hafter := exec_after h
  cases i with
  | br | jmp | jsr | jsrr =>
    obtain ⟨v, rfl⟩ := hafter
    exact .jump v rfl rfl (.refl _)
  | addReg | addImm | andReg | andImm | notReg | lea =>
    obtain ⟨v, rfl⟩ := hafter
    exact .result _ v rfl rfl (.refl _)
  | st | str =>
    obtain ⟨a, v, rfl⟩ := hafter
    exact .unchanged (.inl rfl) (SameControl.memWrite (.refl _) a v)
  | rti | res | trapUnknown =>
    obtain rfl := hafter
    exact .unchanged (.inl rfl) (SameControl.recordErr (.refl _) _)
  | ld | ldr | ldi => exact ThenOrIoError.controlAfter_result rfl hafter
  | trapGetc | trapIn =>
    refine ThenOrIoError.controlAfter_result rfl (hafter.imp_left ?_)
    exact fun ⟨u, hio, b, ht⟩ => ⟨u, hio, zext8 b, ht⟩
  | sti =>
    simp only [After] at hafter
    exact ThenOrIoError.controlAfter_unchanged rfl hafter fun _ hu ⟨a, v, ht⟩ => ht ▸ hu.memWrite a v
  | trapHalt =>
    simp only [After] at hafter
    exact ThenOrIoError.controlAfter_unchanged rfl hafter fun _ hu ht => ht ▸ hu.halt
  | trapOut | trapPuts | trapPutsp => exact IoOrRaised.controlAfter rfl hafter

/-! ### R7 and the other registers -/

/-- Settles O31: the link is saved first, and what a linking instruction may write after it is R0. -/
theorem linkingInstructionsLeavePcInR7 : Obligations.LinkingInstructionsLeavePcInR7 := by
  intro i s t hl hexec
  have hlink : (s.linked i).reg 7 = s.pc := s.linked_reg_link hl
  cases exec_control hexec with
  | result dr v hdr _ h =>
    obtain rfl := flagDest_of_links hl hdr
    rw [h.reg, State.writeResult_reg, if_neg (by decide), hlink]
  | unchanged _ h => rw [h.reg, hlink]
  | jump v _ _ h => rw [h.reg, State.setPc_reg, hlink]

/-- Settles O52: the link and the result are the only register writes there are, and both are in the table's row. -/
theorem registersAreWrittenAsTheTableSays : Obligations.RegistersAreWrittenAsTheTableSays := by
  intro i s t hexec r hr
  have hlinked : (s.linked i).reg r = s.reg r := s.linked_reg_other hr
  cases exec_control hexec with
  | result dr v hdr _ h =>
    have hne : dr ≠ r := fun e => hr (mem_writesRegs.2 (.inr (e ▸ hdr)))
    rw [h.reg, State.writeResult_reg, if_neg hne, hlinked]
  | unchanged _ h => rw [h.reg, hlinked]
  | jump v _ _ h => rw [h.reg, State.setPc_reg, hlinked]

/-! ### The pc -/

theorem exec_pc_of_not_jumps {i : Instr} {s t : State} (hj : i.jumps = false) (hexec : exec i s = .next t) :
    t.pc = s.pc := by
  cases exec_control hexec with
  | result dr v _ _ h => simpa using h.pc
  | unchanged _ h => simpa using h.pc
  | jump v hj' _ _ => simp [hj] at hj'

/-- A branch whose mask misses the flag is not taken (41_control.md R120). -/
theorem branchTaken_eq_false {n z p : Bool} {c : Cond} (hn : n = false ∨ c ≠ .n) (hz : z = false ∨ c ≠ .z)
    (hp : p = false ∨ c ≠ .p) : branchTaken n z p c = false := by
  cases c with
  | n => simpa [branchTaken] using hn
  | z => simpa [branchTaken] using hz
  | p => simpa [branchTaken] using hp

theorem exec_br_not_taken {n z p : Bool} {s : State} (off : BitVec 9) (h : branchTaken n z p s.cond = false) :
    exec (.br n z p off) s = .next s := by
  simp [exec, execBr, h]

theorem fetch_pc {s t : State} {w : Word} (h : fetch s = .ok w t) : t.pc = s.pc + 1 := by
  have hpost := fetch_post s
  rw [h] at hpost
  obtain ⟨u, -, rfl⟩ := hpost
  rfl

/-- Settles O50: only a jump changes `pc` after the fetch, a branch not taken leaves the state, and the fetch adds 1. -/
theorem onlyJumpsChangePcAfterTheFetch : Obligations.OnlyJumpsChangePcAfterTheFetch := by
  refine ⟨fun i s t => exec_pc_of_not_jumps, fun n z p off s t hn hz hp hexec => ?_, fun s t w hf => ?_⟩
  · rw [exec_br_not_taken off (branchTaken_eq_false hn hz hp)] at hexec
    cases hexec
    rfl
  · rw [fetch_pc hf, BitVec.toNat_add]
    rfl

/-! ### The flag -/

theorem exec_cond_of_no_flagDest {i : Instr} {s t : State} (hd : i.flagDest = none) (hexec : exec i s = .next t) :
    t.cond = s.cond := by
  cases exec_control hexec with
  | result dr v hdr _ _ => simp [hd] at hdr
  | unchanged _ h => simpa using h.cond
  | jump v _ _ h => simpa using h.cond

/-- An instruction with a destination derives the flag from what it leaves there, or ends in an error and leaves the flag. -/
theorem exec_cond_of_flagDest {i : Instr} {dr : Reg} {s t : State} (hd : i.flagDest = some dr)
    (hexec : exec i s = .next t) : (t.err = s.err ∧ t.cond = condOf (t.reg dr)) ∨ (t.err ≠ none ∧ t.cond = s.cond) := by
  cases exec_control hexec with
  | result dr' v hdr herr h =>
    obtain rfl : dr' = dr := Option.some.inj (hdr.symm.trans hd)
    exact .inl ⟨herr, by simp [h.cond, h.reg]⟩
  | unchanged hnone h =>
    exact .inr ⟨hnone.resolve_left (by simp [hd]), by simpa using h.cond⟩
  | jump v _ hnone _ => simp [hd] at hnone

/-- A memory read leaves the flag, whether it polls, and whether its poll fails. -/
theorem memRead_cond (a : Word) (s : State) :
    (memRead a s).Post (fun _ t => t.cond = s.cond) (fun t => t.cond = s.cond) := by
  refine Effect.post_mono (memRead_io a s) (fun _ _ h => h.cond) ?_
  rintro _ ⟨u, x, hio, -, rfl⟩
  exact hio.cond

/-- Settles O51: the flag follows the destination register, and neither an error nor a memory read changes it. -/
theorem flagChangesOnlyWithTheListedWrites : Obligations.FlagChangesOnlyWithTheListedWrites := by
  refine ⟨fun i s t => exec_cond_of_no_flagDest, fun i dr s t hd herr hexec => ?_, fun a v s t h => ?_⟩
  · obtain ⟨he, hc⟩ | ⟨he, hc⟩ := exec_cond_of_flagDest hd hexec
    · exact ⟨fun _ => hc, fun hne => absurd (he.trans herr) hne⟩
    · exact ⟨fun hnone => absurd hnone he, fun _ => hc⟩
  · have hpost := memRead_cond a s
    obtain h | h := h <;> rwa [h] at hpost

end Sys2Proof.Machine
end

section
/-! The state at creation (10_state.md R35). -/

namespace Sys2Proof.Machine

theorem State.create_cell (cfg : Config) (con : Console) (a : Word) : (State.create cfg con).cell a = 0 := rfl

theorem State.create_reg (cfg : Config) (con : Console) (r : Reg) :
    (State.create cfg con).reg r = cfg.gprReset.get r := rfl

theorem State.create_status (cfg : Config) (con : Console) : (State.create cfg con).status = .running := rfl

/-- Every register is 0 by default (decision D11). -/
theorem Config.default_gprReset : ∀ r : Reg, Config.default.gprReset.get r = 0 := by decide

theorem Config.default_wf : Config.default.wf = true := by decide

/-- Settles O14: `State.create` read field by field, and the defaults for `State.reset`. -/
theorem creationLeavesTheStatedValues : Obligations.CreationLeavesTheStatedValues := by
  refine ⟨fun cfg con => ⟨State.create_cell cfg con, State.create_reg cfg con, rfl, rfl, State.create_status cfg con, rfl,
    con.atCreation_buffer, con.atCreation_delivered, con.atCreation_input, con.atCreation_polls, con.atCreation_writes,
    con.atCreation_flushes⟩, State.create_cell _ _, fun r => ?_, rfl, rfl, rfl, rfl, rfl⟩
  rw [State.reset, State.create_reg, Config.default_gprReset]

/-- The empty memory is canonical, the parameters are the ones given, and there is no error. -/
theorem State.create_inv {cfg : Config} (con : Console) (h : cfg.wf = true) : (State.create cfg con).Inv where
  memory := rfl
  parameters := h
  oneEnd := .inl rfl

/-- Settles O15: the defaults are well formed, and creation with any well-formed parameters meets the invariant. -/
theorem resetMeetsTheInvariant : Obligations.ResetMeetsTheInvariant :=
  ⟨State.create_inv Console.quiet Config.default_wf, fun _ con h => State.create_inv con h⟩

end Sys2Proof.Machine
end

section
/-! Memory and the keyboard (20_memory.md R54, R55, R57): what each answer of a poll makes of a status read, and the reads and
writes built on it. -/

namespace Sys2Proof.Machine

/-! ### What a poll leaves -/

section

variable (s : State) (r : KeyPoll)

@[simp] theorem State.refreshKeyboard_gpr : (s.refreshKeyboard r).gpr = s.gpr := by cases r <;> rfl
@[simp] theorem State.refreshKeyboard_pc : (s.refreshKeyboard r).pc = s.pc := by cases r <;> rfl
@[simp] theorem State.refreshKeyboard_cond : (s.refreshKeyboard r).cond = s.cond := by cases r <;> rfl
@[simp] theorem State.refreshKeyboard_run : (s.refreshKeyboard r).run = s.run := by cases r <;> rfl
@[simp] theorem State.refreshKeyboard_err : (s.refreshKeyboard r).err = s.err := by cases r <;> rfl
@[simp] theorem State.refreshKeyboard_con : (s.refreshKeyboard r).con = s.con := by cases r <;> rfl
@[simp] theorem State.refreshKeyboard_cfg : (s.refreshKeyboard r).cfg = s.cfg := by cases r <;> rfl

@[simp] theorem State.refreshKeyboard_none_status : (s.refreshKeyboard .none).cell s.cfg.kbsrAddr = 0 :=
  State.memWrite_cell_same s _ _

@[simp] theorem State.refreshKeyboard_some_data (b : Byte) :
    (s.refreshKeyboard (.some b)).cell s.cfg.kbdrAddr = zext8 b :=
  State.memWrite_cell_same (s.memWrite s.cfg.kbsrAddr s.cfg.kbsrReady) _ _

/-- A poll without a character leaves the data cell, and every other but the status (90_conflicts.md C4). -/
theorem State.refreshKeyboard_none_cell_other {a : Word} (h : a ≠ s.cfg.kbsrAddr) :
    (s.refreshKeyboard .none).cell a = s.cell a :=
  State.memWrite_cell_other s _ h

/-- A poll with a character leaves `KBSR_READY` in the status, the two device cells being distinct. -/
theorem State.refreshKeyboard_some_status (b : Byte) (h : s.cfg.kbsrAddr ≠ s.cfg.kbdrAddr) :
    (s.refreshKeyboard (.some b)).cell s.cfg.kbsrAddr = s.cfg.kbsrReady :=
  (State.memWrite_cell_other _ _ h).trans (State.memWrite_cell_same s _ _)

theorem State.refreshKeyboard_keeps : KeepsAllBut [] s.deviceCells s (s.refreshKeyboard r) := by
  refine ⟨fun i _ => State.reg_of_gpr (by simp) i, fun a ha => ?_, by simp [SameEngine]⟩
  obtain ⟨hs, hd⟩ : a ≠ s.cfg.kbsrAddr ∧ a ≠ s.cfg.kbdrAddr := by simpa [State.deviceCells] using ha
  exact s.refreshKeyboard_cell_other r hs hd

theorem State.refreshKeyboard_none_keeps : KeepsAllBut [] [s.cfg.kbsrAddr] s (s.refreshKeyboard .none) := by
  refine ⟨fun i _ => State.reg_of_gpr (by simp) i, fun a ha => ?_, by simp [SameEngine]⟩
  exact s.refreshKeyboard_none_cell_other (by simpa using ha)

end

theorem Config.kbsrAddr_ne_kbdrAddr {c : Config} (h : c.wf = true) : c.kbsrAddr ≠ c.kbdrAddr := by
  simp only [Config.wf, Bool.and_eq_true, decide_eq_true_eq] at h
  exact h.1.1

theorem Config.kbsrReady_msb {c : Config} (h : c.wf = true) : c.kbsrReady.msb = true := by
  simp only [Config.wf, Bool.and_eq_true] at h
  exact h.1.2

/-! ### A status read, by the answer of its poll -/

section

variable {s : State} {c : Console}

theorem memRead_status_of_none (h : s.con.pollKey = (.none, c)) :
    memRead s.cfg.kbsrAddr s = .ok 0 ((s.setCon c).refreshKeyboard .none) := by
  have hcell := (s.setCon c).refreshKeyboard_none_status
  rw [State.setCon_cfg] at hcell
  simp [memRead_status, pollKeyboard, h, hcell]

theorem memRead_status_of_some {b : Byte} (hne : s.cfg.kbsrAddr ≠ s.cfg.kbdrAddr) (h : s.con.pollKey = (.some b, c)) :
    memRead s.cfg.kbsrAddr s = .ok s.cfg.kbsrReady ((s.setCon c).refreshKeyboard (.some b)) := by
  have hcell := (s.setCon c).refreshKeyboard_some_status b hne
  rw [State.setCon_cfg] at hcell
  simp [memRead_status, pollKeyboard, h, hcell]

theorem memRead_status_of_failed (h : s.con.pollKey = (.failed, c)) :
    memRead s.cfg.kbsrAddr s = .raised ((s.setCon c).recordErr .ioError) := by
  simp [memRead_status, pollKeyboard, h]

/-- Every status read that gives a word gives 0 or `KBSR_READY`, whatever the cell held. -/
theorem memRead_status_value {t : State} {w : Word} (hne : s.cfg.kbsrAddr ≠ s.cfg.kbdrAddr)
    (h : memRead s.cfg.kbsrAddr s = .ok w t) : w = 0 ∨ w = s.cfg.kbsrReady := by
  obtain ⟨⟨r, d⟩, hp⟩ : ∃ p, s.con.pollKey = p := ⟨_, rfl⟩
  cases r with
  | none =>
    rw [memRead_status_of_none hp] at h
    cases h
    exact .inl rfl
  | some b =>
    rw [memRead_status_of_some hne hp] at h
    cases h
    exact .inr rfl
  | failed =>
    rw [memRead_status_of_failed hp] at h
    cases h

end

/-- Settles O10: off the status address a read is pure; at it, one clause for each answer of the poll. -/
theorem readPollsAtTheStatusAddressOnly : Obligations.ReadPollsAtTheStatusAddressOnly := by
  refine ⟨fun s a h => memRead_pure h, fun s b c hne h => ?_, fun s c h => ?_, fun s c h => ?_⟩
  · exact ⟨_, memRead_status_of_some hne h, (s.setCon c).refreshKeyboard_some_status b hne,
      (s.setCon c).refreshKeyboard_some_data b, by simp, by simp, by simp, (s.setCon c).refreshKeyboard_keeps _⟩
  · exact ⟨_, memRead_status_of_none h, (s.setCon c).refreshKeyboard_none_status, by simp, by simp, by simp,
      (s.setCon c).refreshKeyboard_none_keeps⟩
  · exact ⟨_, memRead_status_of_failed h, rfl, rfl, rfl, rfl, rfl, rfl, fun _ _ => rfl, fun _ _ => rfl⟩

/-! ### Writes -/

theorem State.memWrite_keeps (s : State) (a v : Word) : KeepsAllBut [] [a] s (s.memWrite a v) :=
  ⟨fun _ _ => rfl, fun _ hb => State.memWrite_cell_other s v (by simpa using hb), rfl, rfl, rfl⟩

/-- Settles O9: a write changes its cell alone, and a status read after it answers by its poll and not by the cell. -/
theorem writeStoresOneCellAndNothingElse : Obligations.WriteStoresOneCellAndNothingElse :=
  ⟨fun s a v => ⟨s.memWrite_cell_same a v, rfl, rfl, rfl, s.memWrite_keeps a v⟩,
    fun s _ v _ hwf => memRead_status_value (s := s.memWrite s.cfg.kbsrAddr v) (Config.kbsrAddr_ne_kbdrAddr hwf)⟩

/-! ### Four status reads in a row -/

/-- A status read with the answer "no key" at the head of the polls. -/
theorem memRead_status_noKey {s : State} {ps : List PollAnswer} {pafter : Option PollAnswer} {m : Nat}
    (hp : s.con.polls = ⟨.noKey :: ps, pafter, m⟩) :
    ∃ t, memRead s.cfg.kbsrAddr s = .ok 0 t ∧ t.con = { s.con with polls := ⟨ps, pafter, m⟩ } ∧ t.cfg = s.cfg ∧
      ∀ a, a ≠ s.cfg.kbsrAddr → t.cell a = s.cell a :=
  ⟨_, memRead_status_of_none (Console.pollKey_of_noKey (Console.takePoll_known hp)), by simp, by simp,
    fun _ ha => State.refreshKeyboard_none_cell_other _ ha⟩

/-- A status read with the answer "a key" at the head of the polls and a byte at the head of the input. -/
theorem memRead_status_key {s : State} {b : Byte} {more : List InputItem} {after : Option InputItem} {n : Nat}
    {ps : List PollAnswer} {pafter : Option PollAnswer} {m : Nat} (hne : s.cfg.kbsrAddr ≠ s.cfg.kbdrAddr)
    (hin : s.con.input = ⟨.byte b :: more, after, n⟩) (hp : s.con.polls = ⟨.keyReady :: ps, pafter, m⟩) :
    ∃ t, memRead s.cfg.kbsrAddr s = .ok s.cfg.kbsrReady t ∧ t.con.polls = ⟨ps, pafter, m⟩ ∧ t.cfg = s.cfg ∧
      t.cell s.cfg.kbdrAddr = zext8 b :=
  ⟨_, memRead_status_of_some hne (Console.pollKey_of_byte (Console.takePoll_known hp) (Console.takeInput_known hin)),
    by simp, by simp, State.refreshKeyboard_some_data _ b⟩

/-- Settles O12: the four reads one after another, each by the answer at the head of the polls; the data cell is written by the
third and kept by the fourth. -/
theorem statusReadsFollowTheKeyboard : Obligations.StatusReadsFollowTheKeyboard := by
  intro s b more after n ps pafter m hwf hin hpolls
  have hne := Config.kbsrAddr_ne_kbdrAddr hwf
  obtain ⟨s1, read1, con1, cfg1, -⟩ := memRead_status_noKey hpolls
  obtain ⟨s2, read2, con2, cfg2, -⟩ := memRead_status_noKey (s := s1) (by rw [con1])
  rw [cfg1] at read2 cfg2
  obtain ⟨s3, read3, polls3, cfg3, data3⟩ :=
    memRead_status_key (s := s2) (by rwa [cfg2]) (by rw [con2, con1, hin]) (by rw [con2])
  rw [cfg2] at read3 cfg3 data3
  obtain ⟨s4, read4, -, cfg4, keep4⟩ := memRead_status_noKey polls3
  rw [cfg3] at read4 cfg4 keep4
  have data4 : s4.cell s.cfg.kbdrAddr = zext8 b := (keep4 _ hne.symm).trans data3
  refine ⟨s1, s2, s3, s4, _, read1, read2, read3, Config.kbsrReady_msb hwf, ?_, read4, ?_⟩
  · rw [memRead_pure (by rw [cfg3]; exact hne.symm), data3]
  · rw [memRead_pure (by rw [cfg4]; exact hne.symm), data4]

/-! ### Canonical memories -/

/-- Below its first possible address a canonical memory reads as unlisted. -/
theorem Memory.read_below {lo a : Nat} {m : Memory} (hm : Memory.wfFrom lo m = true) (ha : a < lo) :
    m.read a = Memory.unlisted := by
  induction m generalizing lo with
  | nil => rfl
  | cons c m ih =>
    obtain ⟨b, v⟩ := c
    obtain ⟨hlo, -, -, htail⟩ := (Memory.wfFrom_cons ..).1 hm
    have hne : a ≠ b := by omega
    simpa [Memory.read, hne] using ih htail (by omega)

/-- Where a memory with its cells at `lo'` and above reads as the head of a canonical one, that head is at `lo'` or above. -/
theorem Memory.le_head_of_read_eq {lo lo' a : Nat} {v : Word} {m m' : Memory}
    (hm : Memory.wfFrom lo ((a, v) :: m) = true) (hm' : Memory.wfFrom lo' m' = true)
    (h : Memory.read ((a, v) :: m) a = m'.read a) : lo' ≤ a := by
  obtain ⟨-, -, hv, -⟩ := (Memory.wfFrom_cons ..).1 hm
  by_contra hlt
  rw [Memory.read_below hm' (by omega)] at h
  exact hv (by simpa [Memory.read] using h)

theorem Memory.eq_of_read_eq {lo lo' : Nat} {m m' : Memory} (hm : Memory.wfFrom lo m = true)
    (hm' : Memory.wfFrom lo' m' = true) (h : ∀ a, a < 65536 → m.read a = m'.read a) : m = m' := by
  induction m generalizing lo lo' m' with
  | nil =>
    cases m' with
    | nil => rfl
    | cons c m' =>
      obtain ⟨b, w⟩ := c
      obtain ⟨-, hb, -, -⟩ := (Memory.wfFrom_cons ..).1 hm'
      have := Memory.le_head_of_read_eq (lo' := 65536) hm' rfl (h b hb).symm
      omega
  | cons c m ih =>
    obtain ⟨a, v⟩ := c
    obtain ⟨-, ha, hv, htail⟩ := (Memory.wfFrom_cons ..).1 hm
    cases m' with
    | nil =>
      have := Memory.le_head_of_read_eq (lo' := 65536) hm rfl (h a ha)
      omega
    | cons c' m' =>
      obtain ⟨b, w⟩ := c'
      obtain ⟨-, hb, hw, htail'⟩ := (Memory.wfFrom_cons ..).1 hm'
      have hfrom := (Memory.wfFrom_cons ..).2 ⟨Nat.le_refl a, ha, hv, htail⟩
      have hfrom' := (Memory.wfFrom_cons ..).2 ⟨Nat.le_refl b, hb, hw, htail'⟩
      obtain rfl : a = b := Nat.le_antisymm (Memory.le_head_of_read_eq hm' hfrom (h b hb).symm)
        (Memory.le_head_of_read_eq hm hfrom' (h a ha))
      obtain rfl : v = w := by simpa [Memory.read] using h a ha
      have hrest : ∀ x, x < 65536 → Memory.read m x = Memory.read m' x := by
        intro x hx
        by_cases hxa : x = a
        · rw [hxa, Memory.read_below htail (Nat.lt_succ_self a), Memory.read_below htail' (Nat.lt_succ_self a)]
        · simpa [Memory.read, hxa] using h x hx
      rw [ih htail htail' hrest]

/-- Settles O13: the heads agree, since a head is a nonzero word and below the other memory's head all reads are 0; so do the
tails, by induction. -/
theorem canonicalMemoriesThatReadAlikeAreEqual : Obligations.CanonicalMemoriesThatReadAlikeAreEqual :=
  fun _ _ hm hm' => Memory.eq_of_read_eq hm hm'

end Sys2Proof.Machine
end

section
/-! The loader (20_memory.md R60, R61, R62). -/

namespace Sys2Proof.Machine

/-! ### The image format -/

/-- The big-endian bytes of words give the words back, with an odd last byte dropped. -/
theorem wordsOfBytes_flatMap (ws : List Word) {odd : List Byte} (hodd : odd.length ≤ 1) :
    wordsOfBytes ((ws.flatMap fun w => [highByte w, lowByte w]) ++ odd) = ws := by
  induction ws with
  | nil =>
    match odd, hodd with
    | [], _ => rfl
    | [_], _ => rfl
  | cons w ws ih => simp [wordsOfBytes, highByte_append_lowByte, ih]

theorem parseImage_words (hi lo : Byte) (ws : List Word) {odd : List Byte} (hodd : odd.length ≤ 1) :
    parseImage (hi :: lo :: (ws.flatMap fun w => [highByte w, lowByte w]) ++ odd) = some (hi ++ lo, ws) := by
  simp only [List.cons_append, parseImage, wordsOfBytes_flatMap ws hodd]

theorem parseImage_short {image : List Byte} (h : image.length < 2) : parseImage image = none := by
  match image, h with
  | [], _ => rfl
  | [_], _ => rfl

theorem loadImage_of_parse {image : List Byte} {o : Word} {ws : List Word} (h : parseImage image = some (o, ws))
    (s : State) : loadImage image s = loadWords o ws s := by
  simp only [loadImage, h]

theorem loadImage_of_no_parse {image : List Byte} (h : parseImage image = none) (s : State) :
    loadImage image s = s.recordErr .invalidProgramFormat := by
  simp only [loadImage, h]

/-- Settles O16: the parser gives back the origin and words an image was made of, and a stream without a header records the
error alone. -/
theorem imageIsOriginThenBigEndianWords : Obligations.ImageIsOriginThenBigEndianWords := by
  refine ⟨fun hi lo ws odd s hodd => ?_, fun image s hshort => ?_⟩
  · have hparse := parseImage_words hi lo ws hodd
    exact ⟨hparse, loadImage_of_parse hparse s⟩
  · rw [loadImage_of_no_parse (parseImage_short hshort)]
    exact ⟨rfl, fun _ _ => rfl⟩

/-! ### Placing the words -/

theorem loadWords_of_fit {o : Word} {ws : List Word} (h : o.toNat + ws.length ≤ 65536) (s : State) :
    loadWords o ws s = s.setMem (s.mem.writeAll o.toNat ws) := if_pos h

theorem loadWords_of_not_fit {o : Word} {ws : List Word} (h : 65536 < o.toNat + ws.length) (s : State) :
    loadWords o ws s = s.recordErr .invalidProgramFormat := if_neg (Nat.not_le.2 h)

theorem loadWords_err_of_fit {o : Word} {ws : List Word} (h : o.toNat + ws.length ≤ 65536) (s : State) :
    (loadWords o ws s).err = s.err := by
  rw [loadWords_of_fit h, State.setMem_err]

/-- The words that fit stand from the origin on, and every other cell is as it was. -/
theorem loadWords_cell_of_fit {o : Word} {ws : List Word} (h : o.toNat + ws.length ≤ 65536) (s : State) (a : Word) :
    (loadWords o ws s).cell a =
      if o.toNat ≤ a.toNat then (ws[a.toNat - o.toNat]?).getD (s.cell a) else s.cell a := by
  rw [loadWords_of_fit h]
  exact Memory.read_writeAll ws s.mem o.toNat a.toNat

/-- Settles O17: the words are placed or the error is recorded, and each leaves the rest of the state. -/
theorem loadPlacesTheWordsOrNone : Obligations.LoadPlacesTheWordsOrNone := by
  intro o ws s
  refine ⟨fun h => ⟨loadWords_err_of_fit h s, loadWords_cell_of_fit h s⟩, fun h => ?_, ?_⟩
  · rw [loadWords_of_not_fit h]
    exact ⟨rfl, fun _ _ => rfl⟩
  · rcases Nat.lt_or_ge 65536 (o.toNat + ws.length) with h | h
    · rw [loadWords_of_not_fit h]
      exact ⟨fun _ _ => rfl, rfl, rfl, rfl, rfl, rfl⟩
    · rw [loadWords_of_fit h]
      exact ⟨fun _ _ => rfl, rfl, rfl, rfl, rfl, rfl⟩

/-! ### Images in order -/

theorem loadImages_of_err {s : State} {e : Err} (h : s.err = some e) (images : List (List Byte)) :
    loadImages images s = s := by
  cases images <;> simp [loadImages, h]

theorem loadImages_cons {s : State} (h : s.err = none) (image : List Byte) (images : List (List Byte)) :
    loadImages (image :: images) s = loadImages images (loadImage image s) := by
  simp only [loadImages, h]

theorem loadImages_append (images later : List (List Byte)) (s : State) :
    loadImages (images ++ later) s = loadImages later (loadImages images s) := by
  induction images generalizing s with
  | nil => rfl
  | cons image images ih =>
    cases h : s.err with
    | none => rw [List.cons_append, loadImages_cons h, loadImages_cons h, ih]
    | some e => rw [loadImages_of_err h, loadImages_of_err h, loadImages_of_err h]

theorem loadImages_singleton {s : State} (h : s.err = none) (image : List Byte) :
    loadImages [image] s = loadImage image s :=
  loadImages_cons h image []

/-- The only error of an image is InvalidProgramFormat. -/
theorem loadImage_err (image : List Byte) (s : State) :
    (loadImage image s).err = s.err ∨ (loadImage image s).err = some .invalidProgramFormat := by
  cases hparse : parseImage image with
  | none => exact .inr (by rw [loadImage_of_no_parse hparse, State.recordErr_err])
  | some p =>
    obtain ⟨o, ws⟩ := p
    rw [loadImage_of_parse hparse]
    rcases Nat.lt_or_ge 65536 (o.toNat + ws.length) with h | h
    · exact .inr (by rw [loadWords_of_not_fit h, State.recordErr_err])
    · exact .inl (loadWords_err_of_fit h s)

theorem loadImages_err (images : List (List Byte)) (s : State) :
    (loadImages images s).err = s.err ∨ (loadImages images s).err = some .invalidProgramFormat := by
  induction images generalizing s with
  | nil => exact .inl rfl
  | cons image images ih =>
    cases h : s.err with
    | some e => exact .inl (by rw [loadImages_of_err h, h])
    | none =>
      rw [loadImages_cons h, ← h]
      exact (ih (loadImage image s)).elim (fun heq => heq ▸ loadImage_err image s) .inr

theorem boot_of_err {cfg : Config} {con : Console} {images : List (List Byte)} {e : Err}
    (h : (loadImages images (State.create cfg con)).err = some e) (raw : OutputAnswer) :
    boot cfg con images raw = loadImages images (State.create cfg con) := by
  cases raw <;> simp only [boot, h]

theorem step_of_err {s : State} {e : Err} (h : s.err = some e) : step s = .fault (.runErrored e) := by
  simp only [step, h]

/-- One more image that fits, after images that left no error: its words are written over what those left. -/
theorem loadImages_last {images : List (List Byte)} {last : List Byte} {o : Word} {ws : List Word} {s : State}
    (herr : (loadImages images s).err = none) (hparse : parseImage last = some (o, ws)) :
    loadImages (images ++ [last]) s = loadWords o ws (loadImages images s) := by
  rw [loadImages_append, loadImages_singleton herr, loadImage_of_parse hparse]

/-- A cell among the words that fit holds its word. -/
theorem loadWords_cell_inside {o a : Word} {ws : List Word} {k : Nat} (h : o.toNat + ws.length ≤ 65536)
    (hk : k < ws.length) (ha : a.toNat = o.toNat + k) (s : State) : (loadWords o ws s).cell a = ws.getD k 0 := by
  simp [loadWords_cell_of_fit h, ha, hk]

/-- A cell outside them is as it was. -/
theorem loadWords_cell_outside {o a : Word} {ws : List Word} (h : o.toNat + ws.length ≤ 65536)
    (ha : a.toNat < o.toNat ∨ o.toNat + ws.length ≤ a.toNat) (s : State) : (loadWords o ws s).cell a = s.cell a := by
  rw [loadWords_cell_of_fit h]
  split
  · rw [List.getElem?_eq_none (by omega), Option.getD_none]
  · rfl

/-- Settles O18: images load one after another (`loadImages_append`), the last one over what the earlier ones left, and none
after an error. -/
theorem laterImagesOverwriteAndABadOneEndsTheRun : Obligations.LaterImagesOverwriteAndABadOneEndsTheRun := by
  refine ⟨fun images last o ws s herr hparse hfit => ?_,
    fun first second o1 o2 ws1 ws2 s herr hparse1 hparse2 hfit1 hfit2 => ?_, fun images later cfg con raw e herr => ?_⟩
  · rw [loadImages_last herr hparse]
    exact ⟨(loadWords_err_of_fit hfit _).trans herr, loadWords_cell_of_fit hfit _⟩
  · have hboth : loadImages [first, second] s = loadWords o2 ws2 (loadWords o1 ws1 s) := by
      have hfirst : loadImages [first] s = loadWords o1 ws1 s := loadImages_last (images := []) herr hparse1
      rw [← hfirst]
      exact loadImages_last (images := [first]) (by rw [hfirst, loadWords_err_of_fit hfit1, herr]) hparse2
    rw [hboth]
    refine ⟨by rw [loadWords_err_of_fit hfit2, loadWords_err_of_fit hfit1, herr],
      fun a k hk ha => loadWords_cell_inside hfit2 hk ha _, fun a k hk ha hout => ?_⟩
    rw [loadWords_cell_outside hfit2 hout, loadWords_cell_inside hfit1 hk ha]
  · have hformat : e = .invalidProgramFormat := by
      rcases loadImages_err images (State.create cfg con) with h | h
      · cases herr.symm.trans h
      · exact Option.some.inj (herr.symm.trans h)
    subst hformat
    refine ⟨by rw [loadImages_append, loadImages_of_err herr], rfl, ?_⟩
    rw [boot_of_err herr, step_of_err herr]

end Sys2Proof.Machine
end

section
/-! A store and the next fetch (20_memory.md R56, R65): what a running machine's step makes of the memory read at `pc`. -/

namespace Sys2Proof.Machine

theorem State.status_eq_running {s : State} (h : s.status = .running) : s.err = none ∧ s.run = .running := by
  unfold State.status at h
  cases he : s.err <;> cases hr : s.run <;> simp_all

theorem State.setPc_self {s : State} {a : Word} (h : s.pc = a) : s.setPc a = s := by
  subst h
  rfl

/-- A running machine executes what the memory read at `pc` gives. -/
theorem step_of_memRead {s t : State} {w : Word} (herr : s.err = none) (hrun : s.run = .running)
    (hread : memRead s.pc s = .ok w t) : step s = exec (decode w) (t.setPc (t.pc + 1)) := by
  rw [step_running herr hrun]
  simp only [fetch, hread, Effect.ok_andThen]

/-- A stored word is what runs next at the address it was stored to, the status address apart. -/
theorem step_at_stored_word {u : State} {a : Word} (herr : u.err = none) (hrun : u.run = .running)
    (ha : a ≠ u.cfg.kbsrAddr) (v : Word) :
    step ((u.memWrite a v).setPc a) = exec (decode v) ((u.memWrite a v).setPc (a + 1)) := by
  have hread : memRead a ((u.memWrite a v).setPc a) = .ok v ((u.memWrite a v).setPc a) := by
    rw [memRead_pure (s := (u.memWrite a v).setPc a) ha, State.setPc_cell, State.memWrite_cell_same]
  exact step_of_memRead (s := (u.memWrite a v).setPc a) herr hrun hread

/-- ST, STR and STI store SR's word, after no more than a read. -/
theorem exec_store {i : Instr} {sr : Reg} {a : Word} {s : State}
    (h : (∃ off, i = .st sr off ∧ pcRel9 s off = a) ∨ (∃ base off, i = .str sr base off ∧ baseOff s base off = a) ∨
      (∃ off u, i = .sti sr off ∧ memRead (pcRel9 s off) s = .ok a u)) :
    ∃ u, IoOnly s u ∧ exec i s = .next (u.memWrite a (s.reg sr)) := by
  obtain ⟨off, rfl, rfl⟩ | ⟨base, off, rfl, rfl⟩ | ⟨off, u, rfl, hread⟩ := h
  · exact ⟨s, .refl s, rfl⟩
  · exact ⟨s, .refl s, rfl⟩
  · have hio := memRead_io (pcRel9 s off) s
    rw [hread] at hio
    refine ⟨u, hio, ?_⟩
    rw [← IoOnly.reg hio sr]
    simp only [exec, execSti, hread, Effect.ok_andThen, Effect.ok_outcome]

/-- Settles O22: the three stores leave the word in its cell (`exec_store`), and a fetch there reads it. -/
theorem storeIsSeenByTheNextFetch : Obligations.StoreIsSeenByTheNextFetch := by
  intro i sr a s herr hrun ha hstore
  obtain ⟨u, hio, hexec⟩ := exec_store hstore
  have hnext : step ((u.memWrite a (s.reg sr)).setPc a) = _ :=
    step_at_stored_word (hio.err.trans herr) (hio.run.trans hrun) (hio.cfg ▸ ha) (s.reg sr)
  refine ⟨_, hexec, hnext, ?_⟩
  rintro rfl
  rwa [State.setPc_self (s := u.memWrite s.pc (s.reg sr)) hio.pc] at hnext

/-! ### A fetch at the status address -/

/-- The zero word is a branch on no flag (decision D1). -/
theorem decode_zero : decode 0 = .br false false false 0 := by decide

/-- `KBSR_READY` at its default is an RTI word (decisions D1, D7). -/
theorem decode_ready : decode 0x8000 = .rti := by decide

theorem branchTaken_none (c : Cond) : branchTaken false false false c = false := by
  cases c <;> rfl

theorem exec_rti (s : State) : exec .rti s = .next (s.recordErr (.invalidOpcode 8)) := rfl

/-- Settles O23: without a key the poll gives the zero word, a branch not taken; with one it gives `KBSR_READY`, an RTI word,
and RTI raises. -/
theorem fetchAtTheStatusAddressPolls : Obligations.FetchAtTheStatusAddressPolls := by
  intro s c hstatus hwf hpc
  obtain ⟨herr, hrun⟩ := State.status_eq_running hstatus
  have hne := Config.kbsrAddr_ne_kbdrAddr hwf
  refine ⟨fun hpoll => ?_, fun b hpoll hready => ?_⟩
  · have hread : memRead s.pc s = .ok 0 ((s.setCon c).refreshKeyboard .none) := hpc ▸ memRead_status_of_none hpoll
    refine ⟨((s.setCon c).refreshKeyboard .none).setPc (s.pc + 1), ?_, rfl,
      (s.setCon c).refreshKeyboard_none_status, by simp, by simp, (s.setCon c).refreshKeyboard_none_keeps⟩
    rw [step_of_memRead herr hrun hread, decode_zero, exec_br_not_taken 0 (branchTaken_none _),
      State.refreshKeyboard_pc, State.setCon_pc]
  · have hread : memRead s.pc s = .ok 0x8000 ((s.setCon c).refreshKeyboard (.some b)) := by
      rw [← hready, hpc]
      exact memRead_status_of_some hne hpoll
    have hcell := (s.setCon c).refreshKeyboard_some_status b hne
    have hstep := step_of_memRead herr hrun hread
    rw [decode_ready, exec_rti] at hstep
    exact ⟨_, hstep, rfl, by simp, hcell.trans hready, (s.setCon c).refreshKeyboard_some_data b, by simp, fun _ _ => rfl⟩

end Sys2Proof.Machine
end

section
/-! What an instruction can touch beyond the registers (20_memory.md R51, 60_exceptions.md R183). Each claim is that some part of
the state is kept, so one rule carries it through the pieces of an instruction: `Effect.Keeps`. -/

namespace Sys2Proof.Machine

/-- Whatever comes out, going on or an error, has the part `f` of the state `s`. -/
def Effect.Keeps {α β : Type} (f : State → β) (s : State) (e : Effect α) : Prop :=
  e.Post (fun _ t => f t = f s) (fun t => f t = f s)

section

variable {α β γ : Type} {f : State → β} {s : State}

theorem Effect.Keeps.andThen {e : Effect α} {k : α → State → Effect γ} (he : e.Keeps f s)
    (hk : ∀ v t, (k v t).Keeps f t) : (e.andThen k).Keeps f s :=
  Effect.post_andThen he fun v t ht => Effect.post_mono (hk v t) (fun _ _ h => h.trans ht) fun _ h => h.trans ht

theorem Effect.Keeps.ok (v : α) {t : State} (h : f t = f s) : (Effect.ok v t).Keeps f s := h

theorem Effect.Keeps.outcome {e : Effect Unit} {t : State} (h : e.outcome = .next t) (he : e.Keeps f s) : f t = f s :=
  Effect.post_outcome he h

end

/-! ### The parts of the state -/

/-- The output side of the host: the two byte lists and the answers to writes and flushes. -/
def State.outputSide (s : State) : (List Byte × List Byte) × Feed OutputAnswer × Feed OutputAnswer :=
  ((s.con.buffer, s.con.delivered), s.con.writes, s.con.flushes)

theorem State.outputSide_of_con {s t : State} (h : t.con = s.con) : t.outputSide = s.outputSide := by
  rw [State.outputSide, h, State.outputSide]

/-- Memory and the answers to polls, which an instruction without memory access leaves. -/
def State.memoryAndPolls (s : State) : Memory × Feed PollAnswer := (s.mem, s.con.polls)

/-- The one input stream. -/
def State.inputStream (s : State) : Feed InputItem := s.con.input

/-! ### What the shared operations keep -/

/-- A read of memory leaves the output side, polling or not. -/
theorem memRead_keeps_outputSide (a : Word) (s : State) : (memRead a s).Keeps State.outputSide s := by
  obtain ⟨hw, hf, hb, hd⟩ := s.con.pollKey_output
  have hside : ∀ t : State, s.con.pollKey.2 = t.con → t.outputSide = s.outputSide := by
    intro t ht
    simp only [State.outputSide, ← ht, hw, hf, hb, hd]
  refine Effect.post_mono (memRead_post a s) ?_ ?_
  · rintro v t ⟨-, ⟨-, rfl⟩ | ⟨-, r, hr, -, -⟩⟩
    · rfl
    · exact hside t (by rw [hr])
  · rintro t ⟨-, hr, -⟩
    exact hside t (by rw [hr])

theorem getChar_keeps_outputSide (s : State) : (getChar s).Keeps State.outputSide s := by
  unfold getChar
  cases s.con.takeInput.1 with
  | byte | endOfInput | failure => rfl
  | silence => trivial

theorem putChar_keeps_inputStream (b : Byte) (s : State) : (putChar b s).Keeps State.inputStream s := by
  unfold putChar
  cases s.con.takeWrite.1 <;> rfl

theorem flush_keeps_inputStream (s : State) : (flush s).Keeps State.inputStream s := by
  unfold flush
  cases s.con.takeFlush.1 <;> rfl

theorem putBytes_keeps_inputStream (bs : List Byte) (s : State) : (putBytes bs s).Keeps State.inputStream s := by
  induction bs generalizing s with
  | nil => rfl
  | cons b bs ih => exact (putChar_keeps_inputStream b s).andThen fun _ t => ih t

/-- Host requests without a poll leave memory and the poll answers. -/
theorem Effect.Streams.keeps_memoryAndPolls {α : Type} {s : State} {e : Effect α} (he : e.Streams s) :
    e.Keeps State.memoryAndPolls s := by
  refine Effect.post_mono he ?_ ?_
  · rintro _ _ ⟨c, rfl, hp⟩
    exact congrArg (Prod.mk s.mem) hp
  · rintro _ ⟨_, x, ⟨c, rfl, hp⟩, rfl⟩
    exact congrArg (Prod.mk s.mem) hp

/-! ### What the instructions keep, by their reach -/

/-- The instructions on registers alone, and ST and STR, ask the host for nothing. -/
theorem exec_con_of_no_io {i : Instr} {s t : State} (hr : i.reach = .registersOnly ∨ i.reach = .stores)
    (h : exec i s = .next t) : t.con = s.con := by
  have hafter := exec_after h
  cases i with
  | br | jmp | jsr | jsrr | addReg | addImm | andReg | andImm | notReg | lea =>
    obtain ⟨v, rfl⟩ := hafter
    rfl
  | st | str =>
    obtain ⟨a, v, rfl⟩ := hafter
    rfl
  | rti | res | trapUnknown =>
    obtain rfl := hafter
    rfl
  | ld | ldr | ldi | sti | trapGetc | trapOut | trapPuts | trapIn | trapPutsp | trapHalt => simp [Instr.reach] at hr

theorem IoOnly.sameCells {s t : State} (h : IoOnly s t) : SameCellsBut s.deviceCells s t := by
  intro a ha
  obtain ⟨hs, hd⟩ : a ≠ s.cfg.kbsrAddr ∧ a ≠ s.cfg.kbdrAddr := by simpa [State.deviceCells] using ha
  exact h.cells a hs hd

theorem IoOrRaised.sameCells {errs : Err → Prop} {s t : State} (h : IoOrRaised errs s t) :
    SameCellsBut s.deviceCells s t := by
  obtain hio | ⟨u, x, hio, -, rfl⟩ := h
  · exact hio.sameCells
  · exact hio.sameCells

/-- Reads and host requests, and then an update that leaves memory, change device cells only. -/
theorem ThenOrIoError.sameCells {f : State → State → Prop} {s t : State} (h : ThenOrIoError f s t)
    (hf : ∀ u, f u t → t.mem = u.mem) : SameCellsBut s.deviceCells s t := by
  obtain ⟨u, hio, hu⟩ | ⟨u, hio, rfl⟩ := h
  · exact fun a ha => (State.cell_of_mem (hf u hu) a).trans (hio.sameCells a ha)
  · exact hio.sameCells

/-- Every cell but the device cells is kept by an instruction that is no store. -/
theorem exec_cells_of_no_store {i : Instr} {s t : State} (hst : i.reach ≠ .stores) (hsti : i.reach ≠ .readsThenStores)
    (h : exec i s = .next t) : SameCellsBut s.deviceCells s t := by
  have hafter := exec_after h
  cases i with
  | br | jmp | jsr | jsrr | addReg | addImm | andReg | andImm | notReg | lea =>
    obtain ⟨v, rfl⟩ := hafter
    exact fun _ _ => rfl
  | rti | res | trapUnknown =>
    obtain rfl := hafter
    exact fun _ _ => rfl
  | ld | ldr | ldi =>
    simp only [After] at hafter
    exact hafter.sameCells fun _ ⟨_, ht⟩ => ht ▸ rfl
  | trapGetc | trapIn =>
    simp only [After] at hafter
    exact hafter.sameCells (s := s.saveLink) fun _ ⟨_, ht⟩ => ht ▸ rfl
  | trapHalt =>
    simp only [After] at hafter
    exact hafter.sameCells (s := s.saveLink) fun _ ht => ht ▸ rfl
  | trapOut | trapPuts | trapPutsp =>
    exact IoOrRaised.sameCells (s := s.saveLink) hafter
  | st | str => exact absurd rfl hst
  | sti => exact absurd rfl hsti

/-- GETC, OUT, IN and HALT talk to the host without a poll and access no memory; nor do the instructions on registers. -/
theorem exec_memoryAndPolls_of_noMemory {i : Instr} {s t : State} (hr : i.reach.noMemory = true)
    (h : exec i s = .next t) : t.memoryAndPolls = s.memoryAndPolls := by
  have hafter := exec_after h
  cases i with
  | br | jmp | jsr | jsrr | addReg | addImm | andReg | andImm | notReg | lea =>
    obtain ⟨v, rfl⟩ := hafter
    rfl
  | rti | res | trapUnknown =>
    obtain rfl := hafter
    rfl
  | trapGetc =>
    exact Effect.Keeps.outcome h ((getChar_streams s.saveLink).keeps_memoryAndPolls.andThen fun _ _ => .ok _ rfl)
  | trapOut =>
    exact Effect.Keeps.outcome h
      ((putChar_streams _ s.saveLink).andThen fun _ u => flush_streams u).keeps_memoryAndPolls
  | trapIn =>
    exact Effect.Keeps.outcome h ((putBytes_streams _ s.saveLink).keeps_memoryAndPolls.andThen fun _ s1 =>
      (flush_streams s1).keeps_memoryAndPolls.andThen fun _ s2 =>
        (getChar_streams s2).keeps_memoryAndPolls.andThen fun b s3 =>
          (putChar_streams b s3).keeps_memoryAndPolls.andThen fun _ s4 =>
            (flush_streams s4).keeps_memoryAndPolls.andThen fun _ _ => .ok _ rfl)
  | trapHalt =>
    exact Effect.Keeps.outcome h ((putBytes_streams _ s.saveLink).keeps_memoryAndPolls.andThen fun _ s1 =>
      (flush_streams s1).keeps_memoryAndPolls.andThen fun _ _ => .ok _ rfl)
  | ld | st | ldr | str | ldi | sti | trapPuts | trapPutsp => cases hr

/-- OUT and HALT take no input. -/
theorem exec_inputStream_of_writesOutput {i : Instr} {s t : State} (hr : i.reach = .writesOutput)
    (h : exec i s = .next t) : t.inputStream = s.inputStream := by
  cases i with
  | trapOut =>
    exact Effect.Keeps.outcome h ((putChar_keeps_inputStream _ s.saveLink).andThen fun _ u => flush_keeps_inputStream u)
  | trapHalt =>
    exact Effect.Keeps.outcome h ((putBytes_keeps_inputStream _ s.saveLink).andThen fun _ u =>
      (flush_keeps_inputStream u).andThen fun _ _ => .ok _ rfl)
  | br | addReg | addImm | ld | st | jsrr | jsr | andReg | andImm | ldr | str | rti | notReg | ldi | sti | jmp | res | lea
  | trapGetc | trapPuts | trapIn | trapPutsp | trapUnknown => cases hr

theorem loadInto_keeps_outputSide (dr : Reg) (a : Word) (s : State) : (loadInto dr a s).Keeps State.outputSide s :=
  (memRead_keeps_outputSide a s).andThen fun _ _ => .ok _ rfl

/-- Output is possible through OUT, PUTS, IN, PUTSP and HALT only (60_exceptions.md R183). -/
theorem exec_outputSide_of_no_output {i : Instr} {s t : State} (hr : i.reach.output = false) (h : exec i s = .next t) :
    t.outputSide = s.outputSide := by
  cases i with
  | br | addReg | addImm | jsrr | jsr | andReg | andImm | rti | notReg | jmp | res | lea | trapUnknown =>
    exact State.outputSide_of_con (exec_con_of_no_io (.inl rfl) h)
  | st | str => exact State.outputSide_of_con (exec_con_of_no_io (.inr rfl) h)
  | ld | ldr => exact Effect.Keeps.outcome h (loadInto_keeps_outputSide _ _ s)
  | ldi =>
    exact Effect.Keeps.outcome h ((memRead_keeps_outputSide _ s).andThen fun p u => loadInto_keeps_outputSide _ p u)
  | sti => exact Effect.Keeps.outcome h ((memRead_keeps_outputSide _ s).andThen fun _ _ => .ok _ rfl)
  | trapGetc => exact Effect.Keeps.outcome h ((getChar_keeps_outputSide s.saveLink).andThen fun _ _ => .ok _ rfl)
  | trapOut | trapPuts | trapIn | trapPutsp | trapHalt => cases hr

/-- Settles O53: one clause for each part of the state an instruction of some reach keeps. -/
theorem memoryAndStreamsChangeAsTheTableSays : Obligations.MemoryAndStreamsChangeAsTheTableSays := by
  intro i s t h
  refine ⟨fun hst hsti => exec_cells_of_no_store hst hsti h, fun hr => ?_, fun hr => exec_con_of_no_io hr h,
    fun hr => exec_inputStream_of_writesOutput hr h, fun hr => ?_⟩
  · obtain ⟨hmem, hpolls⟩ := Prod.ext_iff.1 (exec_memoryAndPolls_of_noMemory hr h)
    exact ⟨fun a _ => State.cell_of_mem hmem a, hpolls⟩
  · have hside := exec_outputSide_of_no_output hr h
    simp only [State.outputSide, Prod.mk.injEq] at hside
    obtain ⟨⟨hb, hd⟩, hw, hf⟩ := hside
    exact ⟨hb, hd, hw, hf⟩

/-! ### Other streams -/

theorem exec_br_taken {n z p : Bool} {s : State} (off : BitVec 9) (h : branchTaken n z p s.cond = true) :
    exec (.br n z p off) s = .next (s.setPc (pcRel9 s off)) := by
  simp [exec, execBr, h]

/-- Settles O57: no update these instructions make reads or writes the streams, so it is the same update under any other. -/
theorem instructionsWithoutIoIgnoreTheHost : Obligations.InstructionsWithoutIoIgnoreTheHost := by
  intro i s t c hr h
  cases i with
  | br n z p off =>
    cases hb : branchTaken n z p s.cond with
    | false =>
      rw [exec_br_not_taken off hb] at h
      cases h
      exact exec_br_not_taken off hb
    | true =>
      rw [exec_br_taken off hb] at h
      cases h
      exact exec_br_taken (s := s.setCon c) off hb
  | jmp | jsr | jsrr | addReg | addImm | andReg | andImm | notReg | lea | st | str | rti | res | trapUnknown =>
    cases h
    rfl
  | ld | ldr | ldi | sti | trapGetc | trapOut | trapPuts | trapIn | trapPutsp | trapHalt => simp [Instr.reach] at hr

end Sys2Proof.Machine
end

section
/-! The format table of 30_encoding.md R82 as data: where each instruction's fields stand in its word and what they hold. The
decoder, the encoder and the ignored bits are each tied to it once, and the statements about encodings follow from that. -/

namespace Sys2Proof

/-! ### Fields of a word -/

/-- A field of a format (R81): its lowest bit, its width, and what stands in it. -/
structure BitField where
  pos : Nat
  width : Nat
  value : BitVec width

/-- The word has the field's value where the field stands. -/
def BitField.In (f : BitField) (w : Word) : Prop := w.extractLsb' f.pos f.width = f.value

/-- The bits of a word the field takes. -/
def BitField.mask (f : BitField) : Word := (BitVec.allOnes f.width).setWidth 16 <<< f.pos

/-- The bits of a word some field of the list takes. -/
def fieldMask : List BitField → Word
  | [] => 0
  | f :: fs => f.mask ||| fieldMask fs

theorem BitField.mask_getLsbD (f : BitField) {k : Nat} (hk : k < 16) :
    f.mask.getLsbD k = true ↔ f.pos ≤ k ∧ k - f.pos < f.width := by
  simp [BitField.mask, hk]

/-- Two words differ in none of a field's bits when they read alike there. -/
theorem BitField.xor_and_mask_eq_zero_iff (f : BitField) (v w : Word) :
    (v ^^^ w) &&& f.mask = 0#16 ↔ v.extractLsb' f.pos f.width = w.extractLsb' f.pos f.width := by
  constructor
  · intro h
    refine BitVec.eq_of_getLsbD_eq fun j hj => ?_
    by_cases hk : f.pos + j < 16
    · have hmask : f.mask.getLsbD (f.pos + j) = true := (f.mask_getLsbD hk).2 ⟨by omega, by omega⟩
      have hbit := congrArg (·.getLsbD (f.pos + j)) h
      simpa [hmask, hj] using hbit
    · simp [BitVec.getLsbD_of_ge, Nat.le_of_not_lt hk]
  · intro h
    refine BitVec.eq_of_getLsbD_eq fun k hk => ?_
    cases hmask : f.mask.getLsbD k with
    | false => simp [hmask]
    | true =>
      obtain ⟨hpos, hwidth⟩ := (f.mask_getLsbD hk).1 hmask
      have hbit := congrArg (·.getLsbD (k - f.pos)) h
      simpa [hmask, hwidth, Nat.add_sub_cancel' hpos] using hbit

/-- Two words differ in no bit of some fields when they read alike in each. -/
theorem xor_and_fieldMask_eq_zero_iff (fs : List BitField) (v w : Word) :
    (v ^^^ w) &&& fieldMask fs = 0#16 ↔ ∀ f ∈ fs, v.extractLsb' f.pos f.width = w.extractLsb' f.pos f.width := by
  induction fs with
  | nil => simp [fieldMask]
  | cons f fs ih =>
    simp only [fieldMask, BitVec.and_or_distrib_left, BitVec.or_eq_zero_iff, List.forall_mem_cons, ih,
      f.xor_and_mask_eq_zero_iff]

/-- A field in a word read as a number: shift it down and cut it off. -/
theorem BitField.in_iff_toNat (f : BitField) (w : Word) :
    f.In w ↔ w.toNat / 2 ^ f.pos % 2 ^ f.width = f.value.toNat := by
  rw [BitField.In, ← BitVec.toNat_inj, BitVec.extractLsb'_toNat, Nat.shiftRight_eq_div_pow]

/-! ### The formats -/

/-- The opcode, bits 15..12 (R81). -/
def opcodeField (op : BitVec 4) : BitField := ⟨12, 4, op⟩

/-- A register field (R84). -/
def regField (pos : Nat) (r : Reg) : BitField := ⟨pos, 3, r.bits⟩

/-- A one-bit field: a mask bit of BR, or the bit that selects a form of ADD, AND or JSR. -/
def bitField (pos : Nat) (b : Bool) : BitField := ⟨pos, 1, BitVec.ofBool b⟩

/-- A field that ends at bit 0: an immediate, an offset or trapvect8 (R83). -/
def lowField {n : Nat} (v : BitVec n) : BitField := ⟨0, n, v⟩

/-- Every field of an instruction's format with what it holds (R82, R85); the bits in none of them are the ignored ones. -/
def Instr.fields : Instr → List BitField
  | .br n z p off => [opcodeField 0, bitField 11 n, bitField 10 z, bitField 9 p, lowField off]
  | .addReg dr sr1 sr2 => [opcodeField 1, regField 9 dr, regField 6 sr1, bitField 5 false, regField 0 sr2]
  | .addImm dr sr1 imm => [opcodeField 1, regField 9 dr, regField 6 sr1, bitField 5 true, lowField imm]
  | .ld dr off => [opcodeField 2, regField 9 dr, lowField off]
  | .st sr off => [opcodeField 3, regField 9 sr, lowField off]
  | .jsrr base => [opcodeField 4, bitField 11 false, regField 6 base]
  | .jsr off => [opcodeField 4, bitField 11 true, lowField off]
  | .andReg dr sr1 sr2 => [opcodeField 5, regField 9 dr, regField 6 sr1, bitField 5 false, regField 0 sr2]
  | .andImm dr sr1 imm => [opcodeField 5, regField 9 dr, regField 6 sr1, bitField 5 true, lowField imm]
  | .ldr dr base off => [opcodeField 6, regField 9 dr, regField 6 base, lowField off]
  | .str sr base off => [opcodeField 7, regField 9 sr, regField 6 base, lowField off]
  | .rti => [opcodeField 8]
  | .notReg dr sr => [opcodeField 9, regField 9 dr, regField 6 sr]
  | .ldi dr off => [opcodeField 10, regField 9 dr, lowField off]
  | .sti sr off => [opcodeField 11, regField 9 sr, lowField off]
  | .jmp base => [opcodeField 12, regField 6 base]
  | .res => [opcodeField 13]
  | .lea dr off => [opcodeField 14, regField 9 dr, lowField off]
  | .trapGetc => [opcodeField 15, lowField (0x20 : Byte)]
  | .trapOut => [opcodeField 15, lowField (0x21 : Byte)]
  | .trapPuts => [opcodeField 15, lowField (0x22 : Byte)]
  | .trapIn => [opcodeField 15, lowField (0x23 : Byte)]
  | .trapPutsp => [opcodeField 15, lowField (0x24 : Byte)]
  | .trapHalt => [opcodeField 15, lowField (0x25 : Byte)]
  | .trapUnknown v => [opcodeField 15, lowField v]

/-- The word has every field of the instruction's format, with the instruction's operands in them. -/
def Instr.FieldsIn (i : Instr) (w : Word) : Prop := ∀ f ∈ i.fields, f.In w

theorem Instr.fieldMask_fields (i : Instr) : fieldMask i.fields = ~~~i.ignored := by
  cases i <;>
    simp only [Instr.fields, opcodeField, regField, bitField, lowField, fieldMask, BitField.mask, Instr.ignored] <;> decide

/-- Two words differ in ignored bits only when they read alike in every field of the format. -/
theorem Instr.xor_and_not_ignored_eq_zero_iff (i : Instr) (v w : Word) : (v ^^^ w) &&& ~~~i.ignored = 0#16 ↔
    ∀ f ∈ i.fields, v.extractLsb' f.pos f.width = w.extractLsb' f.pos f.width := by
  rw [← i.fieldMask_fields, xor_and_fieldMask_eq_zero_iff]

theorem Instr.FieldsIn.xor_and_not_ignored {i : Instr} {v w : Word} (hv : i.FieldsIn v) (hw : i.FieldsIn w) :
    (v ^^^ w) &&& ~~~i.ignored = 0#16 :=
  (i.xor_and_not_ignored_eq_zero_iff v w).2 fun f hf => (hv f hf).trans (hw f hf).symm

theorem Instr.FieldsIn.of_xor_and_not_ignored {i : Instr} {v w : Word} (h : (v ^^^ w) &&& ~~~i.ignored = 0#16)
    (hw : i.FieldsIn w) : i.FieldsIn v := fun f hf =>
  ((i.xor_and_not_ignored_eq_zero_iff v w).1 h f hf).trans (hw f hf)

/-! ### The encoder writes the fields -/

@[simp] theorem Reg.ofBits_bits (r : Reg) : Reg.ofBits r.bits = r := rfl

/-- The encoder's word is its fields side by side. (`Nat.reduceAdd` is off because the rules about `++` need the widths as
sums.) -/
theorem encode_fieldsIn (i : Instr) : i.FieldsIn (encode i) := by
  cases i <;>
    simp (disch := decide) [Instr.FieldsIn, Instr.fields, opcodeField, regField, bitField, lowField, BitField.In, encode,
      -Nat.reduceAdd, BitVec.extractLsb'_append_eq_of_add_le, BitVec.extractLsb'_append_eq_of_le, BitVec.extractLsb'_eq_self]

/-! ### The decoder reads the fields -/

@[simp] theorem opcodeField_in_iff {op : BitVec 4} {w : Word} :
    (opcodeField op).In w ↔ w[12] = op[0] ∧ w[13] = op[1] ∧ w[14] = op[2] ∧ w[15] = op[3] := by
  have hbits : (opcodeField op).In w ↔ ∀ k : Fin 4, w.getLsbD (12 + k) = op.getLsbD k := by
    simp [opcodeField, BitField.In, BitVec.eq_of_getElem_eq_iff, Fin.forall_iff]
  rw [hbits]
  simp [Fin.forall_fin_succ]

@[simp] theorem regField_in_iff {k : Nat} {r : Reg} {w : Word} :
    (regField k r).In w ↔ Reg.ofBits (w.extractLsb' k 3) = r := by
  constructor
  · intro h
    exact (congrArg Reg.ofBits h).trans (Reg.ofBits_bits r)
  · rintro rfl
    rfl

@[simp] theorem bitField_in_iff {k : Nat} {b : Bool} {w : Word} : (bitField k b).In w ↔ w.getLsbD k = b := by
  simp [bitField, BitField.In, BitVec.eq_of_getElem_eq_iff]

@[simp] theorem lowField_in_iff {n : Nat} {v : BitVec n} {w : Word} : (lowField v).In w ↔ w.extractLsb' 0 n = v := .rfl

theorem decode_of_trapFields {v : Byte} {w : Word} (h : ∀ f ∈ [opcodeField 15, lowField v], f.In w) :
    decode w = decodeTrap v := by
  simp at h
  simp [decode, fieldVec, h]

theorem knownVector_eq_false_iff {v : Byte} :
    knownVector v = false ↔ v ≠ 0x20 ∧ v ≠ 0x21 ∧ v ≠ 0x22 ∧ v ≠ 0x23 ∧ v ≠ 0x24 ∧ v ≠ 0x25 := by
  rw [knownVector, decide_eq_false_iff_not]
  bv_omega

theorem decodeTrap_of_unknown {v : Byte} (h : knownVector v = false) : decodeTrap v = .trapUnknown v := by
  obtain ⟨h20, h21, h22, h23, h24, h25⟩ := knownVector_eq_false_iff.1 h
  rw [decodeTrap, if_neg h20, if_neg h21, if_neg h22, if_neg h23, if_neg h24, if_neg h25]

/-- Every vector decodes to a well-formed instruction of the TRAP format with that vector. -/
theorem decodeTrap_spec (v : Byte) : (decodeTrap v).wf = true ∧ (decodeTrap v).fields = [opcodeField 15, lowField v] := by
  unfold decodeTrap
  split_ifs with h20 h21 h22 h23 h24 h25
  case neg =>
    have hv : knownVector v = false := knownVector_eq_false_iff.2 ⟨h20, h21, h22, h23, h24, h25⟩
    exact ⟨by rw [Instr.wf, hv]; rfl, rfl⟩
  all_goals
    subst v
    exact ⟨rfl, rfl⟩

theorem decode_wf (w : Word) : (decode w).wf = true := by
  unfold decode
  split
  case h_2 | h_6 => cases w[5] <;> rfl
  case h_5 => cases w[11] <;> rfl
  case h_16 => exact (decodeTrap_spec _).1
  all_goals rfl

/-- The decoder's operands are what stands in the fields of the format it chose. -/
theorem decode_fieldsIn (w : Word) : (decode w).FieldsIn w := by
  unfold decode
  split
  case h_2 | h_6 =>
    cases h5 : w[5] <;> simp [Instr.FieldsIn, Instr.fields, fieldA, fieldB, fieldC, fieldImm5, *]
  case h_5 =>
    cases h11 : w[11] <;> simp [Instr.FieldsIn, Instr.fields, fieldB, fieldOff11, *]
  case h_16 =>
    rw [Instr.FieldsIn, (decodeTrap_spec _).2]
    simp [fieldVec, *]
  all_goals
    simp [Instr.FieldsIn, Instr.fields, fieldA, fieldB, fieldOff6, fieldOff9, *]

/-- An instruction is what every word with its fields decodes to. -/
theorem decode_of_fieldsIn {i : Instr} {w : Word} (hwf : i.wf = true) (h : i.FieldsIn w) : decode w = i := by
  cases i with
  | trapGetc | trapOut | trapPuts | trapIn | trapPutsp | trapHalt => exact decode_of_trapFields h
  | trapUnknown v =>
    have hv : knownVector v = false := by simpa [Instr.wf] using hwf
    exact (decode_of_trapFields h).trans (decodeTrap_of_unknown hv)
  | _ =>
    simp [Instr.FieldsIn, Instr.fields] at h
    simp [decode, fieldA, fieldB, fieldC, fieldImm5, fieldOff6, fieldOff9, fieldOff11, h]

/-- The decoder in one sentence: a word decodes to the well-formed instruction whose fields it has. -/
theorem decode_eq_iff {i : Instr} {w : Word} : decode w = i ↔ i.wf = true ∧ i.FieldsIn w :=
  ⟨fun h => h ▸ ⟨decode_wf w, decode_fieldsIn w⟩, fun ⟨hwf, h⟩ => decode_of_fieldsIn hwf h⟩

/-- Settles O1: the encoder writes the fields the decoder reads. -/
theorem decodeGivesBackEncodedInstruction : Obligations.DecodeGivesBackEncodedInstruction :=
  fun i hwf => decode_of_fieldsIn hwf (encode_fieldsIn i)

theorem Instr.fieldsIn_iff_toNat {i : Instr} {w : Word} :
    i.FieldsIn w ↔ ∀ f ∈ i.fields, w.toNat / 2 ^ f.pos % 2 ^ f.width = f.value.toNat :=
  forall₂_congr fun f _ => f.in_iff_toNat w

theorem toNat_mod_two_beq_one (k : Nat) : (k % 2 == 1).toNat = k % 2 := by
  obtain h | h := Nat.mod_two_eq_zero_or_one k <;> simp [h]

theorem trapUnknown_wf_of_toNat {n : Nat} (h : n % 256 < 0x20 ∨ 0x25 < n % 256) :
    (Instr.trapUnknown (BitVec.ofNat 8 n)).wf = true := by
  simp [Instr.wf, knownVector]
  omega

/-- Settles O2: each clause's arithmetic says that the word has the fields of its instruction. -/
theorem decoderReadsFieldsWhereFormatsPutThem : Obligations.DecoderReadsFieldsWhereFormatsPutThem := by
  rintro w _ rfl
  and_intros
  on_goal 25 =>
    intro hop hvec
    refine decode_of_fieldsIn (trapUnknown_wf_of_toNat hvec) (Instr.fieldsIn_iff_toNat.2 ?_)
    simp [Instr.fields, opcodeField, lowField]
    omega
  all_goals
    intros
    refine decode_of_fieldsIn rfl (Instr.fieldsIn_iff_toNat.2 ?_)
    simp [Instr.fields, opcodeField, regField, bitField, lowField, Reg.bits, toNat_mod_two_beq_one]
    omega

/-- Settles O4: ignored bits are in no field of the format, and words that decode alike have its fields in common. -/
theorem exactlyTheIgnoredBitsAreIgnored : Obligations.ExactlyTheIgnoredBitsAreIgnored := by
  constructor
  · intro w x
    have hsame : ((w ^^^ (x &&& (decode w).ignored)) ^^^ w) &&& ~~~(decode w).ignored = 0#16 := by
      ext k hk
      simp
    exact decode_of_fieldsIn (decode_wf w) (.of_xor_and_not_ignored hsame (decode_fieldsIn w))
  · intro v w h
    exact Instr.FieldsIn.xor_and_not_ignored (h ▸ decode_fieldsIn v) (decode_fieldsIn w)

/-- Settles O5: each word is small enough to decode by evaluation. -/
theorem wordsOfTheSpecDecodeAsTheSpecSays : Obligations.WordsOfTheSpecDecodeAsTheSpecSays := by
  unfold Obligations.WordsOfTheSpecDecodeAsTheSpecSays
  decide

/-! ### The rows of the opcode table -/

theorem row_matchesWord_encode : ∀ i : Instr, i.row.matchesWord (encode i) = true
  | .br n z p off => Laws.EncodesRow.br n z p off
  | .addReg dr sr1 sr2 => Laws.EncodesRow.addReg dr sr1 sr2
  | .addImm dr sr1 imm => Laws.EncodesRow.addImm dr sr1 imm
  | .ld dr off => Laws.EncodesRow.ld dr off
  | .st sr off => Laws.EncodesRow.st sr off
  | .jsrr base => Laws.EncodesRow.jsrr base
  | .jsr off => Laws.EncodesRow.jsr off
  | .andReg dr sr1 sr2 => Laws.EncodesRow.andReg dr sr1 sr2
  | .andImm dr sr1 imm => Laws.EncodesRow.andImm dr sr1 imm
  | .ldr dr base off => Laws.EncodesRow.ldr dr base off
  | .str sr base off => Laws.EncodesRow.str sr base off
  | .rti => Laws.EncodesRow.rti
  | .notReg dr sr => Laws.EncodesRow.notReg dr sr
  | .ldi dr off => Laws.EncodesRow.ldi dr off
  | .sti sr off => Laws.EncodesRow.sti sr off
  | .jmp base => Laws.EncodesRow.jmp base
  | .res => Laws.EncodesRow.res
  | .lea dr off => Laws.EncodesRow.lea dr off
  | .trapGetc => Laws.EncodesRow.trapGetc
  | .trapOut => Laws.EncodesRow.trapOut
  | .trapPuts => Laws.EncodesRow.trapPuts
  | .trapIn => Laws.EncodesRow.trapIn
  | .trapPutsp => Laws.EncodesRow.trapPutsp
  | .trapHalt => Laws.EncodesRow.trapHalt
  | .trapUnknown v => Laws.EncodesRow.trapUnknown v

theorem OpRow.matchesWord_iff {r : OpRow} {w : Word} : r.matchesWord w = true ↔ w &&& r.mask = r.bits := beq_iff_eq

/-- No row's mask looks at an ignored bit. -/
theorem Instr.not_ignored_and_row_mask (i : Instr) : ~~~i.ignored &&& i.row.mask = i.row.mask := by
  cases i <;> simp only [Instr.ignored, Instr.row] <;> decide

/-- Words that differ in ignored bits only match the instruction's row alike. -/
theorem Instr.and_row_mask_eq {i : Instr} {v w : Word} (h : (v ^^^ w) &&& ~~~i.ignored = 0#16) :
    v &&& i.row.mask = w &&& i.row.mask := by
  have hmask : (v ^^^ w) &&& i.row.mask = 0#16 := by
    rw [← i.not_ignored_and_row_mask, ← BitVec.and_assoc, h, BitVec.zero_and]
  rw [← BitVec.xor_eq_zero_iff, ← hmask]
  ext k hk
  simp [Bool.and_xor_distrib_right]

/-- A row's fixed bits are in its instruction's fields. -/
theorem Instr.FieldsIn.row_matchesWord {i : Instr} {w : Word} (h : i.FieldsIn w) : i.row.matchesWord w = true := by
  have hxor := h.xor_and_not_ignored (encode_fieldsIn i)
  exact OpRow.matchesWord_iff.2
    ((Instr.and_row_mask_eq hxor).trans (OpRow.matchesWord_iff.1 (row_matchesWord_encode i)))

/-- Two rows that match one word have the same fixed bits where both look. -/
theorem OpRow.bits_and_mask_eq {r r' : OpRow} {w : Word} (h : r.matchesWord w = true) (h' : r'.matchesWord w = true) :
    r.bits &&& r'.mask = r'.bits &&& r.mask := by
  rw [← matchesWord_iff.1 h, ← matchesWord_iff.1 h', BitVec.and_assoc, BitVec.and_assoc, BitVec.and_comm r.mask]

/-- The priority rows exclude each other: any two of them differ in a bit both look at. -/
theorem firstRows_disjoint : ∀ r ∈ firstRows, ∀ r' ∈ firstRows, r.bits &&& r'.mask = r'.bits &&& r.mask → r = r' := by
  decide

/-- A priority row compatible with the fallback row is one of the six routines'. -/
theorem firstRows_trap : ∀ r ∈ firstRows, r.bits &&& 0xF000 = 0xF000 &&& r.mask →
    r.mask = 0xF0FF ∧ knownVector (r.bits.extractLsb' 0 8) = true := by
  decide

theorem Instr.row_mem_firstRows (i : Instr) : i.row ∈ firstRows ∨ ∃ v, i = .trapUnknown v := by
  cases i with
  | trapUnknown v => exact .inr ⟨v, rfl⟩
  | _ => exact .inl (by simp only [Instr.row]; decide)

/-- A word of a priority row decodes to no unknown-vector TRAP: its vector would be the row's own. -/
theorem decode_ne_trapUnknown {r : OpRow} {v : Byte} {w : Word} (hr : r ∈ firstRows) (h : r.matchesWord w = true) :
    decode w ≠ .trapUnknown v := by
  intro hw
  obtain ⟨hwf, hfields⟩ := decode_eq_iff.1 hw
  obtain ⟨hmask, hknown⟩ := firstRows_trap r hr (OpRow.bits_and_mask_eq h hfields.row_matchesWord)
  have hvec : w.extractLsb' 0 8 = v := hfields (lowField v) (by simp [Instr.fields])
  have hbits : (w &&& r.mask).extractLsb' 0 8 = w.extractLsb' 0 8 := by
    rw [hmask, BitVec.extractLsb'_and]
    exact BitVec.and_allOnes
  rw [OpRow.matchesWord_iff.1 h, hvec] at hbits
  simp [Instr.wf, ← hbits, hknown] at hwf

/-- Settles O3: a row's mask looks at fields only, and the priority rows exclude each other. -/
theorem decoderAgreesWithOpcodeTable : Obligations.DecoderAgreesWithOpcodeTable := by
  intro w
  have hrow : (decode w).row.matchesWord w = true := (decode_fieldsIn w).row_matchesWord
  refine ⟨decode_wf w, hrow, fun r hr hmatch => ?_⟩
  obtain hmem | ⟨v, hv⟩ := (decode w).row_mem_firstRows
  · exact firstRows_disjoint r hr _ hmem (OpRow.bits_and_mask_eq hmatch hrow)
  · exact absurd hv (decode_ne_trapUnknown hr hmatch)

end Sys2Proof
end

section
/-! The operate instructions (40_operate.md). Each of them writes one register through `State.writeResult`, whose effect and frame
are said once; the flag that goes with the write is R110's, the words are read by the format table above. -/

namespace Sys2Proof.Machine

/-! ### The flag of a value -/

/-- R110's three cases, each with the two's-complement sign of its values. -/
theorem condOf_cases (v : Word) :
    (condOf v = .z ∧ v = 0 ∧ v.toInt = 0) ∨ (condOf v = .n ∧ v.msb = true ∧ v.toInt < 0) ∨
      (condOf v = .p ∧ v ≠ 0 ∧ v.msb = false ∧ 0 < v.toInt) := by
  have hzero : v.toInt = 0 ↔ v = 0 := BitVec.toInt_inj (y := 0)
  have hneg : v.msb = true ↔ v.toInt < 0 := by rw [BitVec.msb_eq_toInt, decide_eq_true_iff]
  unfold condOf
  split_ifs with h0 hmsb
  · exact .inl ⟨rfl, h0, hzero.2 h0⟩
  · exact .inr (.inl ⟨rfl, hmsb, hneg.1 hmsb⟩)
  · have hne : v.toInt ≠ 0 := mt hzero.1 h0
    have hnonneg : ¬v.toInt < 0 := mt hneg.2 hmsb
    exact .inr (.inr ⟨rfl, h0, by simpa using hmsb, by omega⟩)

/-- The flag compares the two's-complement value with 0. -/
theorem condOf_iff_toInt (v : Word) :
    (condOf v = .z ↔ v.toInt = 0) ∧ (condOf v = .n ↔ v.toInt < 0) ∧ (condOf v = .p ↔ 0 < v.toInt) := by
  obtain ⟨hc, -, hint⟩ | ⟨hc, -, hint⟩ | ⟨hc, -, -, hint⟩ := condOf_cases v
  · simp [hc, hint]
  · simp [hc, hint, hint.ne, hint.le]
  · simp [hc, hint, hint.ne', hint.le]

theorem condOf_iff_msb (v : Word) :
    (condOf v = .z ↔ v = 0) ∧ (condOf v = .n ↔ v ≠ 0 ∧ v.msb = true) ∧ (condOf v = .p ↔ v ≠ 0 ∧ v.msb = false) := by
  obtain ⟨-, rfl, -⟩ | ⟨hc, hmsb, -⟩ | ⟨hc, h0, hmsb, -⟩ := condOf_cases v
  · decide
  · simp [hc, hmsb]
  · simpa [hc, hmsb] using h0

/-- Settles O8: bit 15 is the high bit, by which `condOf` tells the sign, and `setcc` is one update. -/
theorem flagIsTheSignOfTheValue : Obligations.FlagIsTheSignOfTheValue :=
  ⟨condOf_iff_toInt, condOf_iff_msb, fun _ _ => ⟨rfl, rfl, rfl, fun _ _ => rfl, fun _ _ => rfl, rfl, rfl, rfl⟩⟩

/-! ### The register write they end with -/

/-- What `x[DR] <- v; setcc(v)` does beside the write: the flag is that of the register, and the rest stays. -/
theorem State.writeResult_frame (s : State) (dr : Reg) (v : Word) :
    (s.writeResult dr v).cond = condOf ((s.writeResult dr v).reg dr) ∧ (s.writeResult dr v).pc = s.pc ∧
      (s.writeResult dr v).con = s.con ∧ KeepsAllBut [dr] [] s (s.writeResult dr v) := by
  refine ⟨by simp, rfl, rfl, fun r hr => ?_, fun _ _ => rfl, rfl, rfl, rfl⟩
  have hne : dr ≠ r := fun h => hr (by simp [h])
  rw [State.writeResult_reg, if_neg hne]

/-! ### The words of the two-form instructions -/

/-- The fields of the register form (R82, OPR), of any opcode. -/
theorem registerForm_fieldsIn {op : BitVec 4} {w : Word} (hop : (opcodeField op).In w) (h5 : w.getLsbD 5 = false) :
    ∀ f ∈ [opcodeField op, regField 9 (fieldA w), regField 6 (fieldB w), bitField 5 false, regField 0 (fieldC w)],
      f.In w :=
  List.forall_mem_cons.2 ⟨hop, by simpa [fieldA, fieldB, fieldC] using h5⟩

/-- The fields of the immediate form (R82, OPI), of any opcode. -/
theorem immediateForm_fieldsIn {op : BitVec 4} {w : Word} (hop : (opcodeField op).In w) (h5 : w.getLsbD 5 = true) :
    ∀ f ∈ [opcodeField op, regField 9 (fieldA w), regField 6 (fieldB w), bitField 5 true, lowField (fieldImm5 w)],
      f.In w :=
  List.forall_mem_cons.2 ⟨hop, by simpa [fieldA, fieldB, fieldImm5] using h5⟩

/-! ### ADD -/

theorem exec_addReg (dr sr1 sr2 : Reg) (s : State) :
    exec (.addReg dr sr1 sr2) s = .next (s.writeResult dr (s.reg sr1 + s.reg sr2)) := rfl

theorem exec_addImm (dr sr1 : Reg) (imm : BitVec 5) (s : State) :
    exec (.addImm dr sr1 imm) s = .next (s.writeResult dr (s.reg sr1 + sext imm)) := rfl

/-- Settles O24: both forms end in `writeResult`, and both sums are exact modulo 65536. -/
theorem addWritesTheWrappedSum : Obligations.AddWritesTheWrappedSum := by
  refine ⟨fun dr sr1 sr2 s => ⟨_, exec_addReg dr sr1 sr2 s, ?_, s.writeResult_frame dr _⟩,
    fun dr sr1 imm s => ⟨_, exec_addImm dr sr1 imm s, ?_, s.writeResult_frame dr _⟩, fun w hop => ⟨fun h5 => ?_, fun h5 => ?_⟩⟩
  · rw [State.writeResult_reg_same, BitVec.toNat_add]
  · rw [State.writeResult_reg_same, add_sext_toNat _ _ (by decide)]
  · exact decode_of_fieldsIn rfl (registerForm_fieldsIn hop h5)
  · exact decode_of_fieldsIn rfl (immediateForm_fieldsIn hop h5)

/-! ### AND -/

theorem exec_andReg (dr sr1 sr2 : Reg) (s : State) :
    exec (.andReg dr sr1 sr2) s = .next (s.writeResult dr (s.reg sr1 &&& s.reg sr2)) := rfl

theorem exec_andImm (dr sr1 : Reg) (imm : BitVec 5) (s : State) :
    exec (.andImm dr sr1 imm) s = .next (s.writeResult dr (s.reg sr1 &&& sext imm)) := rfl

/-- A field's top bit stands for all the bits above it (00_scope.md R11). -/
theorem sext_getLsbD {n k : Nat} (v : BitVec (n + 1)) (hk : k < 16) : (sext v).getLsbD k = v.getLsbD (min k n) := by
  rw [sext_eq_signExtend, BitVec.getLsbD_signExtend, decide_eq_true hk, Bool.true_and]
  split_ifs with hfield
  · rw [min_eq_left (by omega)]
  · rw [min_eq_right (by omega), BitVec.msb_eq_getLsbD_last, Nat.add_sub_cancel]

theorem and_sext_getLsbD {n : Nat} (a : Word) (v : BitVec (n + 1)) (k : Nat) :
    (a &&& sext v).getLsbD k = (a.getLsbD k && v.getLsbD (min k n)) := by
  rw [BitVec.getLsbD_and]
  by_cases hk : k < 16
  · rw [sext_getLsbD v hk]
  · rw [BitVec.getLsbD_of_ge a k (by omega), Bool.false_and, Bool.false_and]

/-- Settles O25: both forms end in `writeResult`, and the immediate's bits are those of R11's extension (`sext_getLsbD`). -/
theorem andWritesTheBitwiseAnd : Obligations.AndWritesTheBitwiseAnd := by
  refine ⟨fun dr sr1 sr2 s => ⟨_, exec_andReg dr sr1 sr2 s, fun k => ?_, s.writeResult_frame dr _⟩,
    fun dr sr1 imm s => ⟨_, exec_andImm dr sr1 imm s, fun k => ?_, s.writeResult_frame dr _⟩,
    fun w hop => ⟨fun h5 => ?_, fun h5 => ?_⟩⟩
  · rw [State.writeResult_reg_same, BitVec.getLsbD_and]
  · rw [State.writeResult_reg_same, and_sext_getLsbD]
  · exact decode_of_fieldsIn rfl (registerForm_fieldsIn hop h5)
  · exact decode_of_fieldsIn rfl (immediateForm_fieldsIn hop h5)

/-! ### NOT -/

theorem exec_notReg (dr sr : Reg) (s : State) : exec (.notReg dr sr) s = .next (s.writeResult dr (~~~(s.reg sr))) := rfl

/-- Settles O26: NOT ends in `writeResult`, and its format has no field in bits 5..0. -/
theorem notComplementsAllBits : Obligations.NotComplementsAllBits := by
  refine ⟨fun dr sr s => ⟨_, exec_notReg dr sr s, ?_, s.writeResult_frame dr _⟩, fun w hop => ?_⟩
  · rw [State.writeResult_reg_same, BitVec.toNat_not]
  · exact decode_of_fieldsIn rfl (List.forall_mem_cons.2 ⟨hop, by simp [Reg.ofBits]⟩)

end Sys2Proof.Machine
end

section
/-! Control transfer (41_control.md). The four instructions end in `State.setPc`, JSR and JSRR after `State.saveLink`; each of the
two updates has its frame said once, and what is left of a statement is where `pc` goes. -/

namespace Sys2Proof.Machine

/-! ### The updates they end with -/

/-- What a jump does beside moving `pc`: nothing. -/
theorem State.setPc_frame (s : State) (v : Word) :
    (s.setPc v).cond = s.cond ∧ (s.setPc v).con = s.con ∧ KeepsAllBut [] [] s (s.setPc v) :=
  ⟨rfl, rfl, fun _ _ => rfl, fun _ _ => rfl, rfl, rfl, rfl⟩

/-- What a call does beside moving `pc`: it writes R7 and nothing else, the flag included (10_state.md R29). -/
theorem State.saveLink_setPc_frame (s : State) (v : Word) :
    (s.saveLink.setPc v).cond = s.cond ∧ (s.saveLink.setPc v).con = s.con ∧ KeepsAllBut [7] [] s (s.saveLink.setPc v) := by
  refine ⟨rfl, rfl, fun r hr => ?_, fun _ _ => rfl, rfl, rfl, rfl⟩
  have hne : 7 ≠ r := fun h => hr (by simp [h])
  rw [State.setPc_reg, State.saveLink_reg, if_neg hne]

/-! ### BR -/

/-- R120's condition on the mask's bits and the flag's code (10_state.md R28) is that the mask holds the flag. -/
theorem branchMask_and_code_eq_zero_iff (n z p : Bool) (c : Cond) :
    (BitVec.ofBool n ++ BitVec.ofBool z ++ BitVec.ofBool p).setWidth 16 &&& c.code = 0 ↔ branchTaken n z p c = false := by
  cases c <;> revert n z p <;> decide

theorem branchTaken_all (c : Cond) : branchTaken true true true c = true := by
  cases c <;> rfl

/-- Settles O27: the mask meets the flag exactly when the branch is taken, and a branch is a jump or leaves the state. -/
theorem branchGoesByTheFlag : Obligations.BranchGoesByTheFlag := by
  intro n z p off s
  have hmask := branchMask_and_code_eq_zero_iff n z p s.cond
  cases hb : branchTaken n z p s.cond with
  | false =>
    refine ⟨s, exec_br_not_taken off hb, fun h => absurd (hmask.2 hb) h, fun _ => rfl, fun _ _ _ => rfl, ?_,
      s.setPc_frame s.pc⟩
    rintro rfl rfl rfl
    simp [branchTaken_all] at hb
  | true =>
    have hpc : ((pcRel9 s off).toNat : Int) = (s.pc.toNat + off.toInt) % 65536 := add_sext_toNat s.pc off (by decide)
    refine ⟨_, exec_br_taken off hb, fun _ => hpc, fun h => absurd (hb.symm.trans (hmask.1 h)) (by decide), ?_,
      fun _ _ _ => hpc, s.setPc_frame _⟩
    rintro rfl rfl rfl
    simp [branchTaken_none] at hb

/-! ### JMP -/

theorem exec_jmp (base : Reg) (s : State) : exec (.jmp base) s = .next (s.setPc (s.reg base)) := rfl

/-- Settles O28: JMP is one `setPc`, and its format has no fields but the opcode and the base. -/
theorem jumpGoesToTheBaseRegister : Obligations.JumpGoesToTheBaseRegister := by
  refine ⟨fun base s => ⟨_, exec_jmp base s, rfl, s.setPc_frame _⟩, fun w hop => ?_⟩
  exact decode_of_fieldsIn rfl (List.forall_mem_cons.2 ⟨hop, by simp [Reg.ofBits]⟩)

/-! ### JSR and JSRR -/

theorem exec_jsr (off : BitVec 11) (s : State) : exec (.jsr off) s = .next (s.saveLink.setPc (pcRel11 s off)) := rfl

/-- Settles O29: the link is saved and `pc` moved by an exact sum, and JSR's word is opcode 0100 with bit 11 set. -/
theorem callSavesPcAndJumps : Obligations.CallSavesPcAndJumps := by
  refine ⟨fun off s => ⟨_, exec_jsr off s, s.saveLink_reg_link, add_sext_toNat s.pc off (by decide),
    s.saveLink_setPc_frame _⟩, fun w hop h11 => ?_⟩
  exact decode_of_fieldsIn rfl (List.forall_mem_cons.2 ⟨hop, by simpa using h11⟩)

/-- The base is read after the link is written (decision D12). -/
theorem exec_jsrr (base : Reg) (s : State) :
    exec (.jsrr base) s = .next (s.saveLink.setPc (s.saveLink.reg base)) := rfl

/-- Settles O30: once the link is saved R7 reads as the saved `pc`, and every other base as before. -/
theorem callThroughRegisterReadsItAfterTheLink : Obligations.CallThroughRegisterReadsItAfterTheLink := by
  intro base s
  refine ⟨_, exec_jsrr base s, s.saveLink_reg_link, fun hne => ?_, ?_, s.saveLink_setPc_frame _⟩
  · rw [State.setPc_pc, State.saveLink_reg, if_neg hne.symm]
  · rintro rfl
    exact s.saveLink_reg_link

end Sys2Proof.Machine
end

section
/-! Loads, stores and address computation (42_loadstore.md). What a memory read leaves is said once for a read that succeeds and
once for one whose poll fails, counted from the state before any earlier read, so that LDI's two reads compose; the loads are
then a read and `State.writeResult`, the stores `State.memWrite`, STI's after a read. -/

namespace Sys2Proof.Machine

/-! ### Effective addresses -/

/-- Settles O7: each address is a word plus a sign-extended field no wider than a word. -/
theorem effectiveAddressesWrapModulo65536 : Obligations.EffectiveAddressesWrapModulo65536 :=
  ⟨fun s off => add_sext_toNat s.pc off (by decide), fun s base off => add_sext_toNat (s.reg base) off (by decide),
    fun s off => add_sext_toNat s.pc off (by decide)⟩

/-! ### What a read leaves -/

theorem SameCellsBut.refl (cells : List Word) (s : State) : SameCellsBut cells s s := fun _ _ => rfl

theorem SameCellsBut.trans {cells cells' : List Word} {s t u : State} (h : SameCellsBut cells s t)
    (h' : SameCellsBut cells' t u) : SameCellsBut (cells ++ cells') s u := by
  intro a ha
  obtain ⟨hcells, hcells'⟩ : a ∉ cells ∧ a ∉ cells' := by simpa using ha
  exact (h' a hcells').trans (h a hcells)

theorem State.pollCells_of_cfg {s t : State} (h : t.cfg = s.cfg) (a : Word) : t.pollCells a = s.pollCells a := by
  simp only [State.pollCells, State.deviceCells, h]

theorem memRead_ok_io {a v : Word} {s t : State} (h : memRead a s = .ok v t) : IoOnly s t := by
  have hio := memRead_io a s
  rw [h] at hio
  exact hio

/-- A read that succeeds writes at most the device cells, and those only when it polls (20_memory.md R54). -/
theorem memRead_ok_cells {a v : Word} {s t : State} (h : memRead a s = .ok v t) : SameCellsBut (s.pollCells a) s t := by
  by_cases ha : a = s.cfg.kbsrAddr
  · rw [State.pollCells, if_pos ha]
    exact (memRead_ok_io h).sameCells
  · rw [memRead_pure ha] at h
    cases h
    exact SameCellsBut.refl _ s

section

variable {s u : State} {cells : List Word} (hio : IoOnly s u) (hcells : SameCellsBut cells s u)

include hio hcells

/-- The cells of an earlier read and of this one. -/
theorem memRead_ok_cells_after {a v : Word} {t : State} (h : memRead a u = .ok v t) :
    SameCellsBut (cells ++ s.pollCells a) s t := by
  rw [← State.pollCells_of_cfg hio.cfg a]
  exact hcells.trans (memRead_ok_cells h)

/-- A failed poll records IoError and touches no register, flag or cell (60_exceptions.md R176, decision D25). -/
theorem memRead_raised_frame {a : Word} {t : State} (h : memRead a u = .raised t) :
    t.err = some .ioError ∧ t.cond = s.cond ∧ t.pc = s.pc ∧ SameRegsBut [] s t ∧ SameCellsBut cells s t := by
  have hshape := memRead_shape a u
  rw [h] at hshape
  obtain ⟨c, rfl⟩ := hshape
  exact ⟨rfl, hio.cond, hio.pc, fun r _ => hio.reg r, hcells⟩

/-- The register and flag written at the end of a load, counted from the state before its reads. -/
theorem writeResult_frame_after (dr : Reg) (v : Word) :
    (u.writeResult dr v).reg dr = v ∧ (u.writeResult dr v).cond = condOf v ∧ (u.writeResult dr v).pc = s.pc ∧
      (u.writeResult dr v).con = u.con ∧ SameCellsBut [] u (u.writeResult dr v) ∧
      KeepsAllBut [dr] cells s (u.writeResult dr v) := by
  obtain ⟨-, -, -, hregs, -⟩ := u.writeResult_frame dr v
  exact ⟨u.writeResult_reg_same dr v, rfl, hio.pc, rfl, SameCellsBut.refl _ u,
    fun r hr => (hregs r hr).trans (hio.reg r), hcells, hio.run, hio.err, hio.cfg⟩

/-! ### The read and write that end LD, LDR and LDI -/

/-- A load whose read succeeds. -/
theorem loadInto_of_ok (dr : Reg) {a v : Word} {u' : State} (h : memRead a u = .ok v u') :
    ∃ t, (loadInto dr a u).outcome = .next t ∧ t.reg dr = v ∧ t.cond = condOf v ∧ t.pc = s.pc ∧ t.con = u'.con ∧
      SameCellsBut [] u' t ∧ KeepsAllBut [dr] (cells ++ s.pollCells a) s t := by
  refine ⟨u'.writeResult dr v, ?_, writeResult_frame_after (hio.trans (memRead_ok_io h))
    (memRead_ok_cells_after hio hcells h) dr v⟩
  rw [loadInto, h, Effect.ok_andThen, Effect.ok_outcome]

/-- A load whose read's poll fails. -/
theorem loadInto_of_raised (dr : Reg) {a : Word} {t : State} (h : memRead a u = .raised t) :
    (loadInto dr a u).outcome = .next t ∧ t.err = some .ioError ∧ t.cond = s.cond ∧ t.pc = s.pc ∧ SameRegsBut [] s t ∧
      SameCellsBut cells s t := by
  refine ⟨?_, memRead_raised_frame hio hcells h⟩
  rw [loadInto, h, Effect.raised_andThen, Effect.raised_outcome]

end

/-- A load from an address that is not the status address: nothing is polled. -/
theorem loadInto_plain (dr : Reg) {a : Word} {s : State} (h : a ≠ s.cfg.kbsrAddr) :
    ∃ t, (loadInto dr a s).outcome = .next t ∧ t.reg dr = s.cell a ∧ t.cond = condOf (s.cell a) ∧ t.pc = s.pc ∧
      t.con = s.con ∧ KeepsAllBut [dr] [] s t := by
  obtain ⟨hreg, hcond, hpc, hcon, -, hkeeps⟩ := writeResult_frame_after (.refl s) (.refl [] s) dr (s.cell a)
  refine ⟨_, ?_, hreg, hcond, hpc, hcon, hkeeps⟩
  rw [loadInto, memRead_pure h, Effect.ok_andThen, Effect.ok_outcome]

/-! ### LD and LDR -/

theorem exec_ld (dr : Reg) (off : BitVec 9) (s : State) :
    exec (.ld dr off) s = (loadInto dr (pcRel9 s off) s).outcome := rfl

/-- Settles O32: LD is one load, at the PC-relative address. -/
theorem loadPcRelative : Obligations.LoadPcRelative := by
  intro dr off s
  rw [exec_ld]
  exact ⟨loadInto_plain dr, fun v u h => loadInto_of_ok (.refl s) (.refl [] s) dr h,
    fun u h => loadInto_of_raised (.refl s) (.refl [] s) dr h⟩

theorem exec_ldr (dr base : Reg) (off : BitVec 6) (s : State) :
    exec (.ldr dr base off) s = (loadInto dr (baseOff s base off) s).outcome := rfl

/-- Settles O33: LDR is one load, whose address is computed before DR is written. -/
theorem loadBasePlusOffset : Obligations.LoadBasePlusOffset := by
  intro dr base off s
  rw [exec_ldr]
  exact ⟨loadInto_plain dr, fun v u h => loadInto_of_ok (.refl s) (.refl [] s) dr h,
    fun u h => loadInto_of_raised (.refl s) (.refl [] s) dr h⟩

/-! ### LDI -/

section

variable {off : BitVec 9} {s u : State} (dr : Reg)

/-- Once the pointer is read, LDI is a load from it, in the state that read left. -/
theorem exec_ldi_of_pointer {p : Word} (h : memRead (pcRel9 s off) s = .ok p u) :
    exec (.ldi dr off) s = (loadInto dr p u).outcome := by
  simp only [exec, execLdi, h, Effect.ok_andThen]

theorem exec_ldi_of_raised (h : memRead (pcRel9 s off) s = .raised u) : exec (.ldi dr off) s = .next u := by
  simp only [exec, execLdi, h, Effect.raised_andThen, Effect.raised_outcome]

end

/-- Settles O34: a load from the pointer, with the cells of the pointer's poll added to the load's own. -/
theorem loadIndirect : Obligations.LoadIndirect := by
  intro dr off s
  refine ⟨?plain, ?bothRead, ?failed⟩
  case plain =>
    rintro p ha rfl hp
    rw [exec_ldi_of_pointer dr (memRead_pure ha)]
    exact loadInto_plain dr hp
  case bothRead =>
    intro p v u u' hpointer hdata
    rw [exec_ldi_of_pointer dr hpointer]
    exact loadInto_of_ok (memRead_ok_io hpointer) (memRead_ok_cells hpointer) dr hdata
  case failed =>
    rintro u (hpointer | ⟨p, u0, hpointer, hdata⟩)
    · exact ⟨exec_ldi_of_raised dr hpointer, memRead_raised_frame (.refl s) (.refl _ s) hpointer⟩
    · rw [exec_ldi_of_pointer dr hpointer]
      exact loadInto_of_raised (memRead_ok_io hpointer) (memRead_ok_cells hpointer) dr hdata

/-! ### LEA -/

theorem exec_lea (dr : Reg) (off : BitVec 9) (s : State) :
    exec (.lea dr off) s = .next (s.writeResult dr (pcRel9 s off)) := rfl

/-- Settles O35: LEA is one register write, of an exact sum. -/
theorem loadEffectiveAddress : Obligations.LoadEffectiveAddress := by
  refine ⟨fun dr off s => ⟨_, exec_lea dr off s, ?_, s.writeResult_frame dr _⟩, fun w hop => ?_⟩
  · rw [State.writeResult_reg_same]
    exact add_sext_toNat s.pc off (by decide)
  · exact decode_of_fieldsIn rfl (List.forall_mem_cons.2 ⟨hop, by simp [Reg.ofBits]⟩)

/-! ### ST and STR -/

theorem exec_st (sr : Reg) (off : BitVec 9) (s : State) :
    exec (.st sr off) s = .next (s.memWrite (pcRel9 s off) (s.reg sr)) := rfl

theorem exec_str (sr base : Reg) (off : BitVec 6) (s : State) :
    exec (.str sr base off) s = .next (s.memWrite (baseOff s base off) (s.reg sr)) := rfl

/-- What a store does: its cell holds the value, and nothing else changes; at a device register too (20_memory.md R55). -/
theorem State.memWrite_frame (s : State) (a v : Word) :
    (s.memWrite a v).cell a = v ∧ (s.memWrite a v).pc = s.pc ∧ (s.memWrite a v).cond = s.cond ∧
      (s.memWrite a v).con = s.con ∧ KeepsAllBut [] [a] s (s.memWrite a v) :=
  ⟨s.memWrite_cell_same a v, rfl, rfl, rfl, s.memWrite_keeps a v⟩

/-- Settles O36: both stores are one `memWrite`, and their formats have no more fields than their operands. -/
theorem storesWriteOneCell : Obligations.StoresWriteOneCell := by
  refine ⟨fun sr off s => ⟨_, exec_st sr off s, s.memWrite_frame _ _⟩,
    fun sr base off s => ⟨_, exec_str sr base off s, s.memWrite_frame _ _⟩, fun w => ⟨fun hop => ?_, fun hop => ?_⟩⟩
  · exact decode_of_fieldsIn rfl (List.forall_mem_cons.2 ⟨hop, by simp [Reg.ofBits]⟩)
  · exact decode_of_fieldsIn rfl (List.forall_mem_cons.2 ⟨hop, by simp [Reg.ofBits]⟩)

/-! ### STI -/

section

variable {off : BitVec 9} {s u : State} (sr : Reg)

/-- Once the pointer is read, STI is one store; the read has left SR's value. -/
theorem exec_sti_of_pointer {p : Word} (h : memRead (pcRel9 s off) s = .ok p u) :
    exec (.sti sr off) s = .next (u.memWrite p (s.reg sr)) := by
  rw [← (memRead_ok_io h).reg sr]
  simp only [exec, execSti, h, Effect.ok_andThen, Effect.ok_outcome]

theorem exec_sti_of_raised (h : memRead (pcRel9 s off) s = .raised u) : exec (.sti sr off) s = .next u := by
  simp only [exec, execSti, h, Effect.raised_andThen, Effect.raised_outcome]

end

/-- A store after a read leaves every cell but its own and those the read may write. -/
theorem memWrite_keeps_after {s u : State} {cells : List Word} (hio : IoOnly s u) (hcells : SameCellsBut cells s u)
    (a v : Word) : KeepsAllBut [] (a :: cells) s (u.memWrite a v) := by
  refine ⟨fun r _ => hio.reg r, fun b hb => ?_, hio.run, hio.err, hio.cfg⟩
  obtain ⟨hne, hout⟩ : b ≠ a ∧ b ∉ cells := by simpa using hb
  rw [State.memWrite_cell_other u v hne, hcells b hout]

/-- Settles O37: the pointer's read, and then one store where it points or the read's own error. -/
theorem storeIndirect : Obligations.StoreIndirect := by
  intro sr off s
  refine ⟨?plain, ?read, ?failed⟩
  case plain =>
    rintro p ha rfl
    exact ⟨_, exec_sti_of_pointer sr (memRead_pure ha), s.memWrite_frame _ _⟩
  case read =>
    intro p u h
    have hio := memRead_ok_io h
    obtain ⟨hcell, hpc, hcond, hcon, -, hstored, -⟩ := u.memWrite_frame p (s.reg sr)
    exact ⟨_, exec_sti_of_pointer sr h, hcell, hpc.trans hio.pc, hcond.trans hio.cond, hcon, hstored,
      memWrite_keeps_after hio (memRead_ok_cells h) p _⟩
  case failed =>
    intro u h
    exact ⟨exec_sti_of_raised sr h, memRead_raised_frame (.refl s) (.refl [] s) h⟩

end Sys2Proof.Machine
end

section
/-! TRAP (43_trap.md). Every routine saves the link first; after that it changes the streams and, for PUTS and PUTSP that poll, the
device cells. `Linked` says so once, whether the routine goes on or raises an error, and the routines that talk to the host alone
are settled from it. -/

namespace Sys2Proof.Machine

/-! ### What a routine leaves alone -/

/-- `t` is `s` with the link saved, but for the streams and these cells (43_trap.md R140, R141). -/
structure Linked (cells : List Word) (s t : State) : Prop where
  gpr : t.gpr = s.saveLink.gpr
  pc : t.pc = s.pc
  cond : t.cond = s.cond
  run : t.run = s.run
  err : t.err = s.err
  cfg : t.cfg = s.cfg
  cells : SameCellsBut cells s t

theorem Linked.saveLink (s : State) : Linked [] s s.saveLink := ⟨rfl, rfl, rfl, rfl, rfl, rfl, fun _ _ => rfl⟩

theorem IoOnly.linked {s t : State} (h : IoOnly s.saveLink t) : Linked s.deviceCells s t :=
  ⟨h.gpr, h.pc, h.cond, h.run, h.err, h.cfg, h.sameCells⟩

section

variable {cells : List Word} {s t : State} (h : Linked cells s t)

include h

theorem Linked.setCon (c : Console) : Linked cells s (t.setCon c) := ⟨h.gpr, h.pc, h.cond, h.run, h.err, h.cfg, h.cells⟩

theorem Linked.reg_link : t.reg 7 = s.pc := (State.reg_of_gpr h.gpr 7).trans s.saveLink_reg_link

theorem Linked.sameRegs : SameRegsBut [7] s t := by
  intro r hr
  have hne : 7 ≠ r := fun e => hr (by simp [e])
  rw [State.reg_of_gpr h.gpr, State.saveLink_reg, if_neg hne]

/-- What a routine that completes leaves. -/
theorem Linked.completed : t.reg 7 = s.pc ∧ t.cond = s.cond ∧ t.pc = s.pc ∧ KeepsAllBut [7] cells s t :=
  ⟨h.reg_link, h.cond, h.pc, h.sameRegs, h.cells, h.run, h.err, h.cfg⟩

/-- What a routine that raises an error leaves (60_exceptions.md R176, decisions D13, D25). -/
theorem Linked.raised (e : Err) :
    (t.recordErr e).reg 7 = s.pc ∧ (t.recordErr e).cond = s.cond ∧ (t.recordErr e).pc = s.pc ∧
      (t.recordErr e).run = s.run ∧ (t.recordErr e).cfg = s.cfg ∧ SameRegsBut [7] s (t.recordErr e) ∧
      SameCellsBut cells s (t.recordErr e) :=
  ⟨h.reg_link, h.cond, h.pc, h.run, h.cfg, h.sameRegs, h.cells⟩

end

/-! ### The unknown vectors -/

theorem exec_trapUnknown (v : Byte) (s : State) :
    exec (.trapUnknown v) s = .next (s.saveLink.recordErr (.invalidOpcode v)) := rfl

/-- Settles O48: the link is saved and the error recorded, nothing else. -/
theorem unknownVectorRaisesInvalidOpcode : Obligations.UnknownVectorRaisesInvalidOpcode := by
  intro v s
  obtain ⟨hlink, hcond, hpc, hrun, hcfg, hregs, hcells⟩ := (Linked.saveLink s).raised (.invalidOpcode v)
  exact ⟨_, exec_trapUnknown v s, rfl, hlink, hpc, hcond, rfl, hrun, hcfg, hregs, hcells⟩

/-! ### A character read -/

/-- A byte is never negative as a word (40_operate.md R110). -/
theorem condOf_zext8 (b : Byte) : condOf (zext8 b) = if b = 0 then .z else .p := by
  have hzero : zext8 b = 0 ↔ b = 0 := by
    simp only [← BitVec.toNat_inj, zext8_toNat]
    rfl
  have hmsb : (zext8 b).msb = false := by simp [zext8, BitVec.msb_setWidth]
  rw [condOf, hmsb, if_neg Bool.false_ne_true]
  exact if_congr hzero rfl rfl

/-- What GETC and IN leave once the byte is read: R0 and the flag beside R7. -/
theorem Linked.storeChar {s t : State} (h : Linked [] s t) (b : Byte) :
    ((storeChar b t).reg 0).toNat = b.toNat ∧ (storeChar b t).cond = (if b = 0 then .z else .p) ∧
      (storeChar b t).reg 7 = s.pc ∧ (storeChar b t).pc = s.pc ∧ KeepsAllBut [0, 7] [] s (storeChar b t) := by
  have hother : ∀ r, 0 ≠ r → (Machine.storeChar b t).reg r = t.reg r := fun r hne => by
    rw [Machine.storeChar, State.writeResult_reg, if_neg hne]
  refine ⟨?_, condOf_zext8 b, (hother 7 (by decide)).trans h.reg_link, h.pc, fun r hr => ?_, h.cells, h.run, h.err, h.cfg⟩
  · rw [Machine.storeChar, State.writeResult_reg_same, zext8_toNat]
  · obtain ⟨h0, h7⟩ : r ≠ 0 ∧ r ≠ 7 := by simpa using hr
    rw [hother r h0.symm, h.sameRegs r (by simpa using h7)]

/-- The end of the input fails a read as a failure does (decision D17). -/
theorem getChar_of_end_or_failure {s : State} {c : Console}
    (h : s.con.takeInput = (.endOfInput, c) ∨ s.con.takeInput = (.failure, c)) :
    getChar s = .raised ((s.setCon c).recordErr .ioError) := by
  obtain h | h := h <;> simp [getChar, h]

theorem getChar_of_silence {s : State} (h : s.con.takeInput.1 = .silence) : getChar s = .stuck .waitingForInput := by
  simp [getChar, h]

theorem exec_trapGetc (s : State) :
    exec .trapGetc s = ((getChar s.saveLink).andThen fun b t => .ok () (storeChar b t)).outcome := rfl

/-- Settles O38: GETC by the answer of the one read it makes. -/
theorem getcStoresTheNextByte : Obligations.GetcStoresTheNextByte := by
  intro s
  simp only [exec_trapGetc]
  refine ⟨fun b c hin => ?_, fun c hin => ?_, fun hin => ?_⟩
  · obtain ⟨hreg, hcond, hlink, hpc, hkeeps⟩ := ((Linked.saveLink s).setCon c).storeChar b
    have hc : c = s.con.takeInput.2 := by rw [hin]
    refine ⟨_, by rw [getChar_of_byte (s := s.saveLink) hin]; rfl, hreg, hcond, hlink, hpc, rfl, ?_, hkeeps⟩
    rw [hc]
    rfl
  · obtain ⟨hlink, hcond, hpc, hrun, -, hregs, hcells⟩ := ((Linked.saveLink s).setCon c).raised .ioError
    exact ⟨_, by rw [getChar_of_end_or_failure (s := s.saveLink) hin]; rfl, rfl, hlink, hcond, hpc, hrun, hregs, hcells⟩
  · rw [getChar_of_silence (s := s.saveLink) hin]
    rfl

/-! ### OUT -/

theorem lowByte_eq_ofNat (w : Word) : lowByte w = BitVec.ofNat 8 w.toNat := by
  apply BitVec.eq_of_toNat_eq
  rw [lowByte_toNat, BitVec.toNat_ofNat]

/-- The link is saved in R7, so R0 reads as before. -/
theorem State.saveLink_reg_zero (s : State) : s.saveLink.reg 0 = s.reg 0 := by
  rw [State.saveLink_reg, if_neg (by decide)]

theorem exec_trapOut (s : State) :
    exec .trapOut s = ((putChar (lowByte (s.reg 0)) s.saveLink).andThen fun _ t => flush t).outcome := by
  rw [← State.saveLink_reg_zero]
  rfl

section

variable {s : State}

theorem exec_trapOut_of_write_failure (hw : s.con.takeWrite.1 = .failure) :
    exec .trapOut s = .next ((s.saveLink.setCon s.con.takeWrite.2).recordErr .ioError) := by
  rw [exec_trapOut, putChar_failure (s := s.saveLink) hw]
  rfl

/-- Once the byte is in the buffer, OUT is its flush, whose answer the write has left. -/
theorem exec_trapOut_of_write_ok (hw : s.con.takeWrite.1 = .ok) :
    ∃ t, exec .trapOut s = (flush t).outcome ∧ Linked [] s t ∧
      t.written = s.written ++ [BitVec.ofNat 8 (s.reg 0).toNat] ∧ t.con.takeFlush.1 = s.con.takeFlush.1 ∧
      t.con.input = s.con.input ∧ t.con.polls = s.con.polls := by
  refine ⟨s.saveLink.setCon (s.con.takeWrite.2.append (lowByte (s.reg 0))), ?_, (Linked.saveLink s).setCon _, ?_, rfl,
    rfl, rfl⟩
  · rw [exec_trapOut, putChar_ok (s := s.saveLink) hw]
    rfl
  · simp [State.written, lowByte_eq_ofNat]

end

/-- Settles O39: OUT by the answers of its write and its flush. -/
theorem outWritesTheLowByteOfR0 : Obligations.OutWritesTheLowByteOfR0 := by
  intro s
  refine ⟨fun hw hf => ?completes, fun hfail => ?fails⟩
  case completes =>
    obtain ⟨t, hexec, ht, hwritten, hanswer, hin, hpolls⟩ := exec_trapOut_of_write_ok hw
    rw [flush_ok (hanswer.trans hf)] at hexec
    exact ⟨_, hexec, hwritten, rfl, hin, hpolls, (ht.setCon _).completed⟩
  case fails =>
    cases hw : s.con.takeWrite.1 with
    | failure =>
      obtain ⟨hlink, hcond, hpc, hrun, -, hregs, hcells⟩ :=
        ((Linked.saveLink s).setCon s.con.takeWrite.2).raised .ioError
      exact ⟨_, exec_trapOut_of_write_failure hw, rfl, fun _ => rfl, by simp, hlink, hcond, hpc, hrun, hregs, hcells⟩
    | ok =>
      have hf : s.con.takeFlush.1 = .failure := hfail.resolve_left (by simp [hw])
      obtain ⟨t, hexec, ht, hwritten, hanswer, -, -⟩ := exec_trapOut_of_write_ok hw
      rw [flush_failure (hanswer.trans hf)] at hexec
      obtain ⟨hlink, hcond, hpc, hrun, -, hregs, hcells⟩ := (ht.setCon t.con.takeFlush.2).raised .ioError
      exact ⟨_, hexec, rfl, by simp, fun _ => hwritten, hlink, hcond, hpc, hrun, hregs, hcells⟩

end Sys2Proof.Machine
end

section
/-! HALT and IN (43_trap.md R146, R148): a text and its flush come first in both, so what these two do together with a host that
takes output is said once, and so is that no request to the host but a read can wait. -/

namespace Sys2Proof.Machine

/-! ### Output and its flush -/

/-- Bytes appended and then flushed are delivered, after all that was written before them (43_trap.md R150). -/
theorem Appends.flushed {e : Effect Unit} {s : State} {bs : List Byte} (h : Appends e s bs) :
    ∃ c : Console, (e.andThen fun _ t => flush t) = .ok () (s.setCon c) ∧ c.OutputWorks ∧ c.buffer = [] ∧
      c.delivered = s.written ++ bs ∧ c.input = s.con.input ∧ c.polls = s.con.polls := by
  obtain ⟨c, rfl, hworks, hbuf, hdel, hin, hpolls⟩ := h
  obtain ⟨d, hflush, hworks', hbuf', hdel', hin', hpolls'⟩ := flush_works (s := s.setCon c) hworks
  refine ⟨d, hflush, hworks', hbuf', ?_, hin'.trans hin, hpolls'.trans hpolls⟩
  simp [hdel', hbuf, hdel, State.written]

/-- The effect ends, in going on or in an error. -/
def Effect.Completes {α : Type} (e : Effect α) : Prop := ∀ f, e ≠ .stuck f

theorem Effect.Completes.ok {α : Type} (v : α) (s : State) : (Effect.ok v s).Completes := by simp [Effect.Completes]

theorem Effect.Completes.andThen {α β : Type} {e : Effect α} {k : α → State → Effect β} (he : e.Completes)
    (hk : ∀ v s, (k v s).Completes) : (e.andThen k).Completes := by
  cases e with
  | ok v s => exact hk v s
  | raised s => simp [Effect.Completes]
  | stuck f => exact absurd rfl (he f)

/-- An instruction whose effect ends has a next state. -/
theorem Effect.Completes.outcome {e : Effect Unit} (he : e.Completes) : ∃ t, e.outcome = .next t := by
  cases e with
  | ok v s => exact ⟨s, rfl⟩
  | raised s => exact ⟨s, rfl⟩
  | stuck f => exact absurd rfl (he f)

theorem putChar_completes (b : Byte) (s : State) : (putChar b s).Completes := by
  cases h : s.con.takeWrite.1 with
  | ok => simp [putChar_ok h, Effect.Completes]
  | failure => simp [putChar_failure h, Effect.Completes]

theorem flush_completes (s : State) : (flush s).Completes := by
  cases h : s.con.takeFlush.1 with
  | ok => simp [flush_ok h, Effect.Completes]
  | failure => simp [flush_failure h, Effect.Completes]

theorem putBytes_completes (bs : List Byte) (s : State) : (putBytes bs s).Completes := by
  induction bs generalizing s with
  | nil => exact .ok () s
  | cons b bs ih => exact (putChar_completes b s).andThen fun _ t => ih t

/-! ### HALT -/

theorem exec_trapHalt (s : State) :
    exec .trapHalt s =
      (((putBytes s.cfg.haltText s.saveLink).andThen fun _ t => flush t).andThen fun _ t => .ok () t.halt).outcome := by
  rw [Effect.andThen_assoc]
  rfl

theorem exec_trapHalt_next (s : State) : ∃ t, exec .trapHalt s = .next t := by
  rw [exec_trapHalt]
  exact (((putBytes_completes _ _).andThen fun _ t => flush_completes t).andThen fun _ t => .ok () t.halt).outcome

/-- Settles O45: the notice is flushed and the run halted; with any host HALT waits for nothing, and `exec_after` names its two
ends. -/
theorem haltWritesTheNoticeAndHalts : Obligations.HaltWritesTheNoticeAndHalts := by
  refine ⟨fun s hworks => ?_, fun s => ?_⟩
  · obtain ⟨c, hflushed, -, hbuf, hdel, hin, hpolls⟩ := (putBytes_works s.cfg.haltText (s := s.saveLink) hworks).flushed
    obtain ⟨hlink, hcond, hpc, hregs, hcells, -, herr, hcfg⟩ := ((Linked.saveLink s).setCon c).completed
    refine ⟨(s.saveLink.setCon c).halt, ?_, rfl, herr, hdel, hbuf, hin, hpolls, hlink, hcond, hpc, hcfg, hregs, hcells⟩
    rw [exec_trapHalt, hflushed]
    rfl
  · obtain ⟨t, ht⟩ := exec_trapHalt_next s
    refine ⟨t, ht, ?_⟩
    obtain ⟨u, hio, rfl⟩ | ⟨u, hio, rfl⟩ := exec_after ht
    · exact .inl ⟨rfl, hio.err⟩
    · exact .inr ⟨hio.run, rfl⟩

/-! ### IN -/

/-- What a read is answered, and what it leaves of the input, depends on the input alone. -/
theorem Console.takeInput_of_input {c d e : Console} {x : InputItem} (hin : d.input = c.input)
    (h : c.takeInput = (x, e)) : d.takeInput = (x, d.takeInput.2) ∧ d.takeInput.2.input = e.input := by
  cases h
  simp [Console.takeInput, hin]

/-- What IN does with the byte it has read (R146): the echo, a flush, R0 and the flag. -/
def echoChar (b : Byte) (s : State) : Effect Unit :=
  (putChar b s).andThen fun _ t => (flush t).andThen fun _ u => .ok () (storeChar b u)

theorem echoChar_of_flushed {b : Byte} {s t : State} (h : ((putChar b s).andThen fun _ t => flush t) = .ok () t) :
    echoChar b s = .ok () (storeChar b t) := by
  rw [echoChar, ← Effect.andThen_assoc, h, Effect.ok_andThen]

theorem exec_trapIn (s : State) :
    exec .trapIn s =
      (((putBytes s.cfg.inPrompt s.saveLink).andThen fun _ t => flush t).andThen fun _ t =>
        (getChar t).andThen echoChar).outcome := by
  rw [Effect.andThen_assoc]
  rfl

/-- With a host that takes output, IN is a read and what follows it, in a state where the prompt is delivered. -/
theorem exec_trapIn_of_works {s : State} (h : s.con.OutputWorks) :
    ∃ t, exec .trapIn s = ((getChar t).andThen echoChar).outcome ∧ Linked [] s t ∧ t.con.OutputWorks ∧
      t.con.buffer = [] ∧ t.con.delivered = s.written ++ s.cfg.inPrompt ∧ t.con.input = s.con.input ∧ t.con.polls = s.con.polls := by
  obtain ⟨c, hflushed, hprompt⟩ := (putBytes_works s.cfg.inPrompt (s := s.saveLink) h).flushed
  refine ⟨s.saveLink.setCon c, ?_, (Linked.saveLink s).setCon c, hprompt⟩
  rw [exec_trapIn, hflushed]
  rfl

/-- With any host, what IN leaves when it raises an error: R7 and the streams but for the polls have changed. -/
theorem exec_trapIn_error {s t : State} (herr : s.err = none) (hexec : exec .trapIn s = .next t) (hne : t.err ≠ none) :
    ∃ u, t = u.recordErr .ioError ∧ Linked [] s u ∧ s.written <+: t.written ∧ t.con.polls = s.con.polls := by
  obtain ⟨hmem, hpolls⟩ := Prod.ext_iff.1 (exec_memoryAndPolls_of_noMemory (i := .trapIn) rfl hexec)
  obtain ⟨u, hio, b, rfl⟩ | ⟨u, hio, rfl⟩ := exec_after hexec
  · exact absurd (hio.err.trans herr) hne
  · exact ⟨u, rfl, { hio.linked with cells := fun a _ => State.cell_of_mem hmem a }, hio.written, hpolls⟩

/-- Settles O44: every error of IN by `exec_trapIn_error`; with a host that takes output, the prompt and then the answer of the
read. -/
theorem inPromptsReadsAndEchoes : Obligations.InPromptsReadsAndEchoes := by
  refine ⟨fun s t herr hexec hne => ?anyError, fun s hworks => ?_⟩
  case anyError =>
    obtain ⟨u, rfl, hu, hwritten, hpolls⟩ := exec_trapIn_error herr hexec hne
    exact ⟨rfl, hwritten, hpolls, hu.raised .ioError⟩
  obtain ⟨t, hexec, ht, htworks, hbuf, hdel, hin, hpolls⟩ := exec_trapIn_of_works hworks
  rw [hexec]
  refine ⟨fun b c hread => ?byte, fun c hread => ?failed, fun hread => ?silent⟩
  case byte =>
    obtain ⟨hanswer, hrest⟩ := Console.takeInput_of_input hin hread
    have hu := ht.setCon t.con.takeInput.2
    obtain ⟨d, hflushed, -, hbuf', hdel', hin', hpolls'⟩ :=
      (putChar_works (b := b) (s := t.setCon t.con.takeInput.2) htworks).flushed
    obtain ⟨hreg, hcond, hlink, hpc, hkeeps⟩ := (hu.setCon d).storeChar b
    refine ⟨_, ?_, hreg, hcond, hlink, hpc, ?_, hbuf', hin'.trans hrest, hpolls'.trans hpolls, hkeeps⟩
    · rw [getChar_of_byte hanswer, Effect.ok_andThen, echoChar_of_flushed hflushed]
      rfl
    · calc d.delivered
        _ = t.con.delivered ++ t.con.buffer ++ [b] := hdel'
        _ = s.written ++ s.cfg.inPrompt ++ [b] := by rw [hbuf, hdel, List.append_nil]
  case failed =>
    have hanswer := hread.imp (fun h => (Console.takeInput_of_input hin h).1) fun h => (Console.takeInput_of_input hin h).1
    obtain ⟨hlink, hcond, hpc, hrun, -, hregs, hcells⟩ := (ht.setCon t.con.takeInput.2).raised .ioError
    refine ⟨(t.setCon t.con.takeInput.2).recordErr .ioError, ?_, rfl, hdel, hlink, hcond, hpc, hrun, hregs, hcells⟩
    rw [getChar_of_end_or_failure hanswer]
    rfl
  case silent =>
    obtain ⟨hanswer, -⟩ := Console.takeInput_of_input hin (Prod.ext hread rfl)
    rw [getChar_of_silence (by rw [hanswer])]
    rfl

end Sys2Proof.Machine
end

section
/-! The loop of PUTS and PUTSP, one word at a time (43_trap.md R145, R147): what each part of a turn comes to, with any host. -/

namespace Sys2Proof.Machine

/-! ### The next address -/

theorem nextStringAddr_below {a : Word} (h : a ≠ Word.last) (s : State) : nextStringAddr a s = .ok (a + 1) s := by
  rw [nextStringAddr, if_neg h]

theorem nextStringAddr_fault {a : Word} {s : State} (ha : a = Word.last) (h : s.cfg.stringOverrun = .fault) :
    nextStringAddr a s = .raised (s.recordErr (.unspecified .stringOverrun)) := by
  simp [nextStringAddr, ha, h]

theorem nextStringAddr_wrap {a : Word} {s : State} (ha : a = Word.last) (h : s.cfg.stringOverrun = .wrap) :
    nextStringAddr a s = .ok 0 s := by
  simp [nextStringAddr, ha, h]

/-! ### One word -/

theorem stringWord_polls {s : State} (h : s.cfg.trapReadPolls = true) (a : Word) : stringWord a s = memRead a s := by
  rw [stringWord, if_pos h]

section

variable {writeWord : Word → State → Effect Unit} {a : Word} {s t u : State}

theorem putString_of_raised (h : stringWord a s = .raised t) : putString writeWord a s = .raised t := by
  rw [putString_turn, stringTurn, h]
  rfl

theorem putString_of_zero (h : stringWord a s = .ok 0 t) : putString writeWord a s = .ok () t := by
  rw [putString_turn, stringTurn_zero h]
  rfl

variable {w : Word} (hread : stringWord a s = .ok w t) (hw : w ≠ 0)

include hread hw

theorem putString_of_write_raised (h : writeWord w t = .raised u) : putString writeWord a s = .raised u := by
  rw [putString_turn, stringTurn, hread, Effect.ok_andThen, if_neg hw, h]
  rfl

/-- Once a word is written the loop goes on from the next address, if there is one. -/
theorem putString_of_write_ok (h : writeWord w t = .ok () u) :
    putString writeWord a s = (nextStringAddr a u).andThen (putString writeWord) := by
  rw [putString_turn, stringTurn, hread, Effect.ok_andThen, if_neg hw, h, Effect.ok_andThen]
  cases nextStringAddr a u <;> rfl

end

/-! ### The routines -/

theorem exec_trapPuts (s : State) :
    exec .trapPuts s = ((putString putsWord (s.reg 0) s.saveLink).andThen fun _ t => flush t).outcome := by
  rw [← State.saveLink_reg_zero]
  rfl

theorem exec_trapPutsp (s : State) :
    exec .trapPutsp s = ((putString putspWord (s.reg 0) s.saveLink).andThen fun _ t => flush t).outcome := by
  rw [← State.saveLink_reg_zero]
  rfl

theorem putspWord_of_high_zero {w : Word} (h : highByte w = 0) (s : State) : putspWord w s = putChar (lowByte w) s := by
  simp only [putspWord, if_pos h]
  cases putChar (lowByte w) s <;> rfl

theorem putspWord_of_high_ne_zero {w : Word} (h : highByte w ≠ 0) (s : State) :
    putspWord w s = (putChar (lowByte w) s).andThen fun _ t => putChar (highByte w) t := by
  simp only [putspWord, if_neg h]

/-- Settles O60: each equation is the rule of one part of a turn. -/
theorem stringLoopGoesWordByWord : Obligations.StringLoopGoesWordByWord := by
  refine ⟨fun s => ⟨exec_trapPuts s, exec_trapPutsp s⟩, fun a s => ⟨fun h => stringWord_polls h a, fun h => ?notPolling⟩,
    fun w s => ⟨rfl, fun h => putspWord_of_high_zero h s, fun h => putspWord_of_high_ne_zero h s⟩,
    fun b s => ⟨fun h => ⟨_, putChar_ok h, rfl, rfl, rfl, rfl⟩, fun h => ⟨_, putChar_failure h, rfl, rfl, rfl, rfl⟩⟩,
    fun writeWord a s => ⟨fun t => putString_of_raised, fun t => putString_of_zero, fun w t hread hw =>
      ⟨fun u => putString_of_write_raised hread hw, fun u hwrite => ?next⟩⟩⟩
  case notPolling => exact stringWord_plain (by simp [h])
  case next =>
    rw [putString_of_write_ok hread hw hwrite]
    refine ⟨fun ha => ?_, fun ha hcfg => ?_, fun ha hcfg => ?_⟩
    · rw [nextStringAddr_below ha, Effect.ok_andThen]
    · rw [nextStringAddr_fault ha hcfg, Effect.raised_andThen]
    · rw [nextStringAddr_wrap ha hcfg, Effect.ok_andThen]

/-! ### PUTS and PUTSP as one kind of routine -/

/-- The instruction is PUTS or PUTSP, as far as the statements about both go: a loop and a flush, the loop writing these bytes for
each word and these for a string. -/
structure StringRoutine (i : Instr) (writeWord : Word → State → Effect Unit) (wordChars : Word → List Byte)
    (chars : List Word → List Byte) : Prop where
  exec_eq : ∀ s, exec i s = ((putString writeWord (s.reg 0) s.saveLink).andThen fun _ t => flush t).outcome
  works : WritesWord writeWord wordChars
  chars_eq : ∀ ws, chars ws = ws.flatMap wordChars
  io : ∀ w s, (writeWord w s).Io (· = .ioError) s
  completes : ∀ w s, (writeWord w s).Completes

theorem puts_routine : StringRoutine .trapPuts putsWord (fun w => [lowByte w]) putsChars where
  exec_eq := exec_trapPuts
  works := putsWord_works
  chars_eq _ := List.map_eq_flatMap
  io := putsWord_io
  completes _ := putChar_completes _

theorem putsp_routine :
    StringRoutine .trapPutsp putspWord (fun w => if highByte w = 0 then [lowByte w] else [lowByte w, highByte w])
      putspChars where
  exec_eq := exec_trapPutsp
  works := putspWord_works
  chars_eq _ := rfl
  io := putspWord_io
  completes w s := by
    refine (putChar_completes _ s).andThen fun _ t => ?_
    split
    · exact .ok () t
    · exact putChar_completes _ t

section

variable {i : Instr} {writeWord : Word → State → Effect Unit} {wordChars : Word → List Byte}
  {chars : List Word → List Byte} (routine : StringRoutine i writeWord wordChars chars) {s u : State}

include routine

/-- An error of the loop ends the routine: no flush follows. -/
theorem StringRoutine.exec_of_raised (h : putString writeWord (s.reg 0) s.saveLink = .raised u) : exec i s = .next u := by
  rw [routine.exec_eq, h]
  rfl

/-- A loop that ends is followed by a flush, which with a host that takes output delivers all that was written. -/
theorem StringRoutine.exec_of_ok {cells : List Word} (h : putString writeWord (s.reg 0) s.saveLink = .ok () u)
    (hu : Linked cells s u) (hworks : u.con.OutputWorks) :
    ∃ t, exec i s = .next t ∧ t.con.delivered = u.written ∧ t.con.buffer = [] ∧ t.con.input = u.con.input ∧
      t.con.polls = u.con.polls ∧ (∀ a, t.cell a = u.cell a) ∧ t.reg 7 = s.pc ∧ t.cond = s.cond ∧ t.pc = s.pc ∧
      KeepsAllBut [7] cells s t := by
  obtain ⟨c, hflush, -, hbuf, hdel, hin, hpolls⟩ := flush_works hworks
  refine ⟨u.setCon c, ?_, hdel, hbuf, hin, hpolls, fun _ => rfl, (hu.setCon c).completed⟩
  rw [routine.exec_eq, h, Effect.ok_andThen, hflush]
  rfl

/-- Under `STRING_OVERRUN = fault` the routine has a next state. -/
theorem StringRoutine.exec_next (hcfg : s.cfg.stringOverrun = .fault) : ∃ t, exec i s = .next t := by
  have hloop : (putString writeWord (s.reg 0) s.saveLink).Completes :=
    putString_ends routine.io routine.completes (s.reg 0) s.saveLink hcfg
  rw [routine.exec_eq]
  exact (hloop.andThen fun _ t => flush_completes t).outcome

end

/-- What a routine of reads and host requests leaves, whether or not it raises an error. -/
theorem IoOrRaised.saveLink_frame {errs : Err → Prop} {s t : State} (h : IoOrRaised errs s.saveLink t) :
    t.reg 7 = s.pc ∧ t.pc = s.pc ∧ t.cond = s.cond ∧ t.run = s.run ∧ t.cfg = s.cfg ∧ SameRegsBut [7] s t ∧
      SameCellsBut s.deviceCells s t := by
  obtain hio | ⟨u, x, hio, -, rfl⟩ := h
  · obtain ⟨hlink, hcond, hpc, hregs, hcells, hrun, -, hcfg⟩ := hio.linked.completed
    exact ⟨hlink, hpc, hcond, hrun, hcfg, hregs, hcells⟩
  · obtain ⟨hlink, hcond, hpc, hrun, hcfg, hregs, hcells⟩ := hio.linked.raised x
    exact ⟨hlink, hpc, hcond, hrun, hcfg, hregs, hcells⟩

/-- Settles O43: the loop ends by 0xFFFF at the latest (`putString_ends`), and `exec_after` says what the routine can have
changed. -/
theorem stringRoutinesAlwaysComplete : Obligations.StringRoutinesAlwaysComplete := by
  intro s hcfg
  refine ⟨?puts, ?putsp⟩
  case puts =>
    obtain ⟨t, ht⟩ := puts_routine.exec_next hcfg
    exact ⟨t, ht, IoOrRaised.saveLink_frame (exec_after ht)⟩
  case putsp =>
    obtain ⟨t, ht⟩ := putsp_routine.exec_next hcfg
    exact ⟨t, ht, IoOrRaised.saveLink_frame (exec_after ht)⟩

end Sys2Proof.Machine
end

section
/-! Whole strings, with a host that takes output (43_trap.md R145, R147): a string that ends, one that runs past 0xFFFF, and one
that reaches the status address. In each the words before that point are written first, by `putString_words`. -/

namespace Sys2Proof.Machine

/-! ### What has been written -/

/-- `d` is `c` with these bytes appended to the output buffer, and still takes output; its input and its polls are said apart. -/
structure Console.HasWritten (c d : Console) (bs : List Byte) : Prop where
  works : d.OutputWorks
  buffer : d.buffer = c.buffer ++ bs
  delivered : d.delivered = c.delivered

theorem Console.HasWritten.trans {c d e : Console} {bs cs : List Byte} (h : c.HasWritten d bs) (h' : d.HasWritten e cs) :
    c.HasWritten e (bs ++ cs) where
  works := h'.works
  buffer := by rw [h'.buffer, h.buffer, List.append_assoc]
  delivered := h'.delivered.trans h.delivered

/-- A poll leaves the output side. -/
theorem Console.HasWritten.pollKey {c d : Console} {bs : List Byte} (h : c.HasWritten d bs) :
    c.HasWritten d.pollKey.2 bs := by
  obtain ⟨hwrites, hflushes, hbuf, hdel⟩ := d.pollKey_output
  refine ⟨?_, hbuf.trans h.buffer, hdel.trans h.delivered⟩
  rw [Console.OutputWorks, hwrites, hflushes]
  exact h.works

theorem Console.HasWritten.written {s t : State} {bs : List Byte} (h : s.con.HasWritten t.con bs) :
    t.written = s.written ++ bs := by
  rw [State.written, h.buffer, h.delivered, ← List.append_assoc, State.written]

theorem Appends.hasWritten {e : Effect Unit} {s : State} {bs : List Byte} (h : Appends e s bs) :
    ∃ c : Console, e = .ok () (s.setCon c) ∧ s.con.HasWritten c bs ∧ c.input = s.con.input ∧ c.polls = s.con.polls := by
  obtain ⟨c, he, hworks, hbuf, hdel, hin, hpolls⟩ := h
  exact ⟨c, he, ⟨hworks, hbuf, hdel⟩, hin, hpolls⟩

/-! ### The words before the point in question -/

theorem State.HoldsWords.of_mem {s t : State} {a : Word} {ws : List Word} (h : s.HoldsWords a ws) (hmem : t.mem = s.mem) :
    t.HoldsWords a ws :=
  State.holdsWords_congr (State.cell_of_mem hmem) h

theorem add_ofNat_of_toNat {a b : Word} {n : Nat} (h : a.toNat + n = b.toNat) : a + BitVec.ofNat 16 n = b := by
  apply BitVec.eq_of_toNat_eq
  have := b.isLt
  rw [BitVec.toNat_add, BitVec.toNat_ofNat]
  omega

section

variable {writeWord : Word → State → Effect Unit} {wordChars : Word → List Byte} (hwr : WritesWord writeWord wordChars)
  {ws : List Word} {a b : Word} {s : State} (hworks : s.con.OutputWorks) (hz : ∀ w ∈ ws, w ≠ 0) (hold : s.HoldsWords a ws)
  (hplain : s.PlainRange a ws.length)

include hwr hworks hz hold hplain

/-- The loop over nonzero words up to an address: they are written, and it goes on from there. -/
theorem putString_words (hab : a.toNat + ws.length = b.toNat) :
    ∃ c : Console, putString writeWord a s = putString writeWord b (s.setCon c) ∧
      s.con.HasWritten c (ws.flatMap wordChars) ∧ c.input = s.con.input ∧ c.polls = s.con.polls := by
  obtain ⟨c, hturns, hworks', hbuf, hdel, hin, hpolls⟩ :=
    stringTurns_words hwr ws a s hworks hz hold hplain (by have := b.isLt; omega)
  refine ⟨c, ?_, ⟨hworks', hbuf, hdel⟩, hin, hpolls⟩
  rw [putString_of_goes_on hturns, add_ofNat_of_toNat hab]

/-- The loop over nonzero words up to the top of memory: they are written, and what follows goes by the address after it. -/
theorem putString_to_the_top (htop : a.toNat + ws.length = 65536) :
    ∃ c : Console, putString writeWord a s = (nextStringAddr Word.last (s.setCon c)).andThen (putString writeWord) ∧
      s.con.HasWritten c (ws.flatMap wordChars) ∧ c.input = s.con.input ∧ c.polls = s.con.polls := by
  obtain rfl | ⟨init, w, rfl⟩ := List.eq_nil_or_concat' ws
  · have := a.isLt
    simp at htop
    omega
  rw [State.holdsWords_append] at hold
  simp only [List.length_append, List.length_singleton] at htop hplain
  obtain ⟨hrange, hkbsr⟩ := hplain
  obtain ⟨hinit, hlast, -⟩ := hold
  have hend : a.toNat + init.length = Word.last.toNat := by simp; omega
  obtain ⟨c, hloop, hc, hin, hpolls⟩ := putString_words hwr hworks (fun v hv => hz v (by simp [hv])) hinit
    ⟨by omega, fun hp b h1 h2 => hkbsr hp b h1 (by omega)⟩ hend
  have hread : stringWord Word.last (s.setCon c) = .ok w (s.setCon c) := by
    rw [stringWord_plain (s := s.setCon c) fun hp => hkbsr hp _ (by omega) (by omega), State.setCon_cell,
      ← add_ofNat_of_toNat hend, hlast]
  obtain ⟨d, hwrite, hd, hin', hpolls'⟩ := (hwr w (s.setCon c) hc.works).hasWritten
  refine ⟨d, ?_, ?_, hin'.trans hin, hpolls'.trans hpolls⟩
  · rw [hloop, putString_of_write_ok hread (hz w (by simp)) hwrite]
    rfl
  · simpa using hc.trans hd

end

/-! ### Strings that end, and strings past the top -/

section

variable {i : Instr} {writeWord : Word → State → Effect Unit} {wordChars : Word → List Byte}
  {chars : List Word → List Byte} (routine : StringRoutine i writeWord wordChars chars)

include routine

theorem StringRoutine.chars_append (ws vs : List Word) : chars (ws ++ vs) = chars ws ++ chars vs := by
  simp only [routine.chars_eq, List.flatMap_append]

theorem StringRoutine.chars_singleton (w : Word) : chars [w] = wordChars w := by
  rw [routine.chars_eq, List.flatMap_singleton]

variable {s : State} {ws : List Word}

/-- A loop that ends having written these bytes and nothing but the streams. -/
theorem StringRoutine.exec_of_written {c : Console} {bs : List Byte}
    (h : putString writeWord (s.reg 0) s.saveLink = .ok () (s.saveLink.setCon c)) (hc : s.con.HasWritten c bs)
    (hin : c.input = s.con.input) (hpolls : c.polls = s.con.polls) :
    ∃ t, exec i s = .next t ∧ t.con.delivered = s.written ++ bs ∧ t.con.buffer = [] ∧ t.con.input = s.con.input ∧
      t.con.polls = s.con.polls ∧ t.reg 7 = s.pc ∧ t.cond = s.cond ∧ t.pc = s.pc ∧ KeepsAllBut [7] [] s t := by
  obtain ⟨t, hexec, hdel, hbuf, hin', hpolls', -, hframe⟩ :=
    routine.exec_of_ok h ((Linked.saveLink s).setCon c) hc.works
  have hwritten : (s.saveLink.setCon c).written = s.written ++ bs := hc.written
  exact ⟨t, hexec, hdel.trans hwritten, hbuf, hin'.trans hin, hpolls'.trans hpolls, hframe⟩

variable (hworks : s.con.OutputWorks) (hz : ∀ w ∈ ws, w ≠ 0)

include hworks hz

/-- A NUL-terminated string is written and delivered. -/
theorem StringRoutine.writes_string (hold : s.HoldsWords (s.reg 0) (ws ++ [0]))
    (hplain : s.PlainRange (s.reg 0) (ws.length + 1)) :
    ∃ t, exec i s = .next t ∧ t.con.delivered = s.written ++ chars ws ∧ t.con.buffer = [] ∧ t.con.input = s.con.input ∧
      t.con.polls = s.con.polls ∧ t.reg 7 = s.pc ∧ t.cond = s.cond ∧ t.pc = s.pc ∧ KeepsAllBut [7] [] s t := by
  have hheld : s.saveLink.HoldsWords (s.reg 0) (ws ++ [0]) := hold.of_mem rfl
  obtain ⟨c, hloop, hc, hin, hpolls⟩ :=
    (putString_works routine.works ws (s.reg 0) s.saveLink hworks hz hheld hplain).hasWritten
  rw [routine.chars_eq]
  exact routine.exec_of_written hloop hc hin hpolls

variable (hold : s.HoldsWords (s.reg 0) ws) (htop : (s.reg 0).toNat + ws.length = 65536)
  (hplain : s.PlainRange (s.reg 0) ws.length)

include hold htop hplain

theorem StringRoutine.loop_to_the_top :
    ∃ c : Console, putString writeWord (s.reg 0) s.saveLink =
        (nextStringAddr Word.last (s.saveLink.setCon c)).andThen (putString writeWord) ∧
      s.con.HasWritten c (chars ws) ∧ c.input = s.con.input ∧ c.polls = s.con.polls := by
  have hheld : s.saveLink.HoldsWords (s.reg 0) ws := hold.of_mem rfl
  rw [routine.chars_eq]
  exact putString_to_the_top (s := s.saveLink) routine.works hworks hz hheld hplain htop

/-- Past the top under `fault`: all is written, nothing more delivered. -/
theorem StringRoutine.overruns (hcfg : s.cfg.stringOverrun = .fault) :
    ∃ t, exec i s = .next t ∧ t.err = some (.unspecified .stringOverrun) ∧ t.written = s.written ++ chars ws ∧
      t.con.delivered = s.con.delivered ∧ t.con.input = s.con.input ∧ t.con.polls = s.con.polls ∧ t.reg 7 = s.pc ∧
      t.cond = s.cond ∧ t.pc = s.pc ∧ t.run = s.run ∧ t.cfg = s.cfg ∧ SameRegsBut [7] s t ∧ SameCellsBut [] s t := by
  obtain ⟨c, hloop, hc, hin, hpolls⟩ := routine.loop_to_the_top hworks hz hold htop hplain
  rw [nextStringAddr_fault (s := s.saveLink.setCon c) rfl hcfg, Effect.raised_andThen] at hloop
  exact ⟨_, routine.exec_of_raised hloop, rfl, hc.written (t := s.saveLink.setCon c), hc.delivered, hin, hpolls,
    ((Linked.saveLink s).setCon c).raised _⟩

/-- Past the top under `wrap`: the string goes on at 0x0000. -/
theorem StringRoutine.wraps (hcfg : s.cfg.stringOverrun = .wrap) {vs : List Word} (hvz : ∀ v ∈ vs, v ≠ 0)
    (hvold : s.HoldsWords 0 (vs ++ [0])) (hvplain : s.PlainRange 0 (vs.length + 1)) :
    ∃ t, exec i s = .next t ∧ t.con.delivered = s.written ++ chars (ws ++ vs) ∧ t.con.buffer = [] ∧
      t.con.input = s.con.input ∧ t.con.polls = s.con.polls ∧ t.reg 7 = s.pc ∧ t.cond = s.cond ∧ t.pc = s.pc ∧
      KeepsAllBut [7] [] s t := by
  obtain ⟨c, hloop, hc, hin, hpolls⟩ := routine.loop_to_the_top hworks hz hold htop hplain
  have hheld : (s.saveLink.setCon c).HoldsWords 0 (vs ++ [0]) := hvold.of_mem rfl
  obtain ⟨d, hrest, hd, hin', hpolls'⟩ :=
    (putString_works routine.works vs 0 (s.saveLink.setCon c) hc.works hvz hheld hvplain).hasWritten
  rw [nextStringAddr_wrap (s := s.saveLink.setCon c) rfl hcfg, Effect.ok_andThen, hrest] at hloop
  rw [routine.chars_append, routine.chars_eq vs]
  exact routine.exec_of_written hloop (hc.trans hd) (hin'.trans hin) (hpolls'.trans hpolls)

end

/-- Settles O40: PUTS is a string routine. -/
theorem putsWritesTheStringAtR0 : Obligations.PutsWritesTheStringAtR0 :=
  fun _ _ hworks hz hold hplain => puts_routine.writes_string hworks hz hold hplain

/-- Settles O41: PUTSP is a string routine. -/
theorem putspWritesThePackedStringAtR0 : Obligations.PutspWritesThePackedStringAtR0 :=
  fun _ _ hworks hz hold hplain => putsp_routine.writes_string hworks hz hold hplain

/-- Settles O42: both routines, under each setting of the overrun. -/
theorem stringPastTheTopOverrunsOrWraps : Obligations.StringPastTheTopOverrunsOrWraps := by
  intro s ws hworks hz hold htop hplain
  refine ⟨fun hcfg => ⟨?_, ?_⟩, fun vs hcfg hvz hvold hvplain => ⟨?_, ?_⟩⟩
  · exact puts_routine.overruns hworks hz hold htop hplain hcfg
  · exact putsp_routine.overruns hworks hz hold htop hplain hcfg
  · exact puts_routine.wraps hworks hz hold htop hplain hcfg hvz hvold hvplain
  · exact putsp_routine.wraps hworks hz hold htop hplain hcfg hvz hvold hvplain

end Sys2Proof.Machine
end

section
/-! A string that reaches the status address (43_trap.md R145, R147; 20_memory.md R54): the words before it are written, then the
keyboard is polled, and what follows goes by the answer of the poll. -/

namespace Sys2Proof.Machine

/-! ### The poll of a string read -/

/-- What a poll is answered, and what it leaves of the input and the polls, depends on these two alone. -/
theorem Console.pollKey_of_inputs {c d e : Console} {r : KeyPoll} (hin : d.input = c.input) (hpolls : d.polls = c.polls)
    (h : c.pollKey = (r, e)) :
    d.pollKey = (r, d.pollKey.2) ∧ d.pollKey.2.input = e.input ∧ d.pollKey.2.polls = e.polls := by
  have hanswer : d.takePoll.1 = c.takePoll.1 := by rw [Console.takePoll, hpolls, Console.takePoll]
  have hitem : d.takePoll.2.takeInput.1 = c.takePoll.2.takeInput.1 := by simp [Console.takeInput, hin]
  have hinput : d.takePoll.2.takeInput.2.input = c.takePoll.2.takeInput.2.input := by simp [Console.takeInput, hin]
  have hrest : d.takePoll.2.polls = c.takePoll.2.polls := by simp [Console.takePoll, hpolls]
  obtain ⟨rfl, rfl⟩ := Prod.mk.inj h
  unfold Console.pollKey
  rw [hanswer, hitem]
  cases c.takePoll.1 with
  | noKey | failure => exact ⟨rfl, hin, hrest⟩
  | keyReady =>
    cases c.takePoll.2.takeInput.1 with
    | byte b => exact ⟨rfl, hinput, hrest⟩
    | endOfInput | failure | silence => exact ⟨rfl, hin, hrest⟩

/-- A poll that finds no key takes nothing from the input. -/
theorem Console.pollKey_none_input {c d : Console} (h : c.pollKey = (.none, d)) : d.input = c.input := by
  obtain ⟨hanswer, rfl⟩ := Prod.ext_iff.1 h
  unfold Console.pollKey at hanswer ⊢
  cases hp : c.takePoll.1 with
  | noKey | failure => rfl
  | keyReady =>
    cases hx : c.takePoll.2.takeInput.1 with
    | byte b => simp [hp, hx] at hanswer
    | endOfInput | failure | silence => rfl

/-- A poll after the link is saved writes the cells it may write. -/
theorem Linked.refreshKeyboard {cells : List Word} {s t : State} (h : Linked [] s t) (r : KeyPoll)
    (hcells : SameCellsBut cells t (t.refreshKeyboard r)) : Linked cells s (t.refreshKeyboard r) where
  gpr := by rw [State.refreshKeyboard_gpr, h.gpr]
  pc := by rw [State.refreshKeyboard_pc, h.pc]
  cond := by rw [State.refreshKeyboard_cond, h.cond]
  run := by rw [State.refreshKeyboard_run, h.run]
  err := by rw [State.refreshKeyboard_err, h.err]
  cfg := by rw [State.refreshKeyboard_cfg, h.cfg]
  cells a ha := (hcells a ha).trans (h.cells a List.not_mem_nil)

/-- `KBSR_READY` ends no string: its bit 15 is set (00_scope.md R8). -/
theorem Config.kbsrReady_ne_zero {c : Config} (h : c.wf = true) : c.kbsrReady ≠ 0 := by
  intro h0
  have := Config.kbsrReady_msb h
  simp [h0] at this

/-- The state a routine goes on in after such a poll: the streams are these, the cells are what the poll made of them. -/
def State.polled (s : State) (r : KeyPoll) (c : Console) : State := (s.saveLink.setCon c).refreshKeyboard r

@[simp] theorem State.polled_con (s : State) (r : KeyPoll) (c : Console) : (s.polled r c).con = c := by
  simp [State.polled]

@[simp] theorem State.polled_cfg (s : State) (r : KeyPoll) (c : Console) : (s.polled r c).cfg = s.cfg := by
  simp [State.polled]

theorem State.polled_setCon (s : State) (r : KeyPoll) (c d : Console) : (s.polled r c).setCon d = s.polled r d := by
  cases r <;> rfl

theorem State.polled_mem (s : State) (r : KeyPoll) (c : Console) : (s.polled r c).mem = (s.refreshKeyboard r).mem := by
  cases r <;> rfl

theorem State.polled_cell (s : State) (r : KeyPoll) (c : Console) (a : Word) :
    (s.polled r c).cell a = (s.refreshKeyboard r).cell a :=
  State.cell_of_mem (s.polled_mem r c) a

theorem State.polled_linked (s : State) (r : KeyPoll) (c : Console) : Linked s.deviceCells s (s.polled r c) := by
  obtain ⟨-, hcells, -⟩ := (s.saveLink.setCon c).refreshKeyboard_keeps r
  exact ((Linked.saveLink s).setCon c).refreshKeyboard r hcells

theorem State.polled_none_linked (s : State) (c : Console) : Linked [s.cfg.kbsrAddr] s (s.polled .none c) := by
  obtain ⟨-, hcells, -⟩ := (s.saveLink.setCon c).refreshKeyboard_none_keeps
  exact ((Linked.saveLink s).setCon c).refreshKeyboard .none hcells

theorem State.polled_written {s : State} {c : Console} {bs : List Byte} (r : KeyPoll) (h : s.con.HasWritten c bs) :
    (s.polled r c).written = s.written ++ bs :=
  Console.HasWritten.written (by simpa using h)

/-! ### A string that reaches the status address -/

section

variable {i : Instr} {writeWord : Word → State → Effect Unit} {wordChars : Word → List Byte}
  {chars : List Word → List Byte} (routine : StringRoutine i writeWord wordChars chars) {s : State} {c : Console}
  {ws : List Word} (hworks : s.con.OutputWorks) (hpolling : s.cfg.trapReadPolls = true) (hz : ∀ w ∈ ws, w ≠ 0)
  (hold : s.HoldsWords (s.reg 0) ws) (hstatus : (s.reg 0).toNat + ws.length = s.cfg.kbsrAddr.toNat)

include routine hworks hpolling hz hold hstatus

/-- The words before it are written, and the loop goes on with a poll that is answered as the next one of `s` would be. -/
theorem StringRoutine.loop_to_the_status {r : KeyPoll} (hpoll : s.con.pollKey = (r, c)) :
    ∃ d e : Console, putString writeWord (s.reg 0) s.saveLink = putString writeWord s.cfg.kbsrAddr (s.saveLink.setCon d) ∧
      stringWord s.cfg.kbsrAddr (s.saveLink.setCon d) = memRead s.cfg.kbsrAddr (s.saveLink.setCon d) ∧
      d.pollKey = (r, e) ∧ s.con.HasWritten e (chars ws) ∧ e.input = c.input ∧ e.polls = c.polls := by
  have hplain : s.saveLink.PlainRange (s.reg 0) ws.length := by
    refine ⟨by have := s.cfg.kbsrAddr.isLt; omega, fun _ b _ hb => ?_⟩
    rintro rfl
    simp only [State.saveLink_cfg] at hb
    omega
  obtain ⟨d, hloop, hd, hin, hpolls⟩ :=
    putString_words (s := s.saveLink) routine.works hworks hz (hold.of_mem rfl) hplain hstatus
  obtain ⟨hanswer, hin', hpolls'⟩ := Console.pollKey_of_inputs hin hpolls hpoll
  rw [routine.chars_eq]
  exact ⟨d, d.pollKey.2, hloop, stringWord_polls (s := s.saveLink.setCon d) hpolling _, hanswer, hd.pollKey, hin', hpolls'⟩

/-- With no key the string ends there. -/
theorem StringRoutine.loop_without_key (hpoll : s.con.pollKey = (.none, c)) :
    ∃ e : Console, putString writeWord (s.reg 0) s.saveLink = .ok () (s.polled .none e) ∧
      s.con.HasWritten e (chars ws) ∧ e.input = c.input ∧ e.polls = c.polls := by
  obtain ⟨d, e, hloop, hread, hanswer, he⟩ := routine.loop_to_the_status hworks hpolling hz hold hstatus hpoll
  refine ⟨e, ?_, he⟩
  rw [hloop]
  exact putString_of_zero (hread.trans (memRead_status_of_none (s := s.saveLink.setCon d) hanswer))

/-- A failed poll ends the loop in its error. -/
theorem StringRoutine.loop_with_failed_poll (hpoll : s.con.pollKey = (.failed, c)) :
    ∃ e : Console, putString writeWord (s.reg 0) s.saveLink = .raised ((s.saveLink.setCon e).recordErr .ioError) ∧
      s.con.HasWritten e (chars ws) := by
  obtain ⟨d, e, hloop, hread, hanswer, he, -⟩ := routine.loop_to_the_status hworks hpolling hz hold hstatus hpoll
  refine ⟨e, ?_, he⟩
  rw [hloop]
  exact putString_of_raised (hread.trans (memRead_status_of_failed (s := s.saveLink.setCon d) hanswer))

/-- With a key the characters of `KBSR_READY` are written too, and what follows goes by the status address. -/
theorem StringRoutine.loop_with_key {b : Byte} (hwf : s.cfg.wf = true) (hpoll : s.con.pollKey = (.some b, c)) :
    ∃ e : Console, putString writeWord (s.reg 0) s.saveLink =
        (nextStringAddr s.cfg.kbsrAddr (s.polled (.some b) e)).andThen (putString writeWord) ∧
      s.con.HasWritten e (chars (ws ++ [s.cfg.kbsrReady])) ∧ e.input = c.input ∧ e.polls = c.polls := by
  obtain ⟨d, e, hloop, hread, hanswer, he, hin, hpolls⟩ :=
    routine.loop_to_the_status hworks hpolling hz hold hstatus hpoll
  have hword : stringWord s.cfg.kbsrAddr (s.saveLink.setCon d) = .ok s.cfg.kbsrReady (s.polled (.some b) e) :=
    hread.trans (memRead_status_of_some (s := s.saveLink.setCon d) (Config.kbsrAddr_ne_kbdrAddr hwf) hanswer)
  obtain ⟨f, hwrite, hf, hin', hpolls'⟩ :=
    (routine.works s.cfg.kbsrReady (s.polled (.some b) e) (by simpa using he.works)).hasWritten
  rw [State.polled_con] at hf hin' hpolls'
  rw [State.polled_setCon] at hwrite
  refine ⟨f, ?_, ?_, hin'.trans hin, hpolls'.trans hpolls⟩
  · rw [hloop, putString_of_write_ok hword (Config.kbsrReady_ne_zero hwf) hwrite]
  · rw [routine.chars_append, routine.chars_singleton]
    exact he.trans hf

/-- With a key below 0xFFFF the string goes on in the memory the poll left. -/
theorem StringRoutine.loop_past_the_key {b : Byte} {vs : List Word} (hwf : s.cfg.wf = true)
    (hpoll : s.con.pollKey = (.some b, c)) (hvz : ∀ v ∈ vs, v ≠ 0)
    (hfits : s.cfg.kbsrAddr.toNat + vs.length + 2 ≤ 65536)
    (hvold : (s.refreshKeyboard (.some b)).HoldsWords (s.cfg.kbsrAddr + 1) (vs ++ [0])) :
    ∃ e : Console, putString writeWord (s.reg 0) s.saveLink = .ok () (s.polled (.some b) e) ∧
      s.con.HasWritten e (chars (ws ++ s.cfg.kbsrReady :: vs)) ∧ e.input = c.input ∧ e.polls = c.polls := by
  obtain ⟨e, hloop, he, hin, hpolls⟩ := routine.loop_with_key hworks hpolling hz hold hstatus hwf hpoll
  have hbelow : s.cfg.kbsrAddr ≠ Word.last := by
    intro h
    rw [h] at hfits
    simp at hfits
    omega
  have hnext : (s.cfg.kbsrAddr + 1).toNat = s.cfg.kbsrAddr.toNat + 1 := by
    rw [BitVec.toNat_add]
    simp
    omega
  have hplain : (s.polled (.some b) e).PlainRange (s.cfg.kbsrAddr + 1) (vs.length + 1) := by
    refine ⟨by omega, fun _ a ha _ => ?_⟩
    rintro rfl
    rw [State.polled_cfg] at ha
    omega
  obtain ⟨f, hrest, hf, hin', hpolls'⟩ := (putString_works routine.works vs _ (s.polled (.some b) e)
    (by simpa using he.works) hvz (hvold.of_mem (s.polled_mem _ e)) hplain).hasWritten
  rw [State.polled_con] at hf hin' hpolls'
  rw [nextStringAddr_below hbelow, Effect.ok_andThen, hrest, State.polled_setCon] at hloop
  refine ⟨f, hloop, ?_, hin'.trans hin, hpolls'.trans hpolls⟩
  have hchars : ws ++ s.cfg.kbsrReady :: vs = (ws ++ [s.cfg.kbsrReady]) ++ vs := by simp
  rw [hchars, routine.chars_append _ vs, routine.chars_eq vs]
  exact he.trans hf

end

/-- PUTS and PUTSP are string routines. -/
theorem stringRoutine_of {i : Instr} {chars : List Word → List Byte}
    (h : (i = .trapPuts ∧ chars = putsChars) ∨ (i = .trapPutsp ∧ chars = putspChars)) :
    ∃ writeWord wordChars, StringRoutine i writeWord wordChars chars := by
  obtain ⟨rfl, rfl⟩ | ⟨rfl, rfl⟩ := h
  · exact ⟨_, _, puts_routine⟩
  · exact ⟨_, _, putsp_routine⟩

/-- Settles O46: one case for each answer of the poll, a key apart by where the status address stands. -/
theorem stringReadAtTheStatusAddressPolls : Obligations.StringReadAtTheStatusAddressPolls := by
  intro s c i chars ws hi hworks hpolling hz hold hstatus
  obtain ⟨writeWord, wordChars, routine⟩ := stringRoutine_of hi
  refine ⟨fun hpoll => ?noKey, fun hpoll => ?failed, fun b vs hwf hpoll hvz hfits hvold => ?key,
    fun b hwf hpoll htop hcfg => ?last⟩
  case noKey =>
    obtain ⟨e, hloop, he, hin, hpolls⟩ := routine.loop_without_key hworks hpolling hz hold hstatus hpoll
    obtain ⟨t, hexec, hdel, hbuf, hin', hpolls', hcell, hframe⟩ :=
      routine.exec_of_ok hloop (s.polled_none_linked e) (by simpa using he.works)
    rw [State.polled_con] at hin' hpolls'
    refine ⟨t, hexec, hdel.trans (State.polled_written _ he), hbuf, hpolls'.trans hpolls,
      hin'.trans (hin.trans (Console.pollKey_none_input hpoll)), ?_, hframe⟩
    rw [hcell, State.polled_cell, s.refreshKeyboard_none_status]
  case failed =>
    obtain ⟨e, hloop, he⟩ := routine.loop_with_failed_poll hworks hpolling hz hold hstatus hpoll
    exact ⟨_, routine.exec_of_raised hloop, rfl, he.written (t := s.saveLink.setCon e), he.delivered,
      ((Linked.saveLink s).setCon e).raised .ioError⟩
  case key =>
    obtain ⟨e, hloop, he, hin, hpolls⟩ :=
      routine.loop_past_the_key hworks hpolling hz hold hstatus hwf hpoll hvz hfits hvold
    obtain ⟨t, hexec, hdel, hbuf, hin', hpolls', hcell, hframe⟩ :=
      routine.exec_of_ok hloop (s.polled_linked _ e) (by simpa using he.works)
    rw [State.polled_con] at hin' hpolls'
    refine ⟨t, hexec, hdel.trans (State.polled_written _ he), hbuf, hpolls'.trans hpolls, hin'.trans hin, ?_, ?_, hframe⟩
    · rw [hcell, State.polled_cell, s.refreshKeyboard_some_status b (Config.kbsrAddr_ne_kbdrAddr hwf)]
    · rw [hcell, State.polled_cell, s.refreshKeyboard_some_data b]
  case last =>
    obtain ⟨e, hloop, he, hin, hpolls⟩ := routine.loop_with_key hworks hpolling hz hold hstatus hwf hpoll
    rw [nextStringAddr_fault htop ((s.polled_cfg _ e).symm ▸ hcfg), Effect.raised_andThen] at hloop
    refine ⟨_, routine.exec_of_raised hloop, rfl, State.polled_written _ he, ?_, ?_, ?_, ?_, ?_,
      (s.polled_linked _ e).raised _⟩
    · simpa using he.delivered
    · simpa using hpolls
    · simpa using hin
    · exact (s.polled_cell _ e _).trans (s.refreshKeyboard_some_status b (Config.kbsrAddr_ne_kbdrAddr hwf))
    · exact (s.polled_cell _ e _).trans (s.refreshKeyboard_some_data b)

end Sys2Proof.Machine
end

section
/-! The unimplemented opcodes (44_reserved.md): their formats have one field, the opcode, and their meanings record an error and do
nothing else. -/

namespace Sys2Proof.Machine

theorem exec_res (s : State) : exec .res s = .next (s.recordErr (.invalidOpcode 13)) := rfl

/-- What recording an error does beside the error: nothing (60_exceptions.md R176). -/
theorem State.recordErr_frame (s : State) (e : Err) :
    (s.recordErr e).pc = s.pc ∧ (s.recordErr e).cond = s.cond ∧ (s.recordErr e).con = s.con ∧ (s.recordErr e).run = s.run ∧
      (s.recordErr e).cfg = s.cfg ∧ SameRegsBut [] s (s.recordErr e) ∧ SameCellsBut [] s (s.recordErr e) :=
  ⟨s.recordErr_pc e, s.recordErr_cond e, s.recordErr_con e, s.recordErr_run e, s.recordErr_cfg e,
    fun r _ => s.recordErr_reg e r, fun a _ => s.recordErr_cell e a⟩

/-- A format with no field but the opcode: a word of that opcode decodes to its instruction, whatever the other bits. -/
theorem decode_of_only_opcode {i : Instr} {op : BitVec 4} {w : Word} (hwf : i.wf = true) (hfields : i.fields = [opcodeField op])
    (hop : w.extractLsb' 12 4 = op) : decode w = i := by
  refine decode_of_fieldsIn hwf ?_
  rw [Instr.FieldsIn, hfields]
  exact List.forall_mem_singleton.2 hop

/-- Settles O49: the opcode alone decides the decoding, and both meanings record an error and nothing else. -/
theorem reservedOpcodesAlwaysRaiseInvalidOpcode : Obligations.ReservedOpcodesAlwaysRaiseInvalidOpcode := by
  refine fun w s => ⟨fun hop => ⟨?rtiWord, ?rti⟩, fun hop => ⟨?resWord, ?res⟩⟩
  case rtiWord => exact decode_of_only_opcode rfl rfl hop
  case rti => exact ⟨_, exec_rti s, s.recordErr_err _, s.recordErr_frame _⟩
  case resWord => exact decode_of_only_opcode rfl rfl hop
  case res => exact ⟨_, exec_res s, s.recordErr_err _, s.recordErr_frame _⟩

end Sys2Proof.Machine
end

section
/-! Errors and the end of a run (60_exceptions.md R171 to R175, 70_reset_and_hazards.md R191): no step is taken once a run has
ended, and which error each instruction may end it with. -/

namespace Sys2Proof.Machine

/-! ### The status of a run -/

/-- A run stands in one of three ways, by its error and, without one, by its run state. -/
theorem State.status_cases (s : State) :
    (∃ e, s.err = some e ∧ s.status = .errored e) ∨ (s.err = none ∧ s.run = .halted ∧ s.status = .halted) ∨
      (s.err = none ∧ s.run = .running ∧ s.status = .running) := by
  cases he : s.err <;> cases hr : s.run <;> simp [State.status, he, hr]

theorem State.status_eq_errored {s : State} {e : Err} (h : s.status = .errored e) : s.err = some e := by
  obtain ⟨x, he, hs⟩ | ⟨-, -, hs⟩ | ⟨-, -, hs⟩ := s.status_cases
  · cases hs.symm.trans h
    exact he
  · cases hs.symm.trans h
  · cases hs.symm.trans h

theorem State.status_eq_halted {s : State} (h : s.status = .halted) : s.err = none ∧ s.run = .halted := by
  obtain ⟨x, -, hs⟩ | ⟨he, hr, -⟩ | ⟨-, -, hs⟩ := s.status_cases
  · cases hs.symm.trans h
  · exact ⟨he, hr⟩
  · cases hs.symm.trans h

theorem State.status_of_running {s : State} (he : s.err = none) (hr : s.run = .running) : s.status = .running := by
  simp only [State.status, he, hr]

theorem step_of_halted {s : State} (he : s.err = none) (hr : s.run = .halted) : step s = .fault .runHalted := by
  simp only [step, he, hr]

/-- Settles O21: an error and a halt each stop the step by their fault, and `step_cases` says where a step begins. -/
theorem noStepAfterTheEndOfARun : Obligations.NoStepAfterTheEndOfARun := by
  refine ⟨fun s e h => step_of_err (State.status_eq_errored h), fun s h => ?halted, fun s t h => ?running⟩
  case halted =>
    obtain ⟨he, hr⟩ := State.status_eq_halted h
    exact step_of_halted he hr
  case running =>
    obtain ⟨he, hr, -⟩ := step_cases h
    exact State.status_of_running he hr

/-! ### Which errors are raised -/

/-- From `s` to `t` no error is recorded but one of these. -/
def RaisesOnly (errs : Err → Prop) (s t : State) : Prop := t.err = s.err ∨ ∃ e, errs e ∧ t.err = some e

/-- From a run with no error, an error that is there was raised on the way. -/
theorem RaisesOnly.of_no_err {errs : Err → Prop} {s t : State} {e : Err} (h : RaisesOnly errs s t) (hs : s.err = none)
    (ht : t.err = some e) : errs e := by
  obtain hkept | ⟨x, hx, hraised⟩ := h
  · cases ht.symm.trans (hkept.trans hs)
  · cases ht.symm.trans hraised
    exact hx

theorem IoOrRaised.raisesOnly {errs : Err → Prop} {s t : State} (h : IoOrRaised errs s t) : RaisesOnly errs s t := by
  obtain hio | ⟨u, x, -, hx, rfl⟩ := h
  · exact .inl hio.err
  · exact .inr ⟨x, hx, rfl⟩

/-- Reads and host requests, and then an update that records no error, raise IoError at most. -/
theorem ThenOrIoError.raisesOnly {f : State → State → Prop} {s t : State} (h : ThenOrIoError f s t)
    (hf : ∀ u, f u t → t.err = u.err) : RaisesOnly (· = .ioError) s t := by
  obtain ⟨u, hio, hu⟩ | ⟨u, -, rfl⟩ := h
  · exact .inl ((hf u hu).trans hio.err)
  · exact .inr ⟨_, rfl, rfl⟩

/-- An instruction leaves the error as it was or raises one that the spec lists for it. -/
theorem exec_raisesOnly {i : Instr} {s t : State} (h : exec i s = .next t) : RaisesOnly i.mayRaise s t := by
  have hafter := exec_after h
  cases i with
  | br | jmp | jsr | jsrr | addReg | addImm | andReg | andImm | notReg | lea =>
    obtain ⟨v, rfl⟩ := hafter
    exact .inl rfl
  | st | str =>
    obtain ⟨a, v, rfl⟩ := hafter
    exact .inl rfl
  | rti | res | trapUnknown =>
    obtain rfl := hafter
    exact .inr ⟨_, rfl, rfl⟩
  | ld | ldr | ldi =>
    simp only [After] at hafter
    exact hafter.raisesOnly fun _ ⟨_, ht⟩ => ht ▸ rfl
  | sti =>
    simp only [After] at hafter
    exact hafter.raisesOnly fun _ ⟨_, _, ht⟩ => ht ▸ rfl
  | trapGetc | trapIn =>
    simp only [After] at hafter
    exact hafter.raisesOnly (s := s.saveLink) fun _ ⟨_, ht⟩ => ht ▸ rfl
  | trapHalt =>
    simp only [After] at hafter
    exact hafter.raisesOnly (s := s.saveLink) fun _ ht => ht ▸ rfl
  | trapOut | trapPuts | trapPutsp => exact IoOrRaised.raisesOnly (s := s.saveLink) hafter

/-- Settles O54: what an instruction raises is in its row (`exec_raisesOnly`), and the run began with no error. -/
theorem errorsAreRaisedOnlyWhereTheSpecSays : Obligations.ErrorsAreRaisedOnlyWhereTheSpecSays :=
  fun _ _ _ _ hs hexec ht => (exec_raisesOnly hexec).of_no_err hs ht

end Sys2Proof.Machine
end

section
/-! The invariant (60_exceptions.md R175, 70_reset_and_hazards.md R191). That a run is not both Halted and Errored
is kept only from a run that has not ended; what every instruction keeps in every state is that it ends the run in one way at
most. -/

namespace Sys2Proof.Machine

/-- Memory stays canonical, the parameters stay, and the run state and the error do not both change. -/
structure EndsOnceAtMost (s t : State) : Prop where
  wf : s.mem.wf = true → t.mem.wf = true
  cfg : t.cfg = s.cfg
  oneEnd : t.run = s.run ∨ t.err = s.err

theorem IoOnly.sameEngine {s t : State} (h : IoOnly s t) : SameEngine s t := ⟨h.run, h.err, h.cfg⟩

/-- An update of neither memory nor parameters, and not of both the run state and the error. -/
theorem EndsOnceAtMost.of_mem {s t : State} (hmem : t.mem = s.mem) (hcfg : t.cfg = s.cfg)
    (hone : t.run = s.run ∨ t.err = s.err) : EndsOnceAtMost s t :=
  ⟨fun h => hmem ▸ h, hcfg, hone⟩

theorem EndsOnceAtMost.memWrite (s : State) (a v : Word) : EndsOnceAtMost s (s.memWrite a v) :=
  ⟨State.memWrite_wf a v, rfl, .inl rfl⟩

theorem EndsOnceAtMost.recordErr (s : State) (e : Err) : EndsOnceAtMost s (s.recordErr e) := .of_mem rfl rfl (.inl rfl)

theorem EndsOnceAtMost.halt (s : State) : EndsOnceAtMost s s.halt := .of_mem rfl rfl (.inr rfl)

/-- What comes before does not count when it leaves the engine and keeps memory canonical. -/
theorem EndsOnceAtMost.after {s u t : State} (hwf : s.mem.wf = true → u.mem.wf = true) (hengine : SameEngine s u)
    (h : EndsOnceAtMost u t) : EndsOnceAtMost s t := by
  obtain ⟨hrun, herr, hcfg⟩ := hengine
  exact ⟨h.wf ∘ hwf, h.cfg.trans hcfg, h.oneEnd.imp (·.trans hrun) (·.trans herr)⟩

theorem EndsOnceAtMost.after_io {s u t : State} (hio : IoOnly s u) (h : EndsOnceAtMost u t) : EndsOnceAtMost s t :=
  .after hio.wf hio.sameEngine h

theorem EndsOnceAtMost.after_saveLink {s t : State} (h : EndsOnceAtMost s.saveLink t) : EndsOnceAtMost s t :=
  .after (u := s.saveLink) id ⟨rfl, rfl, rfl⟩ h

theorem IoOrRaised.endsOnceAtMost {errs : Err → Prop} {s t : State} (h : IoOrRaised errs s t) : EndsOnceAtMost s t := by
  obtain hio | ⟨u, x, hio, -, rfl⟩ := h
  · exact .after_io hio (.of_mem rfl rfl (.inl rfl))
  · exact .after_io hio (.recordErr u x)

theorem ThenOrIoError.endsOnceAtMost {f : State → State → Prop} {s t : State} (h : ThenOrIoError f s t)
    (hf : ∀ u, f u t → EndsOnceAtMost u t) : EndsOnceAtMost s t := by
  obtain ⟨u, hio, hu⟩ | ⟨u, hio, rfl⟩ := h
  · exact .after_io hio (hf u hu)
  · exact .after_io hio (.recordErr u _)

/-- Every instruction, in every state: HALT alone changes the run state, and it does so with no error raised. -/
theorem exec_endsOnceAtMost {i : Instr} {s t : State} (h : exec i s = .next t) : EndsOnceAtMost s t := by
  have hafter := exec_after h
  cases i with
  | br | jmp | jsr | jsrr | addReg | addImm | andReg | andImm | notReg | lea =>
    obtain ⟨v, rfl⟩ := hafter
    exact .of_mem rfl rfl (.inl rfl)
  | st | str =>
    obtain ⟨a, v, rfl⟩ := hafter
    exact .memWrite s a v
  | rti | res | trapUnknown =>
    obtain rfl := hafter
    exact .of_mem rfl rfl (.inl rfl)
  | ld | ldr | ldi =>
    simp only [After] at hafter
    exact hafter.endsOnceAtMost fun _ ⟨_, ht⟩ => ht ▸ .of_mem rfl rfl (.inl rfl)
  | sti =>
    simp only [After] at hafter
    exact hafter.endsOnceAtMost fun u ⟨a, v, ht⟩ => ht ▸ .memWrite u a v
  | trapGetc | trapIn =>
    simp only [After] at hafter
    exact .after_saveLink (hafter.endsOnceAtMost fun _ ⟨_, ht⟩ => ht ▸ .of_mem rfl rfl (.inl rfl))
  | trapHalt =>
    simp only [After] at hafter
    exact .after_saveLink (hafter.endsOnceAtMost fun u ht => ht ▸ .halt u)
  | trapOut | trapPuts | trapPutsp =>
    simp only [After] at hafter
    exact .after_saveLink hafter.endsOnceAtMost

/-- A step ends the run in one way at most: its fetch leaves the engine, or raises and is the whole step. -/
theorem step_endsOnceAtMost {s t : State} (h : step s = .next t) : EndsOnceAtMost s t := by
  have hfetch := fetch_io s
  obtain ⟨-, -, ⟨w, _, hf, hexec⟩ | hf⟩ := step_cases h <;> rw [hf] at hfetch
  · obtain ⟨u, hio, rfl⟩ := hfetch
    exact .after (u := u.setPc (s.pc + 1)) hio.wf hio.sameEngine (exec_endsOnceAtMost hexec)
  · obtain ⟨u, hio, rfl⟩ := hfetch
    exact .after_io hio (.recordErr u _)

/-- From a run that has not ended, ending once at most keeps the invariant. -/
theorem EndsOnceAtMost.inv {s t : State} (h : EndsOnceAtMost s t) (hs : s.Inv) (herr : s.err = none)
    (hrun : s.run = .running) : t.Inv where
  memory := h.wf hs.memory
  parameters := h.cfg ▸ hs.parameters
  oneEnd := h.oneEnd.symm.imp (·.trans herr) (·.trans hrun)

/-- Settles O59: a step begins in a run that has not ended, and ends it in one way at most (`step_endsOnceAtMost`). -/
theorem everyStepKeepsTheInvariant : Obligations.EveryStepKeepsTheInvariant := by
  intro s t hs hstep
  have honce := step_endsOnceAtMost hstep
  obtain ⟨herr, hrun, -⟩ := step_cases hstep
  exact ⟨honce.inv hs herr hrun, honce.cfg⟩

end Sys2Proof.Machine
end

section
/-! A host that refuses the first byte of a routine (60_exceptions.md R173, R176): IN, HALT, PUTS and PUTSP all end in the
one state that OUT ends in then (`exec_trapOut_of_write_failure`). -/

namespace Sys2Proof.Machine

/-- The state in which a routine ends whose first write fails: R7, the write's answer and the error are all that changed. -/
def State.firstWriteRefused (s : State) : State := (s.saveLink.setCon s.con.takeWrite.2).recordErr .ioError

section

variable {s : State} (hw : s.con.takeWrite.1 = .failure)

include hw

theorem putBytes_of_write_failure {bs : List Byte} (hne : bs ≠ []) :
    putBytes bs s = .raised ((s.setCon s.con.takeWrite.2).recordErr .ioError) := by
  cases bs with
  | nil => exact absurd rfl hne
  | cons b bs => rw [putBytes, putChar_failure hw, Effect.raised_andThen]

theorem putspWord_of_write_failure (w : Word) :
    putspWord w s = .raised ((s.setCon s.con.takeWrite.2).recordErr .ioError) := by
  rw [putspWord, putChar_failure hw, Effect.raised_andThen]

theorem exec_trapIn_of_write_failure (hne : s.cfg.inPrompt ≠ []) : exec .trapIn s = .next s.firstWriteRefused := by
  rw [exec_trapIn, putBytes_of_write_failure (s := s.saveLink) hw hne]
  rfl

theorem exec_trapHalt_of_write_failure (hne : s.cfg.haltText ≠ []) : exec .trapHalt s = .next s.firstWriteRefused := by
  rw [exec_trapHalt, putBytes_of_write_failure (s := s.saveLink) hw hne]
  rfl

end

/-- Reading the first word of a plain range polls nothing. -/
theorem State.PlainRange.stringWord_first {s : State} {a : Word} {n : Nat} (h : s.PlainRange a (n + 1)) :
    stringWord a s = .ok (s.cell a) s := by
  obtain ⟨-, hkbsr⟩ := h
  exact stringWord_plain fun hp => hkbsr hp a le_rfl (by omega)

/-- PUTS or PUTSP whose first word is read without a poll and is not zero, and whose write fails. -/
theorem StringRoutine.exec_of_write_failure {i : Instr} {writeWord : Word → State → Effect Unit}
    {wordChars : Word → List Byte} {chars : List Word → List Byte} (routine : StringRoutine i writeWord wordChars chars)
    {s : State} (hplain : s.PlainRange (s.reg 0) 1) (hne : s.cell (s.reg 0) ≠ 0)
    (hwrite : writeWord (s.cell (s.reg 0)) s.saveLink = .raised s.firstWriteRefused) :
    exec i s = .next s.firstWriteRefused := by
  have hread : stringWord (s.reg 0) s.saveLink = .ok (s.cell (s.reg 0)) s.saveLink :=
    State.PlainRange.stringWord_first (s := s.saveLink) hplain
  exact routine.exec_of_raised (putString_of_write_raised hread hne hwrite)

/-- What such a routine leaves beside the error and the streams. -/
theorem State.firstWriteRefused_frame (s : State) :
    s.firstWriteRefused.reg 7 = s.pc ∧ s.firstWriteRefused.cond = s.cond ∧ s.firstWriteRefused.pc = s.pc ∧
      s.firstWriteRefused.run = s.run ∧ s.firstWriteRefused.cfg = s.cfg ∧ SameRegsBut [7] s s.firstWriteRefused ∧
      SameCellsBut [] s s.firstWriteRefused :=
  ((Linked.saveLink s).setCon s.con.takeWrite.2).raised .ioError

/-- Settles O47: in each case the first write is the first request to the host, and its error is the routine's. -/
theorem failedOutputEndsTheRoutine : Obligations.FailedOutputEndsTheRoutine := by
  intro s i hw hroutine
  have hexec : exec i s = .next s.firstWriteRefused := by
    obtain ⟨rfl, hne⟩ | ⟨rfl, hne⟩ | ⟨rfl | rfl, hplain, hne⟩ := hroutine
    · exact exec_trapIn_of_write_failure hw hne
    · exact exec_trapHalt_of_write_failure hw hne
    · exact puts_routine.exec_of_write_failure hplain hne (putChar_failure (s := s.saveLink) hw)
    · exact putsp_routine.exec_of_write_failure hplain hne (putspWord_of_write_failure (s := s.saveLink) hw _)
  exact ⟨_, hexec, rfl, rfl, rfl, rfl, rfl, s.firstWriteRefused_frame⟩

end Sys2Proof.Machine
end

section
/-! One step (70_reset_and_hazards.md R190): what the memory read at `pc` comes to decides whether an instruction runs. -/

namespace Sys2Proof.Machine

/-- A fetch whose poll fails is the whole step. -/
theorem step_of_memRead_raised {s t : State} (herr : s.err = none) (hrun : s.run = .running)
    (hread : memRead s.pc s = .raised t) : step s = .next t := by
  rw [step_running herr hrun]
  simp only [fetch, hread, Effect.raised_andThen]

/-- Settles O20: `step_of_memRead` at an address that polls nothing and at any address, and a fetch whose poll fails. -/
theorem stepRunsTheDecodedInstruction : Obligations.StepRunsTheDecodedInstruction := by
  refine ⟨fun s herr hrun hpc => ?plain, fun s t w herr hrun hread => ?read, fun s t herr hrun hread => ?failed⟩
  case plain => exact step_of_memRead herr hrun (memRead_pure hpc)
  case read =>
    rw [step_of_memRead herr hrun hread, (memRead_ok_io hread).pc]
  case failed =>
    obtain ⟨herr', -, hpc, -, -⟩ := memRead_raised_frame (.refl s) (.refl [] s) hread
    exact ⟨step_of_memRead_raised herr hrun hread, herr', hpc⟩

end Sys2Proof.Machine
end

section
/-! Boot (70_reset_and_hazards.md R195, 20_memory.md R60 to R62): the loader writes memory and records its error, and raw mode adds
at most an error, so all else is as at creation. -/

namespace Sys2Proof.Machine

/-- `t` is `s` but for memory, which stays canonical, and the error. -/
structure MemoryOrErrorOnly (s t : State) : Prop where
  gpr : t.gpr = s.gpr
  pc : t.pc = s.pc
  cond : t.cond = s.cond
  run : t.run = s.run
  con : t.con = s.con
  cfg : t.cfg = s.cfg
  wf : s.mem.wf = true → t.mem.wf = true

theorem MemoryOrErrorOnly.refl (s : State) : MemoryOrErrorOnly s s := ⟨rfl, rfl, rfl, rfl, rfl, rfl, id⟩

theorem MemoryOrErrorOnly.trans {s t u : State} (h : MemoryOrErrorOnly s t) (h' : MemoryOrErrorOnly t u) :
    MemoryOrErrorOnly s u :=
  ⟨h'.gpr.trans h.gpr, h'.pc.trans h.pc, h'.cond.trans h.cond, h'.run.trans h.run, h'.con.trans h.con,
    h'.cfg.trans h.cfg, h'.wf ∘ h.wf⟩

theorem MemoryOrErrorOnly.recordErr (s : State) (e : Err) : MemoryOrErrorOnly s (s.recordErr e) :=
  ⟨rfl, rfl, rfl, rfl, rfl, rfl, id⟩

theorem loadWords_memoryOrErrorOnly (o : Word) (ws : List Word) (s : State) : MemoryOrErrorOnly s (loadWords o ws s) := by
  rcases Nat.lt_or_ge 65536 (o.toNat + ws.length) with h | h
  · rw [loadWords_of_not_fit h]
    exact .recordErr s _
  · rw [loadWords_of_fit h]
    exact ⟨rfl, rfl, rfl, rfl, rfl, rfl, fun hwf => Memory.wf_writeAll hwf h⟩

theorem loadImage_memoryOrErrorOnly (image : List Byte) (s : State) : MemoryOrErrorOnly s (loadImage image s) := by
  cases hparse : parseImage image with
  | none =>
    rw [loadImage_of_no_parse hparse]
    exact .recordErr s _
  | some p =>
    obtain ⟨o, ws⟩ := p
    rw [loadImage_of_parse hparse]
    exact loadWords_memoryOrErrorOnly o ws s

theorem loadImages_memoryOrErrorOnly (images : List (List Byte)) (s : State) :
    MemoryOrErrorOnly s (loadImages images s) := by
  induction images generalizing s with
  | nil => exact .refl s
  | cons image images ih =>
    cases h : s.err with
    | some e =>
      rw [loadImages_of_err h]
      exact .refl s
    | none =>
      rw [loadImages_cons h]
      exact (loadImage_memoryOrErrorOnly image s).trans (ih _)

section

variable (cfg : Config) (con : Console) (images : List (List Byte))

/-- When raw mode is entered, boot is the loader. -/
theorem boot_of_ok : boot cfg con images .ok = loadImages images (State.create cfg con) := by
  cases h : (loadImages images (State.create cfg con)).err <;> simp only [boot, h]

variable {cfg con images}

/-- When it is not, after images that left no error, that is an IoError (60_exceptions.md R173). -/
theorem boot_of_failure (h : (loadImages images (State.create cfg con)).err = none) :
    boot cfg con images .failure = (loadImages images (State.create cfg con)).recordErr .ioError := by
  simp only [boot, h]

end

/-- Boot is the loader, with IoError recorded or not. -/
theorem boot_cases (cfg : Config) (con : Console) (images : List (List Byte)) (raw : OutputAnswer) :
    boot cfg con images raw = loadImages images (State.create cfg con) ∨
      boot cfg con images raw = (loadImages images (State.create cfg con)).recordErr .ioError := by
  cases raw with
  | ok => exact .inl (boot_of_ok cfg con images)
  | failure =>
    cases h : (loadImages images (State.create cfg con)).err with
    | none => exact .inr (boot_of_failure h)
    | some e => exact .inl (boot_of_err h .failure)

theorem boot_memoryOrErrorOnly (cfg : Config) (con : Console) (images : List (List Byte)) (raw : OutputAnswer) :
    MemoryOrErrorOnly (State.create cfg con) (boot cfg con images raw) := by
  have hload := loadImages_memoryOrErrorOnly images (State.create cfg con)
  obtain h | h := boot_cases cfg con images raw
  · exact h ▸ hload
  · exact h ▸ hload.trans (.recordErr _ _)

/-- Memory is what the images left, whatever became of raw mode. -/
theorem boot_cell (cfg : Config) (con : Console) (images : List (List Byte)) (raw : OutputAnswer) (a : Word) :
    (boot cfg con images raw).cell a = (loadImages images (State.create cfg con)).cell a := by
  obtain h | h := boot_cases cfg con images raw <;> rw [h]
  exact State.recordErr_cell ..

/-- From a running state that meets the invariant, the loader and raw mode keep it. -/
theorem MemoryOrErrorOnly.inv {s t : State} (h : MemoryOrErrorOnly s t) (hs : s.Inv) (hrun : s.run = .running) : t.Inv where
  memory := h.wf hs.memory
  parameters := h.cfg ▸ hs.parameters
  oneEnd := .inr (h.run.trans hrun)

/-- Settles O19: boot changes no more of the created state than memory and the error (`boot_memoryOrErrorOnly`), and the error is
the loader's or, without one, raw mode's. -/
theorem bootMeetsTheInvariant : Obligations.BootMeetsTheInvariant := by
  intro cfg con images raw hwf
  have hboot := boot_memoryOrErrorOnly cfg con images raw
  refine ⟨hboot.inv (State.create_inv con hwf) rfl, hboot.run, hboot.pc, State.reg_of_gpr hboot.gpr, hboot.cond, hboot.con,
    hboot.cfg, boot_cell cfg con images raw, fun e herr => ?imageError, fun hnone => ⟨?entered, ?failed⟩⟩
  case imageError => rw [boot_of_err herr, herr]
  case entered =>
    rintro rfl
    rw [boot_of_ok, hnone]
  case failed =>
    rintro rfl
    rw [boot_of_failure hnone, State.recordErr_err]

end Sys2Proof.Machine
end

section
/-! The run state (70_reset_and_hazards.md R192): no instruction but HALT writes it. -/

namespace Sys2Proof.Machine

theorem IoOrRaised.run {errs : Err → Prop} {s t : State} (h : IoOrRaised errs s t) : t.run = s.run := by
  obtain hio | ⟨u, x, hio, -, rfl⟩ := h
  · exact hio.run
  · exact hio.run

theorem ThenOrIoError.run {f : State → State → Prop} {s t : State} (h : ThenOrIoError f s t)
    (hf : ∀ u, f u t → t.run = u.run) : t.run = s.run := by
  obtain ⟨u, hio, hu⟩ | ⟨u, hio, rfl⟩ := h
  · exact (hf u hu).trans hio.run
  · exact hio.run

theorem exec_run_of_ne_halt {i : Instr} {s t : State} (hi : i ≠ .trapHalt) (h : exec i s = .next t) : t.run = s.run := by
  have hafter := exec_after h
  cases i with
  | br | jmp | jsr | jsrr | addReg | addImm | andReg | andImm | notReg | lea =>
    obtain ⟨v, rfl⟩ := hafter
    rfl
  | st | str =>
    obtain ⟨a, v, rfl⟩ := hafter
    rfl
  | rti | res | trapUnknown =>
    obtain rfl := hafter
    rfl
  | ld | ldr | ldi =>
    simp only [After] at hafter
    exact hafter.run fun _ ⟨_, ht⟩ => ht ▸ rfl
  | sti =>
    simp only [After] at hafter
    exact hafter.run fun _ ⟨_, _, ht⟩ => ht ▸ rfl
  | trapGetc | trapIn =>
    simp only [After] at hafter
    exact hafter.run (s := s.saveLink) fun _ ⟨_, ht⟩ => ht ▸ rfl
  | trapOut | trapPuts | trapPutsp => exact IoOrRaised.run (s := s.saveLink) hafter
  | trapHalt => exact absurd rfl hi

/-- An instruction that takes a running machine to Halted is HALT, and it raised no error on the way. -/
theorem exec_to_halted {i : Instr} {s t : State} (h : exec i s = .next t) (hs : s.run = .running) (ht : t.run = .halted) :
    i = .trapHalt ∧ t.err = s.err := by
  have hchanged : t.run ≠ s.run := by simp [hs, ht]
  exact ⟨by_contra fun hi => hchanged (exec_run_of_ne_halt hi h), (exec_endsOnceAtMost h).oneEnd.resolve_left hchanged⟩

/-- Settles O55: a fetch leaves the run state, so the instruction halted (`exec_to_halted`); and a step begins in a running
machine. -/
theorem onlyTheHaltTrapHalts : Obligations.OnlyTheHaltTrapHalts := by
  refine ⟨fun s t hstep ht => ?halts, fun s t hhalted hstep => ?noStep⟩
  case halts =>
    have hfetch := fetch_io s
    obtain ⟨herr, hrun, ⟨w, _, hf, hexec⟩ | hf⟩ := step_cases hstep <;> rw [hf] at hfetch
    · obtain ⟨u, hio, rfl⟩ := hfetch
      obtain ⟨hdec, herr'⟩ := exec_to_halted hexec (hio.run.trans hrun) ht
      exact ⟨hrun, herr'.trans (hio.err.trans herr), w, _, hf, hdec⟩
    · obtain ⟨u, hio, rfl⟩ := hfetch
      cases ht.symm.trans (hio.run.trans hrun)
  case noStep =>
    obtain ⟨-, hrun, -⟩ := step_cases hstep
    cases hhalted.symm.trans hrun

end Sys2Proof.Machine
end

section
/-! What completes and what may wait (70_reset_and_hazards.md R193, R194): a read of the input waits when the host never answers,
and a string's loop when no number of turns ends it; nothing else does. -/

namespace Sys2Proof.Machine

/-! ### Memory reads -/

theorem Effect.Completes.raised {α : Type} (s : State) : (Effect.raised s : Effect α).Completes := by
  simp [Effect.Completes]

theorem memRead_completes (a : Word) (s : State) : (memRead a s).Completes := memRead_ne_stuck a s

theorem loadInto_completes (dr : Reg) (a : Word) (s : State) : (loadInto dr a s).Completes :=
  (memRead_completes a s).andThen fun v t => .ok () (t.writeResult dr v)

/-! ### Reads of the input -/

/-- A read ends unless the host never answers. -/
theorem getChar_completes_or_silence (s : State) : (getChar s).Completes ∨ s.con.takeInput.1 = .silence := by
  cases h : s.con.takeInput.1 with
  | byte b => exact .inl (getChar_of_byte (Prod.ext h rfl) ▸ .ok b _)
  | endOfInput => exact .inl (getChar_of_end_or_failure (.inl (Prod.ext h rfl)) ▸ .raised _)
  | failure => exact .inl (getChar_of_end_or_failure (.inr (Prod.ext h rfl)) ▸ .raised _)
  | silence => exact .inr rfl

/-- A read and what follows it: a next state, or the wait for a host that never answers. -/
theorem getChar_next_or_waits {k : Byte → State → Effect Unit} (hk : ∀ b t, (k b t).Completes) (s : State) :
    (∃ t, ((getChar s).andThen k).outcome = .next t) ∨
      (s.con.takeInput.1 = .silence ∧ ((getChar s).andThen k).outcome = .fault .waitingForInput) := by
  obtain hread | hsilence := getChar_completes_or_silence s
  · exact .inl (hread.andThen hk).outcome
  · exact .inr ⟨hsilence, by rw [getChar_of_silence hsilence, Effect.stuck_andThen, Effect.stuck_outcome]⟩

theorem exec_trapGetc_next_or_waits (s : State) :
    (∃ t, exec .trapGetc s = .next t) ∨ (s.con.takeInput.1 = .silence ∧ exec .trapGetc s = .fault .waitingForInput) :=
  getChar_next_or_waits (fun b t => .ok () (storeChar b t)) s.saveLink

theorem echoChar_completes (b : Byte) (s : State) : (echoChar b s).Completes :=
  (putChar_completes b s).andThen fun _ t => (flush_completes t).andThen fun _ u => .ok () (storeChar b u)

/-- IN's prompt and its flush end, and they leave the input for the read. -/
theorem exec_trapIn_next_or_waits (s : State) :
    (∃ t, exec .trapIn s = .next t) ∨ (s.con.takeInput.1 = .silence ∧ exec .trapIn s = .fault .waitingForInput) := by
  have hends : ((putBytes s.cfg.inPrompt s.saveLink).andThen fun _ t => flush t).Completes :=
    (putBytes_completes _ _).andThen fun _ t => flush_completes t
  have hkeeps : ((putBytes s.cfg.inPrompt s.saveLink).andThen fun _ t => flush t).Keeps State.inputStream s.saveLink :=
    (putBytes_keeps_inputStream _ _).andThen fun _ t => flush_keeps_inputStream t
  rw [exec_trapIn]
  cases hprompt : (putBytes s.cfg.inPrompt s.saveLink).andThen fun _ t => flush t with
  | stuck f => exact absurd hprompt (hends f)
  | raised t => exact .inl ⟨t, rfl⟩
  | ok _ t =>
    rw [hprompt] at hkeeps
    have hin : s.con.input = t.con.input := Eq.symm hkeeps
    refine (getChar_next_or_waits echoChar_completes t).imp_right fun ⟨hsilence, hwaits⟩ => ⟨?_, hwaits⟩
    obtain ⟨hanswer, -⟩ := Console.takeInput_of_input hin (Prod.ext hsilence rfl)
    rw [hanswer]

/-! ### Strings -/

theorem nextStringAddr_completes (a : Word) (s : State) : (nextStringAddr a s).Completes := by
  by_cases ha : a = Word.last
  · cases hcfg : s.cfg.stringOverrun with
    | fault => exact nextStringAddr_fault ha hcfg ▸ .raised _
    | wrap => exact nextStringAddr_wrap ha hcfg ▸ .ok 0 s
  · exact nextStringAddr_below ha s ▸ .ok (a + 1) s

section

variable {writeWord : Word → State → Effect Unit} (hw : ∀ w s, (writeWord w s).Completes)

include hw

theorem stringTurn_completes (a : Word) (s : State) : (stringTurn writeWord a s).Completes := by
  refine Effect.Completes.andThen (stringWord_ne_stuck a s) fun w t => ?_
  split
  · exact .ok none t
  · exact (hw w t).andThen fun _ u => (nextStringAddr_completes a u).andThen fun b v => .ok (some b) v

/-- Any number of turns is done at last, whether or not the string has ended in them. -/
theorem stringTurns_completes (n : Nat) (a : Word) (s : State) : (stringTurns writeWord n a s).Completes := by
  induction n generalizing a s with
  | zero => exact .ok (some a) s
  | succ n ih =>
    refine (stringTurn_completes hw a s).andThen fun next t => ?_
    cases next with
    | none => exact .ok none t
    | some b => exact ih b t

end

/-- What turns that are done have ended in is an end. -/
theorem Effect.Completes.of_ended {e : Effect (Option Word)} {e' : Effect Unit} (he : e.Completes)
    (h : e.ended = some e') : e'.Completes := by
  cases e with
  | ok next t =>
    cases next with
    | none => exact Option.some.inj h ▸ .ok () t
    | some b => cases h
  | raised t => exact Option.some.inj h ▸ .raised t
  | stuck f => exact absurd rfl (he f)

/-- PUTS or PUTSP with any host: a next state, or the loop that no number of turns ends. -/
theorem StringRoutine.exec_next_or_unending {i : Instr} {writeWord : Word → State → Effect Unit}
    {wordChars : Word → List Byte} {chars : List Word → List Byte} (routine : StringRoutine i writeWord wordChars chars)
    (s : State) :
    (∃ t, exec i s = .next t) ∨
      (s.cfg.stringOverrun = .wrap ∧ exec i s = .fault .unendingString ∧
        ∀ n, ∃ b t, stringTurns writeWord n (s.reg 0) s.saveLink = .ok (some b) t) := by
  cases hcfg : s.cfg.stringOverrun with
  | fault => exact .inl (routine.exec_next hcfg)
  | wrap =>
    rw [routine.exec_eq]
    obtain ⟨n, hended⟩ | ⟨hstuck, hturns⟩ := putString_cases (writeWord := writeWord) (s.reg 0) s.saveLink
    · have hloop := (stringTurns_completes routine.completes n _ _).of_ended hended
      exact .inl (hloop.andThen fun _ t => flush_completes t).outcome
    · exact .inr ⟨rfl, by rw [hstuck, Effect.stuck_andThen, Effect.stuck_outcome], hturns⟩

/-! ### Every instruction -/

/-- Settles O58: only the reads of GETC and IN (`getChar_next_or_waits`) and the loops of PUTS and PUTSP
(`StringRoutine.exec_next_or_unending`) can be stuck, each for its one reason. -/
theorem instructionsStopOnlyByTheNamedWaits : Obligations.InstructionsStopOnlyByTheNamedWaits := by
  intro i s
  cases i with
  | br | jmp | jsr | jsrr | addReg | addImm | andReg | andImm | notReg | lea | st | str | rti | res | trapUnknown =>
    exact .inl ⟨_, rfl⟩
  | ld | ldr => exact .inl (loadInto_completes _ _ s).outcome
  | ldi dr off => exact .inl ((memRead_completes _ s).andThen fun p u => loadInto_completes dr p u).outcome
  | sti sr off => exact .inl ((memRead_completes _ s).andThen fun p u => .ok () (u.memWrite p (u.reg sr))).outcome
  | trapOut => exact .inl ((putChar_completes _ _).andThen fun _ u => flush_completes u).outcome
  | trapHalt => exact .inl (exec_trapHalt_next s)
  | trapGetc =>
    exact (exec_trapGetc_next_or_waits s).imp_right fun hwaits => .inl ⟨.inl rfl, hwaits⟩
  | trapIn =>
    exact (exec_trapIn_next_or_waits s).imp_right fun hwaits => .inl ⟨.inr rfl, hwaits⟩
  | trapPuts =>
    exact (puts_routine.exec_next_or_unending s).imp_right fun hunending => .inr ⟨putsWord, .inl ⟨rfl, rfl⟩, hunending⟩
  | trapPutsp =>
    exact (putsp_routine.exec_next_or_unending s).imp_right fun hunending => .inr ⟨putspWord, .inr ⟨rfl, rfl⟩, hunending⟩

end Sys2Proof.Machine
end
